-- ==== Sys2Proof/Word.lean ====
section
/-! DEFINITION. The word types of chimp-compress CORE (spec/00_scope.md R14, R17; spec/30_encoding.md R108). -/

namespace Sys2Proof

/-- One byte of a byte space (R60). -/
abbrev Byte := BitVec 8

/-- A value: "a 64-bit unsigned pattern" (R14, R19). -/
abbrev Value := BitVec 64

/-- A command word: `op[79:72] arg[71:64] data[63:0]` (R108). -/
abbrev CommandWord := BitVec 80

/-- A window slot number as a code carries it: `L` bits with `L <= 21` (R13, R101). -/
abbrev Slot := BitVec 21

/-- A run of stream bits, first bit first (R62, R63). -/
abbrev Bits := List Bool

end Sys2Proof
end

