-- ==== Sys2Proof/Machine/Bits.lean ====
section
/-! DEFINITION. Bit strings, little-endian bytes, zero counts, the bucket table and the constants of
spec/00_scope.md R11, R12, R17, R18 and spec/30_encoding.md R96. -/

namespace Sys2Proof

/-- The low `n` bits of `v`, most significant first: what `emit(v, n)` writes (R63, R131). -/
def natBits (v : Nat) : Nat → Bits
  | 0 => []
  | n + 1 => v.testBit n :: natBits v n

/-- The unsigned number of a bit string, first bit most significant: what `take` returns (R63, R151). -/
def bitsNat (bs : Bits) : Nat :=
  bs.foldl (fun r b => 2 * r + b.toNat) 0

/-- The first `n` bits as a number, with the rest; nothing where fewer than `n` bits are left (R151). -/
def takeNat (n : Nat) (bs : Bits) : Option (Nat × Bits) :=
  if n ≤ bs.length then some (bitsNat (bs.take n), bs.drop n) else none

/-- How many bits are missing from cursor `k` to the next byte boundary (R136, R155). -/
def padBits (k : Nat) : Nat := (8 - k % 8) % 8

/-- `ceil(a / b)` (R17). -/
def ceilDiv (a b : Nat) : Nat := (a + b - 1) / b

/-- `le(bytes)` (R18). -/
def leNat : List Byte → Nat
  | [] => 0
  | b :: bs => b.toNat + 256 * leNat bs

/-- `le_bytes(v, n)` (R18). -/
def leBytes (v : Nat) : Nat → List Byte
  | 0 => []
  | n + 1 => BitVec.ofNat 8 v :: leBytes (v / 256) n

/-- `clz64(x)`, 64 for `x = 0` (R18). -/
def clz64 (x : Value) : Nat := ((natBits x.toNat 64).takeWhile (fun b => !b)).length

/-- `ctz64(x)`, 64 for `x = 0` (R18, D8). -/
def ctz64 (x : Value) : Nat := ((natBits x.toNat 64).reverse.takeWhile (fun b => !b)).length

/-- `BUCKET[i]` (R12). -/
def bucket (i : BitVec 3) : Nat :=
  [0, 8, 12, 16, 18, 20, 22, 24].getD i.toNat 0

/-- `bidx(z)`: the index of the largest bucket not above `z` (R18, R96). -/
def bucketIndex (z : Nat) : BitVec 3 :=
  if z < 8 then 0
  else if z < 12 then 1
  else if z < 16 then 2
  else if z < 18 then 3
  else if z < 20 then 4
  else if z < 22 then 5
  else if z < 24 then 6
  else 7

/-- `S`: the payload width an `IDX` code's 6-bit count stands for, 0 meaning 64 (R91, R101). -/
def sigWidth (sig : BitVec 6) : Nat := if sig = 0 then 64 else sig.toNat

/-- `SENTINEL` (R12). -/
def sentinel : Value := 0x7FF8000000000000#64

/-- `UNSET`: the stored leading-zero count that stands for none (R12). -/
def unset : Nat := 65

/-- The pattern of `-1.0` that `DEC_READ_VALUE` answers at the end of the stream (R220, D16). -/
def endPattern : Value := 0xBFF0000000000000#64

/-- The largest `L` the hardware admits (R13). -/
def maxL : Nat := 21

/-- `W = 2^L` (R10, R11). -/
def windowSize (L : Nat) : Nat := 2 ^ L

/-- `THR = 6 + L` (R11). -/
def threshold (L : Nat) : Nat := 6 + L

/-- `TABSIZE = 2^(THR + 1)` (R11). -/
def tableSize (L : Nat) : Nat := 2 ^ (threshold L + 1)

/-- `v & KEYMASK`, the low `L + 7` bits of a value (R11, R175). -/
def keyOf (L : Nat) (v : Value) : Nat := v.toNat % tableSize L

/-- The position at which `cmp.gidx` may not advance any more (R176). -/
def lastPosition : Nat := 2 ^ 32 - 1

/-- `FRM_L`: the framing layer's window is 128 (R12). -/
def framingL : Nat := 7

/-- `HDR`: the frame's count field in bytes (R12). -/
def headerBytes : Nat := 4

end Sys2Proof
end

