-- ==== Sys2Proof/Syntax.lean ====
section
/-! DEFINITION. The instructions: the 23 commands of spec/30_encoding.md R109 and the 6 stream codes of R91, one
constructor of `Instr` for each row of spec/opcode_table.json. -/

namespace Sys2Proof

/-- The stream codes (R91 to R97), as the decoder reads them and the compressor writes them. -/
inductive Code where
  /-- `RAW64`: the first value of a stream, verbatim (R92). -/
  | raw64 (value : Value)
  /-- `REP`: exact repeat of the value in a window slot (R93). -/
  | rep (slot : Slot)
  /-- `IDX`: delta against a window slot; `sig = 0` means 64 payload bits (R94). -/
  | idx (slot : Slot) (lzc : BitVec 3) (sig : BitVec 6) (payload : Value)
  /-- `SAME`: delta against the last value, stored leading-zero bucket (R95). -/
  | same (payload : Value)
  /-- `NEW`: delta against the last value with a new leading-zero bucket (R95). -/
  | new (lzc : BitVec 3) (payload : Value)
  /-- `TERM`: the closing zero bit and `pad` zero bits (R97). -/
  | term (pad : BitVec 3)
deriving DecidableEq, Repr

/-- Where a code stands in its stream: the format of the first code and of the one after the sentinel is known by
position (R91, R99). -/
inductive Place where
  | first
  | later
  | afterSentinel
deriving DecidableEq, Repr

/-- What a code's format depends on besides its own bits (R99): the window size, the stored leading-zero bucket, the
slots filled so far, the bit cursor and the position in the stream. -/
structure CodeCtx where
  /-- `L`, the base-2 logarithm of the window size (R10). -/
  L : Nat
  /-- The stored leading-zero bucket, 65 when unset (R38, R41). -/
  slz : Nat
  /-- How many window slots hold a value (`dec.cnt`, R43). -/
  cnt : Nat
  /-- The bit cursor at the code's first bit (R44). -/
  pos : Nat
  place : Place
deriving DecidableEq, Repr

/-- The instructions, one per row of spec/opcode_table.json. A command carries the fields its row uses; the others are
ignored (R108). -/
inductive Instr where
  /-- `BW_INIT cap` (R130). -/
  | bwInit (cap : BitVec 32)
  /-- `BW_WRITE_BIT bit` (R132). -/
  | bwWriteBit (bit : BitVec 1)
  /-- `BW_WRITE_BITS len, value` (R134). -/
  | bwWriteBits (len : BitVec 8) (value : Value)
  /-- `BW_WRITE_BITS64 len, value` (R135). -/
  | bwWriteBits64 (len : BitVec 8) (value : Value)
  /-- `BW_ALIGN` (R136). -/
  | bwAlign
  /-- `BW_FLUSH` (R137). -/
  | bwFlush
  /-- `BR_INIT len` (R150). -/
  | brInit (len : BitVec 32)
  /-- `BR_READ_BIT` (R152). -/
  | brReadBit
  /-- `BR_READ_BITS len` (R153). -/
  | brReadBits (len : BitVec 8)
  /-- `BR_READ_BITS64 len` (R154). -/
  | brReadBits64 (len : BitVec 8)
  /-- `BR_ALIGN` (R155). -/
  | brAlign
  /-- `CMP_INIT L, cap` (R170). -/
  | cmpInit (l : BitVec 8) (cap : BitVec 32)
  /-- `CMP_ADD_U64 value` (R171). -/
  | cmpAddU64 (value : Value)
  /-- `CMP_ADD_F64 value` (R172). -/
  | cmpAddF64 (value : Value)
  /-- `CMP_CLOSE` (R191). -/
  | cmpClose
  /-- `CMP_GET_OUTPUT` (R193). -/
  | cmpGetOutput
  /-- `CMP_GET_SIZE` (R194). -/
  | cmpGetSize
  /-- `DEC_INIT L, len, budget` (R210). -/
  | decInit (l : BitVec 8) (len : BitVec 32) (budget : BitVec 32)
  /-- `DEC_NEXT` (R211). -/
  | decNext
  /-- `DEC_READ_VALUE` (R220). -/
  | decReadValue
  /-- `DEC_GET_VALUES` (R221). -/
  | decGetValues
  /-- `FRM_COMPRESS source_len, dest_capacity` (R250). -/
  | frmCompress (sourceLen : BitVec 32) (destCapacity : BitVec 32)
  /-- `FRM_DECOMPRESS source_len, dest_capacity` (R255). -/
  | frmDecompress (sourceLen : BitVec 32) (destCapacity : BitVec 32)
  /-- The code `RAW64` met by the decoder (R92, R212). -/
  | raw64 (value : Value)
  /-- The code `REP` met by the decoder (R93, R217). -/
  | rep (slot : Slot)
  /-- The code `IDX` met by the decoder (R94, R216). -/
  | idx (slot : Slot) (lzc : BitVec 3) (sig : BitVec 6) (payload : Value)
  /-- The code `SAME` met by the decoder (R95, R215). -/
  | same (payload : Value)
  /-- The code `NEW` met by the decoder (R95, R214). -/
  | new (lzc : BitVec 3) (payload : Value)
  /-- The code `TERM` met by the decoder (R97, R222). -/
  | term (pad : BitVec 3)
deriving DecidableEq, Repr

/-- A stream code as an instruction. -/
def Code.toInstr : Code → Instr
  | .raw64 v => .raw64 v
  | .rep slot => .rep slot
  | .idx slot lzc sig payload => .idx slot lzc sig payload
  | .same payload => .same payload
  | .new lzc payload => .new lzc payload
  | .term pad => .term pad

end Sys2Proof
end

