-- ==== Sys2Proof/WellFormed.lean ====
section
/-! DEFINITION. When a stream code is well formed where it stands (its fields fit the widths of spec/30_encoding.md R91
and none of the cases of R103 holds), and when a command's operands are in their legal range (R109, R110, R276). -/

namespace Sys2Proof

/-- The code fits its format at this place of this stream (R91 to R97, R103). -/
def Code.wf (ctx : CodeCtx) : Code → Bool
  | .raw64 _ => decide (ctx.place = .first)
  | .rep slot =>
    decide (ctx.place = .later) && decide (slot.toNat < windowSize ctx.L) && decide (slot.toNat < ctx.cnt)
  | .idx slot lzc sig payload =>
    decide (ctx.place = .later) && decide (slot.toNat < windowSize ctx.L) && decide (slot.toNat < ctx.cnt) &&
      decide (sigWidth sig + bucket lzc ≤ 64) && decide (payload.toNat < 2 ^ sigWidth sig)
  | .same payload =>
    decide (ctx.place = .later) && decide (ctx.slz ≠ unset) && decide (payload.toNat < 2 ^ (64 - ctx.slz))
  | .new lzc payload =>
    decide (ctx.place = .later) && decide (payload.toNat < 2 ^ (64 - bucket lzc))
  | .term pad =>
    decide (ctx.place = .afterSentinel) && decide (pad.toNat = padBits (ctx.pos + 1))

/-- The operand is in the range R109 gives it; a command outside it is refused (R276 cases 5, 6 and 8). A stream code
has no operand range of this kind. -/
def Instr.operandsLegal : Instr → Bool
  | .bwInit _ => true
  | .bwWriteBit _ => true
  | .bwWriteBits len _ => decide (len.toNat ≤ 32)
  | .bwWriteBits64 len _ => decide (len.toNat ≤ 64)
  | .bwAlign => true
  | .bwFlush => true
  | .brInit _ => true
  | .brReadBit => true
  | .brReadBits len => decide (len.toNat ≤ 32)
  | .brReadBits64 len => decide (len.toNat ≤ 64)
  | .brAlign => true
  | .cmpInit l _ => decide (l.toNat ≤ maxL)
  | .cmpAddU64 _ => true
  | .cmpAddF64 _ => true
  | .cmpClose => true
  | .cmpGetOutput => true
  | .cmpGetSize => true
  | .decInit l _ _ => decide (l.toNat ≤ maxL)
  | .decNext => true
  | .decReadValue => true
  | .decGetValues => true
  | .frmCompress sourceLen _ => decide (sourceLen.toNat % 8 = 0)
  | .frmDecompress _ _ => true
  | .raw64 _ => true
  | .rep _ => true
  | .idx _ _ _ _ => true
  | .same _ => true
  | .new _ _ => true
  | .term _ => true

/-- The instruction as a stream code, where it is one. -/
def Instr.code? : Instr → Option Code
  | .bwInit _ => none
  | .bwWriteBit _ => none
  | .bwWriteBits _ _ => none
  | .bwWriteBits64 _ _ => none
  | .bwAlign => none
  | .bwFlush => none
  | .brInit _ => none
  | .brReadBit => none
  | .brReadBits _ => none
  | .brReadBits64 _ => none
  | .brAlign => none
  | .cmpInit _ _ => none
  | .cmpAddU64 _ => none
  | .cmpAddF64 _ => none
  | .cmpClose => none
  | .cmpGetOutput => none
  | .cmpGetSize => none
  | .decInit _ _ _ => none
  | .decNext => none
  | .decReadValue => none
  | .decGetValues => none
  | .frmCompress _ _ => none
  | .frmDecompress _ _ => none
  | .raw64 v => some (.raw64 v)
  | .rep slot => some (.rep slot)
  | .idx slot lzc sig payload => some (.idx slot lzc sig payload)
  | .same payload => some (.same payload)
  | .new lzc payload => some (.new lzc payload)
  | .term pad => some (.term pad)

/-- A well-formed instruction: any command (every field has its full width in the word, and an operand outside its
range is a refusal by the machine, not an encoding that does not exist, R276), or a code that fits its place. -/
def Instr.wf (ctx : CodeCtx) (i : Instr) : Bool :=
  match i.code? with
  | some c => c.wf ctx
  | none => true

end Sys2Proof
end

