-- ==== Sys2Proof/Decode.lean ====
section
/-! DEFINITION. Decoding and encoding of command words (spec/30_encoding.md R108 to R110) and of stream codes (R91 to
R103). Both decoders are total and reject by name. -/

namespace Sys2Proof

/-- Why a command word is no instruction. -/
inductive CommandError where
  /-- `op` is not in the table (R110). -/
  | reservedOp (op : BitVec 8)
deriving DecidableEq, Repr

/-- Why the bits at a cursor are no code of the stream. -/
inductive CodeError where
  /-- Fewer bits are left than the code needs (R103, R151). -/
  | exhausted
  /-- `SAME` with no stored leading-zero bucket (R103 a). -/
  | sameUnset
  /-- `REP` or `IDX` naming a slot that holds no value yet (R103 b). -/
  | slotEmpty
  /-- `IDX` with `S + BUCKET[lzc] > 64` (R103 c). -/
  | sigTooWide
  /-- The bits after the sentinel's code are not a zero bit and zero padding (R97). -/
  | notTerm
deriving DecidableEq, Repr

/-- `op = cmd[79:72]` (R108). -/
def opField (w : CommandWord) : BitVec 8 := w.extractLsb' 72 8

/-- `arg = cmd[71:64]` (R108). -/
def argField (w : CommandWord) : BitVec 8 := w.extractLsb' 64 8

/-- `data = cmd[63:0]` (R108). -/
def dataField (w : CommandWord) : BitVec 64 := w.extractLsb' 0 64

/-- `data[31:0]` (R109). -/
def lowHalf (d : BitVec 64) : BitVec 32 := d.extractLsb' 0 32

/-- `data[63:32]` (R109). -/
def highHalf (d : BitVec 64) : BitVec 32 := d.extractLsb' 32 32

/-- `data[0]` (R109). -/
def lowBit (d : BitVec 64) : BitVec 1 := d.extractLsb' 0 1

/-- The command a word stands for (R109); every other `op` is reserved (R110). -/
def decodeCommand (w : CommandWord) : Except CommandError Instr :=
  let arg := argField w
  let data := dataField w
  match (opField w).toNat with
  | 0x10 => .ok (.bwInit (lowHalf data))
  | 0x11 => .ok (.bwWriteBit (lowBit data))
  | 0x12 => .ok (.bwWriteBits arg data)
  | 0x13 => .ok (.bwWriteBits64 arg data)
  | 0x14 => .ok .bwAlign
  | 0x15 => .ok .bwFlush
  | 0x20 => .ok (.brInit (lowHalf data))
  | 0x21 => .ok .brReadBit
  | 0x22 => .ok (.brReadBits arg)
  | 0x23 => .ok (.brReadBits64 arg)
  | 0x24 => .ok .brAlign
  | 0x30 => .ok (.cmpInit arg (lowHalf data))
  | 0x31 => .ok (.cmpAddU64 data)
  | 0x32 => .ok (.cmpAddF64 data)
  | 0x33 => .ok .cmpClose
  | 0x34 => .ok .cmpGetOutput
  | 0x35 => .ok .cmpGetSize
  | 0x40 => .ok (.decInit arg (lowHalf data) (highHalf data))
  | 0x41 => .ok .decNext
  | 0x42 => .ok .decReadValue
  | 0x43 => .ok .decGetValues
  | 0x50 => .ok (.frmCompress (lowHalf data) (highHalf data))
  | 0x51 => .ok (.frmDecompress (lowHalf data) (highHalf data))
  | _ => .error (.reservedOp (opField w))

/-- The rest of a `NEW` code after its flag `11` (R95, R214). -/
def decodeNew (bs : Bits) : Except CodeError (Code × Bits) :=
  match takeNat 3 bs with
  | none => .error .exhausted
  | some (lzc, bs) =>
    match takeNat (64 - bucket (BitVec.ofNat 3 lzc)) bs with
    | none => .error .exhausted
    | some (payload, bs) => .ok (.new (BitVec.ofNat 3 lzc) (BitVec.ofNat 64 payload), bs)

/-- The rest of a `SAME` code after its flag `10`; the stored bucket is tested before the payload is read (R215, R278). -/
def decodeSame (ctx : CodeCtx) (bs : Bits) : Except CodeError (Code × Bits) :=
  if ctx.slz = unset then .error .sameUnset
  else
    match takeNat (64 - ctx.slz) bs with
    | none => .error .exhausted
    | some (payload, bs) => .ok (.same (BitVec.ofNat 64 payload), bs)

/-- The rest of an `IDX` code after its flag `01`: the packed field, then the two tests in the order of R278, then the
payload (R94, R216). -/
def decodeIdx (ctx : CodeCtx) (bs : Bits) : Except CodeError (Code × Bits) :=
  match takeNat (ctx.L + 9) bs with
  | none => .error .exhausted
  | some (packed, bs) =>
    let slot := packed / 512
    let lzc := BitVec.ofNat 3 (packed / 64)
    let sig := BitVec.ofNat 6 packed
    if 64 < sigWidth sig + bucket lzc then .error .sigTooWide
    else if ctx.cnt ≤ slot then .error .slotEmpty
    else
      match takeNat (sigWidth sig) bs with
      | none => .error .exhausted
      | some (payload, bs) => .ok (.idx (BitVec.ofNat 21 slot) lzc sig (BitVec.ofNat 64 payload), bs)

/-- The rest of a `REP` code after its flag `00` (R93, R217). -/
def decodeRep (ctx : CodeCtx) (bs : Bits) : Except CodeError (Code × Bits) :=
  match takeNat ctx.L bs with
  | none => .error .exhausted
  | some (slot, bs) =>
    if ctx.cnt ≤ slot then .error .slotEmpty else .ok (.rep (BitVec.ofNat 21 slot), bs)

/-- The closing zero bit and its zero padding (R97). -/
def decodeTerm (ctx : CodeCtx) (bs : Bits) : Except CodeError (Code × Bits) :=
  match takeNat (1 + padBits (ctx.pos + 1)) bs with
  | none => .error .exhausted
  | some (0, bs) => .ok (.term (BitVec.ofNat 3 (padBits (ctx.pos + 1))), bs)
  | some (_ + 1, _) => .error .notTerm

/-- The code that starts a bit string, with the bits after it (R99, R213). -/
def decodeCode (ctx : CodeCtx) (bs : Bits) : Except CodeError (Code × Bits) :=
  match ctx.place with
  | .first =>
    match takeNat 64 bs with
    | none => .error .exhausted
    | some (v, bs) => .ok (.raw64 (BitVec.ofNat 64 v), bs)
  | .afterSentinel => decodeTerm ctx bs
  | .later =>
    match bs with
    | true :: true :: bs => decodeNew bs
    | true :: false :: bs => decodeSame ctx bs
    | false :: true :: bs => decodeIdx ctx bs
    | false :: false :: bs => decodeRep ctx bs
    | _ => .error .exhausted

/-- A command word from its fields (R108). -/
def packCommand (op arg : BitVec 8) (data : BitVec 64) : CommandWord := op ++ arg ++ data

/-- The word of a command, unused fields zero (R109); a stream code has none. -/
def encodeCommand : Instr → Option CommandWord
  | .bwInit cap => some (packCommand 0x10 0 (0#32 ++ cap))
  | .bwWriteBit bit => some (packCommand 0x11 0 (0#63 ++ bit))
  | .bwWriteBits len value => some (packCommand 0x12 len value)
  | .bwWriteBits64 len value => some (packCommand 0x13 len value)
  | .bwAlign => some (packCommand 0x14 0 0)
  | .bwFlush => some (packCommand 0x15 0 0)
  | .brInit len => some (packCommand 0x20 0 (0#32 ++ len))
  | .brReadBit => some (packCommand 0x21 0 0)
  | .brReadBits len => some (packCommand 0x22 len 0)
  | .brReadBits64 len => some (packCommand 0x23 len 0)
  | .brAlign => some (packCommand 0x24 0 0)
  | .cmpInit l cap => some (packCommand 0x30 l (0#32 ++ cap))
  | .cmpAddU64 value => some (packCommand 0x31 0 value)
  | .cmpAddF64 value => some (packCommand 0x32 0 value)
  | .cmpClose => some (packCommand 0x33 0 0)
  | .cmpGetOutput => some (packCommand 0x34 0 0)
  | .cmpGetSize => some (packCommand 0x35 0 0)
  | .decInit l len budget => some (packCommand 0x40 l (budget ++ len))
  | .decNext => some (packCommand 0x41 0 0)
  | .decReadValue => some (packCommand 0x42 0 0)
  | .decGetValues => some (packCommand 0x43 0 0)
  | .frmCompress sourceLen destCapacity => some (packCommand 0x50 0 (destCapacity ++ sourceLen))
  | .frmDecompress sourceLen destCapacity => some (packCommand 0x51 0 (destCapacity ++ sourceLen))
  | .raw64 _ => none
  | .rep _ => none
  | .idx _ _ _ _ => none
  | .same _ => none
  | .new _ _ => none
  | .term _ => none

/-- The bits of a code where it stands, first bit first (R91 to R97). -/
def encodeCode (ctx : CodeCtx) : Code → Bits
  | .raw64 v => natBits v.toNat 64
  | .rep slot => natBits slot.toNat (ctx.L + 2)
  | .idx slot lzc sig payload =>
    natBits (512 * (windowSize ctx.L + slot.toNat) + 64 * lzc.toNat + sig.toNat) (ctx.L + 11) ++
      natBits payload.toNat (sigWidth sig)
  | .same payload => natBits 2 2 ++ natBits payload.toNat (64 - ctx.slz)
  | .new lzc payload => natBits (24 + lzc.toNat) 5 ++ natBits payload.toNat (64 - bucket lzc)
  | .term pad => natBits 0 (1 + pad.toNat)

/-- The encoder: the bits of an instruction, a command's 80 bits from bit 79 down, or a code's bits (R90). -/
def encode (ctx : CodeCtx) (i : Instr) : Bits :=
  match i.code? with
  | some c => encodeCode ctx c
  | none =>
    match encodeCommand i with
    | some w => natBits w.toNat 80
    | none => []

/-- A table pattern of `p` bits as stream bits: the number `w` has the pattern's last bit as its bit 0; a number too
large for `p` bits is read as `nbits` bits, the row padded on the right to whole bytes. -/
def patternBits (p nbits w : Nat) : Bits := natBits w (if w < 2 ^ p then p else nbits)

/-- The place and the bits that a stream-code row of spec/opcode_table.json stands for: its pattern, shown there for
`L = 7`, followed by zero bits (notes/assumptions/15.md). The patterns are 64 bits (`RAW64`), 18 (`IDX`), 9 (`REP`),
5 (`NEW`), 2 (`SAME`) and 1 (`TERM`) long; the last three share one byte and are told apart by their leading bit. -/
def tableCodeBits (nbits w : Nat) : CodeCtx × Bits :=
  let ctx (place : Place) : CodeCtx :=
    { L := framingL, slz := 0, cnt := windowSize framingL, pos := 0, place := place }
  let zeros := natBits 0 72
  if nbits = 64 then (ctx .first, natBits w 64)
  else if nbits = 24 ∨ nbits = 18 then (ctx .later, patternBits 18 nbits w ++ zeros)
  else if nbits = 16 ∨ nbits = 9 then (ctx .later, patternBits 9 nbits w ++ zeros)
  else if w < 2 then (ctx .afterSentinel, natBits w 1 ++ zeros)
  else if w < 4 then (ctx .later, natBits w 2 ++ zeros)
  else (ctx .later, patternBits 5 nbits w ++ zeros)

/-- The instruction the decoder reads from the bits of a row of spec/opcode_table.json: an 80-bit command word, or a
stream code. -/
def decodeTableWord (nbits w : Nat) : Option Instr :=
  if nbits = 80 then (decodeCommand (BitVec.ofNat 80 w)).toOption
  else
    match decodeCode (tableCodeBits nbits w).1 (tableCodeBits nbits w).2 with
    | .ok (c, _) => some c.toInstr
    | .error _ => none

end Sys2Proof
end

