-- ==== Sys2Proof/Config.lean ====
section
/-! DEFINITION. The free values: what the spec leaves unspecified is read from these constants, which have no body,
so no proof can know them (notes/assumptions/3.md). The first argument is the step's draw number
(`State.draws`), the second says which register or array of the step the value is for. -/

namespace Sys2Proof

/-- A free 64-bit pattern: an unspecified register is this, cut to its width (R280, R222, R56). DESIGN CHOICE, safe. -/
opaque Config.freeBits : Nat → Nat → BitVec 64

/-- A free array: any finite list of indices with patterns (R280: arrays, output bytes and `dec.outq` after a fault).
DESIGN CHOICE, safe. -/
opaque Config.freeCells : Nat → Nat → List (Nat × BitVec 64)

end Sys2Proof
end

