-- ==== Sys2Proof/Machine/State.lean ====
section
/-! DEFINITION. The state of chimp-compress CORE (spec/10_state.md), the statuses and stops, and the state after
hardware reset (R56, R301). Counters are natural numbers, as spec/00_scope.md R14 allows; their widths are the
invariant `State.RegistersFit` of Sys2Proof/Safety.lean (notes/assumptions/7.md). -/

namespace Sys2Proof.Machine

/-- A byte space (R60): the bytes that differ from 0x00, by rising address (notes/assumptions/2.md). -/
abbrev Memory := List Host.Cell

/-- A window of 64-bit values: the slots that differ from 0, by rising number (R21, notes/assumptions/12.md). -/
abbrev Window := List (Nat × Value)

/-- An index table of global positions: the entries that differ from 0, by rising key (R37). -/
abbrev Table := List (Nat × Nat)

/-- A unit's sticky fault code (R27, R274). -/
inductive FaultCode where
  | none
  | outputOverrun
  | inputExhausted
  | malformedStream
deriving DecidableEq, Repr

/-- The statuses of a response (R112). -/
inductive Status where
  | ok
  | bufferTooSmall
  | bufferOverflow
  /-- Declared and never returned (R272). -/
  | encodingUnalignedBuffer
  /-- Declared and never returned (R272). -/
  | encodingUnsupportTypeWidth
  | outputOverrun
  | inputExhausted
  | malformedStream
  | illegalCommand
deriving DecidableEq, Repr

/-- Unit `BW`: the registers of R22 to R27 and its byte space `OUT` (R60). -/
structure Bw where
  /-- 32 bits (R22). -/
  cap : Nat
  /-- The accumulator (R23). -/
  acc : BitVec 8
  /-- 4 bits (R24). -/
  free : Nat
  /-- 32 bits (R25). -/
  nbytes : Nat
  /-- 64 bits (R26). -/
  total : Nat
  cfg : Bool
  fault : FaultCode
  out : Memory
deriving DecidableEq, Repr

/-- Unit `BR`: the registers of R28 to R31 and its byte space `IN` (R60). -/
structure Br where
  /-- 32 bits (R28). -/
  len : Nat
  /-- 64 bits (R29). -/
  pos : Nat
  /-- The lookahead (R30): the bytes of `IN` the reader fetched before the host changed them, as it still sees them.
  Empty while the host leaves `IN` alone (R312, notes/assumptions/9.md). -/
  held : List Host.Cell
  cfg : Bool
  fault : FaultCode
  inp : Memory
deriving DecidableEq, Repr

/-- Unit `CMP`: the registers of R32 to R40 and its contained `BW`, whose space is `cmp.OUT`. -/
structure Cmp where
  /-- 5 bits (R32). -/
  L : Nat
  first : Bool
  win : Window
  /-- `L` bits (R35). -/
  cur : Nat
  /-- 32 bits (R36). -/
  gidx : Nat
  tab : Table
  /-- 7 bits: a bucket value or 65 (R38). -/
  slz : Nat
  /-- 64 bits (R39). -/
  size : Nat
  closed : Bool
  cfg : Bool
  fault : FaultCode
  bw : Bw
deriving DecidableEq, Repr

/-- Unit `DEC`: the registers of R41 to R43 and R53 and its contained `BR`, whose space is `dec.IN`. -/
structure Dec where
  /-- 5 bits (R41). -/
  L : Nat
  sv : Value
  /-- 7 bits: a bucket value or 65 (R41). -/
  slz : Nat
  /-- 7 bits (R41). -/
  stz : Nat
  win : Window
  /-- `L` bits (R41). -/
  cur : Nat
  first : Bool
  eos : Bool
  /-- 32 bits (R41). -/
  budget : Nat
  /-- 32 bits (R43). -/
  cnt : Nat
  /-- 32 bits (R43). -/
  emitted : Nat
  /-- What `DEC_GET_VALUES` has delivered (R53). That the host's taking of values removes none of them is the model's
  choice (DESIGN CHOICE, notes/assumptions/20.md). -/
  outq : List Value
  cfg : Bool
  fault : FaultCode
  br : Br
deriving DecidableEq, Repr

/-- Unit `FRM`: its contained units (R49) and its byte spaces `SRC` and `DST` (R60). It has no `cfg` and no `fault`
(R254). -/
structure Framer where
  cmp : Cmp
  dec : Dec
  src : Memory
  dst : Memory
deriving DecidableEq, Repr

/-- A response (R50, R111). -/
structure Resp where
  status : Status
  data : BitVec 64
deriving DecidableEq, Repr

/-- The response registers, one per unit (R50), and the answer to a reserved `op` that names no unit
(notes/assumptions/8.md). -/
structure Responses where
  bw : Resp
  br : Resp
  cmp : Resp
  dec : Resp
  frm : Resp
  other : Resp
deriving DecidableEq, Repr

/-- The five units (R2). -/
inductive UnitId where
  | bw
  | br
  | cmp
  | dec
  | frm
deriving DecidableEq, Repr

/-- The byte spaces of R60. -/
inductive Space where
  | out
  | inp
  | cmpOut
  | decIn
  | src
  | dst
deriving DecidableEq, Repr

/-- What the host does next (R285, R300, R304 to R306; notes/assumptions/4.md). -/
inductive Event where
  /-- Issue a command word (R108). -/
  | command (w : CommandWord)
  /-- Place bytes in a byte space, lowest address first (R60, R78). -/
  | fill (space : Space) (base : BitVec 32) (bytes : List Byte)
  /-- Power-cycle the hardware (R300, R301). -/
  | hardwareReset
  /-- Let the decompressor take the one code at its cursor, without a command around it: the value step of R211 on its
  own, the model's way to run a stream code as an instruction (notes/assumptions/5.md). -/
  | code
deriving DecidableEq, Repr

/-- The state of the machine: the five units, the response registers and the model's own two fields. -/
structure State where
  bw : Bw
  br : Br
  cmp : Cmp
  dec : Dec
  frm : Framer
  resp : Responses
  /-- The host's events not yet taken, the next one first (the model's own; notes/assumptions/4.md). -/
  inbox : List Event
  /-- How many steps have been taken: the index of the next free values (the model's own; notes/assumptions/3.md). -/
  draws : Nat
deriving DecidableEq, Repr

/-- Why the machine stops. -/
inductive Fault where
  /-- Raised by the host port for a fill that runs past the 32-bit addresses of a byte space (R60): such an address
  does not exist. Safe: the model stops where the spec gives no effect. -/
  | noSuchAddress
deriving DecidableEq, Repr

/-- Why an instruction has no meaning. -/
inductive Refusal where
  /-- Raised by an arm of `exec` whose instruction has no meaning yet; no arm of this model does. Safe. -/
  | notModelled (mnemonic : String)
deriving DecidableEq, Repr

/-- A `BW` after hardware reset: `cfg` and `fault` are the spec's (R301), the other values the model's
(notes/assumptions/1.md). -/
def Bw.reset : Bw :=
  { cap := 0, acc := 0, free := 0, nbytes := 0, total := 0, cfg := false, fault := .none, out := [] }

/-- A `BR` after hardware reset (R301, notes/assumptions/1.md). -/
def Br.reset : Br :=
  { len := 0, pos := 0, held := [], cfg := false, fault := .none, inp := [] }

/-- A `CMP` after hardware reset (R301, notes/assumptions/1.md). -/
def Cmp.reset : Cmp :=
  { L := 0, first := false, win := [], cur := 0, gidx := 0, tab := [], slz := 0, size := 0, closed := false,
    cfg := false, fault := .none, bw := .reset }

/-- A `DEC` after hardware reset (R301, notes/assumptions/1.md). -/
def Dec.reset : Dec :=
  { L := 0, sv := 0, slz := 0, stz := 0, win := [], cur := 0, first := false, eos := false, budget := 0, cnt := 0,
    emitted := 0, outq := [], cfg := false, fault := .none, br := .reset }

/-- A `FRM` after hardware reset (R301, notes/assumptions/1.md). -/
def Framer.reset : Framer := { cmp := .reset, dec := .reset, src := [], dst := [] }

/-- The response registers after hardware reset (R301, notes/assumptions/1.md). -/
def Responses.reset : Responses :=
  { bw := ⟨.ok, 0⟩, br := ⟨.ok, 0⟩, cmp := ⟨.ok, 0⟩, dec := ⟨.ok, 0⟩, frm := ⟨.ok, 0⟩, other := ⟨.ok, 0⟩ }

/-- The machine after hardware reset (R56, R301): idle, every unit unconstructed and not faulted. -/
def State.reset : State :=
  { bw := .reset, br := .reset, cmp := .reset, dec := .reset, frm := .reset, resp := .reset, inbox := [], draws := 0 }

end Sys2Proof.Machine
end

