-- ==== Sys2Proof/Machine/Ops.lean ====
section
/-! DEFINITION. The named operations over memories, arrays and registers, and the two ways a command ends without its
effect: raising a fault (spec/60_exceptions.md R280) and refusing (R276). -/

namespace Sys2Proof.Machine

/-! ### Sparse arrays: byte spaces, windows and tables -/

/-- The entry at index `a`; an index not listed reads as `d`. -/
def cellRead {α : Type} (d : α) : List (Nat × α) → Nat → α
  | [], _ => d
  | (k, v) :: l, a => if k = a then v else cellRead d l a

/-- The array with `x` at index `a`, kept in rising order without entries equal to `d`. -/
def cellWrite {α : Type} [DecidableEq α] (d : α) : List (Nat × α) → Nat → α → List (Nat × α)
  | [], a, x => if x = d then [] else [(a, x)]
  | (k, v) :: l, a, x =>
    if a < k then (if x = d then (k, v) :: l else (a, x) :: (k, v) :: l)
    else if a = k then (if x = d then l else (a, x) :: l)
    else (k, v) :: cellWrite d l a x

/-- The canonical form: indices strictly rising, no entry equal to `d`. -/
def cellsWf {α : Type} [DecidableEq α] (d : α) : List (Nat × α) → Bool
  | [] => true
  | (k, v) :: l => decide (v ≠ d) && l.all (fun c => decide (k < c.1)) && cellsWf d l

/-- The canonical array holding the listed entries whose index is below `bound`, a later entry winning. -/
def cellsOf {α : Type} [DecidableEq α] (d : α) (bound : Nat) (cells : List (Nat × α)) : List (Nat × α) :=
  cells.foldl (fun l c => if c.1 < bound then cellWrite d l c.1 c.2 else l) []

/-- The byte at an address (R60); a byte nobody has written reads 0x00 (notes/assumptions/2.md). -/
def Memory.read (m : Memory) (a : Nat) : Byte := cellRead 0 m a

/-- Store one byte (R60). -/
def Memory.write (m : Memory) (a : Nat) (b : Byte) : Memory := cellWrite 0 m a b

/-- The canonical form of a byte space. -/
def Memory.wf (m : Memory) : Bool := cellsWf 0 m

/-- `MemRead(S, a, n)` (R18). -/
def Memory.readBytes (m : Memory) (a n : Nat) : List Byte := (List.range n).map (fun i => m.read (a + i))

/-- `MemWrite(S, a, n, bytes)` (R18). -/
def Memory.writeBytes (m : Memory) (a : Nat) : List Byte → Memory
  | [] => m
  | b :: bs => (m.write a b).writeBytes (a + 1) bs

/-- The bytes `from .. to-1` moved down to address 0, nothing else (the frame's payload as `frm.dec.IN`, R255). -/
def Memory.slice (m : Memory) (lo hi : Nat) : Memory :=
  (m.filter (fun c => decide (lo ≤ c.1) && decide (c.1 < hi))).map (fun c => (c.1 - lo, c.2))

/-- Any bytes below address `hi`, as the free values say; nothing at or beyond it (R280, R253, R256). -/
def Memory.scramble (m : Memory) (n k hi : Nat) : Memory :=
  (Config.freeCells n k).foldl (fun m c => if c.1 < hi then m.write c.1 (c.2.setWidth 8) else m) m

/-- Stream bit `k` of a byte space: bit `7 - k mod 8` of byte `k div 8` (R62). -/
def Memory.bit (m : Memory) (k : Nat) : Bool := (m.read (k / 8)).getLsbD (7 - k % 8)

/-- `win[i]` (R18). -/
def Window.read (w : Window) (i : Nat) : Value := cellRead 0 w i

/-- `win[i] <- v` (R18). -/
def Window.write (w : Window) (i : Nat) (v : Value) : Window := cellWrite 0 w i v

/-- The canonical form of a window. -/
def Window.wf (w : Window) : Bool := cellsWf 0 w

/-- `tab[k]` (R18). -/
def Table.read (t : Table) (k : Nat) : Nat := cellRead 0 t k

/-- `tab[k] <- e` (R18). -/
def Table.write (t : Table) (k e : Nat) : Table := cellWrite 0 t k e

/-- The canonical form of an index table. -/
def Table.wf (t : Table) : Bool := cellsWf 0 t

/-! ### Statuses and responses -/

/-- The status that reports a fault (R274). -/
def FaultCode.status : FaultCode → Status
  | .none => .ok
  | .outputOverrun => .outputOverrun
  | .inputExhausted => .inputExhausted
  | .malformedStream => .malformedStream

/-- The number of a status (R112). -/
def Status.code : Status → BitVec 4
  | .ok => 0
  | .bufferTooSmall => 1
  | .bufferOverflow => 2
  | .encodingUnalignedBuffer => 3
  | .encodingUnsupportTypeWidth => 4
  | .outputOverrun => 8
  | .inputExhausted => 9
  | .malformedStream => 10
  | .illegalCommand => 11

/-- Write one unit's response register; a command of no unit answers in `other` (R50, notes/assumptions/8.md). -/
def Responses.write (rs : Responses) (u : Option UnitId) (r : Resp) : Responses :=
  match u with
  | some .bw => { rs with bw := r }
  | some .br => { rs with br := r }
  | some .cmp => { rs with cmp := r }
  | some .dec => { rs with dec := r }
  | some .frm => { rs with frm := r }
  | none => { rs with other := r }

/-- End a command of unit `u` with a response (R18 `return`, R50). -/
def State.respond (s : State) (u : UnitId) (status : Status) (data : BitVec 64) : State :=
  { s with resp := s.resp.write (some u) ⟨status, data⟩ }

/-! ### Free registers (R280, R301) -/

/-- A free number of `width` bits. -/
def freeNat (n k width : Nat) : Nat := (Config.freeBits n k).toNat % 2 ^ width

/-- A free bit. -/
def freeBool (n k : Nat) : Bool := (Config.freeBits n k).getLsbD 0

/-- A free window of `2^L` slots. -/
def freeWindow (n k L : Nat) : Window := cellsOf 0 (windowSize L) (Config.freeCells n k)

/-- A free table of `2^(L + 7)` entries of 32 bits. -/
def freeTable (n k L : Nat) : Table :=
  cellsOf 0 (tableSize L) ((Config.freeCells n k).map (fun c => (c.1, c.2.toNat % 2 ^ 32)))

/-- A `BW` with every register but `cfg` and `fault` unspecified; its space is `out`. Its capacity and its byte count
have `capBits` bits: 32 (R22, R25), and 33 for the writer inside `FRM` (R251). -/
def Bw.unspecified (n k capBits : Nat) (cfg : Bool) (fault : FaultCode) (out : Memory) : Bw :=
  { cap := freeNat n k capBits, acc := (Config.freeBits n (k + 1)).setWidth 8, free := freeNat n (k + 2) 4,
    nbytes := freeNat n (k + 3) capBits, total := freeNat n (k + 4) 64, cfg := cfg, fault := fault, out := out }

/-- A `BR` with every register but `cfg` and `fault` unspecified; its space is `inp`. Any bytes may be held. -/
def Br.unspecified (n k : Nat) (cfg : Bool) (fault : FaultCode) (inp : Memory) : Br :=
  { len := freeNat n k 32, pos := freeNat n (k + 1) 64,
    held := (Config.freeCells n (k + 2)).map (fun c => (c.1, c.2.setWidth 8)), cfg := cfg, fault := fault, inp := inp }

/-- A `CMP` with every register but `cfg` and `fault` unspecified; its space is `out`, its writer's capacity has
`capBits` bits. -/
def Cmp.unspecified (n k capBits : Nat) (cfg : Bool) (fault : FaultCode) (out : Memory) : Cmp :=
  let L := freeNat n k 5
  { L := L, first := freeBool n (k + 1), win := freeWindow n (k + 2) L, cur := freeNat n (k + 3) L,
    gidx := freeNat n (k + 4) 32, tab := freeTable n (k + 5) L, slz := freeNat n (k + 6) 7,
    size := freeNat n (k + 7) 64, closed := freeBool n (k + 8), cfg := cfg, fault := fault,
    bw := Bw.unspecified n (k + 9) capBits cfg fault out }

/-- A `DEC` with every register but `cfg` and `fault` unspecified; its space is `inp`. -/
def Dec.unspecified (n k : Nat) (cfg : Bool) (fault : FaultCode) (inp : Memory) : Dec :=
  let L := freeNat n k 5
  { L := L, sv := Config.freeBits n (k + 1), slz := freeNat n (k + 2) 7, stz := freeNat n (k + 3) 7,
    win := freeWindow n (k + 4) L, cur := freeNat n (k + 5) L, first := freeBool n (k + 6), eos := freeBool n (k + 7),
    budget := freeNat n (k + 8) 32, cnt := freeNat n (k + 9) 32, emitted := freeNat n (k + 10) 32,
    outq := (Config.freeCells n (k + 11)).map Prod.snd, cfg := cfg, fault := fault,
    br := Br.unspecified n (k + 12) cfg fault inp }

/-! ### Raising a fault and refusing a command -/

/-- `BW` after a fault: `fault` written, every other register and every byte of `OUT` inside the capacity unspecified,
nothing outside it written (R280 (2), (4)). `cfg` stays (notes/assumptions/6.md). -/
def Bw.faulted (w : Bw) (n : Nat) (f : FaultCode) : Bw :=
  Bw.unspecified n 100 32 w.cfg f (w.out.scramble n 99 w.cap)

/-- `BR` after a fault: `IN` is unchanged (R158, R280). -/
def Br.faulted (r : Br) (n : Nat) (f : FaultCode) : Br :=
  Br.unspecified n 100 r.cfg f r.inp

/-- `CMP` after a fault; the contained writer's fault is the container's (R280 (2), (4)). -/
def Cmp.faulted (c : Cmp) (n : Nat) (f : FaultCode) : Cmp :=
  Cmp.unspecified n 100 32 c.cfg f (c.bw.out.scramble n 99 c.bw.cap)

/-- `DEC` after a fault; `dec.IN` is unchanged and `dec.outq` unspecified (R280 (2), (4)). -/
def Dec.faulted (d : Dec) (n : Nat) (f : FaultCode) : Dec :=
  Dec.unspecified n 100 d.cfg f d.br.inp

/-- The fault entry (R280): the unit's `fault` register is written, the rest of the unit becomes unspecified, the
response is `(code, 0)`, and no other unit changes. `FRM` keeps no fault register: only its response is written, and
what it leaves in `DST` and in its contained units is said by its commands (R254). The return from it is the unit's
`*_INIT` (R282). -/
def State.raise (s : State) (u : UnitId) (f : FaultCode) : State :=
  match u with
  | .bw => { s with bw := s.bw.faulted s.draws f }.respond .bw f.status 0
  | .br => { s with br := s.br.faulted s.draws f }.respond .br f.status 0
  | .cmp => { s with cmp := s.cmp.faulted s.draws f }.respond .cmp f.status 0
  | .dec => { s with dec := s.dec.faulted s.draws f }.respond .dec f.status 0
  | .frm => s.respond .frm f.status 0

/-- The refusal (R276): the response is `(ILLEGAL_COMMAND, 0)` and nothing else changes. -/
def State.refuse (s : State) (u : UnitId) : State := s.respond u .illegalCommand 0

/-- The unit that `op[7:4]` names, if any (R108). -/
def opUnit (op : BitVec 8) : Option UnitId :=
  match op.toNat / 16 with
  | 1 => some .bw
  | 2 => some .br
  | 3 => some .cmp
  | 4 => some .dec
  | 5 => some .frm
  | _ => none

/-- The refusal of a reserved `op` (R110, R276 case 1): the response register of the unit that `op[7:4]` names is
written, `other` where it names none (notes/assumptions/8.md). -/
def State.refuseOp (s : State) (op : BitVec 8) : State :=
  { s with resp := s.resp.write (opUnit op) ⟨.illegalCommand, 0⟩ }

end Sys2Proof.Machine
end

