-- ==== Sys2Proof/Machine/Flags.lean ====
section
/-! DEFINITION. The lifecycle flags (spec/10_state.md R45, R46) as the acceptance tests read them (R276 cases 2, 3, 4
and 7). The hardware has no arithmetic condition codes (R45). -/

namespace Sys2Proof.Machine

/-- `bw.cfg = 1` and `bw.fault = 0` (R138). -/
def Bw.ready (w : Bw) : Bool := w.cfg && decide (w.fault = .none)

/-- `br.cfg = 1` and `br.fault = 0` (R156). -/
def Br.ready (r : Br) : Bool := r.cfg && decide (r.fault = .none)

/-- `cmp.cfg = 1` and `cmp.fault = 0` (R174). -/
def Cmp.ready (c : Cmp) : Bool := c.cfg && decide (c.fault = .none)

/-- `dec.cfg = 1` and `dec.fault = 0` (R218). -/
def Dec.ready (d : Dec) : Bool := d.cfg && decide (d.fault = .none)

/-- The stream cannot take another value (R176). -/
def Cmp.atLimit (c : Cmp) : Bool := !c.first && decide (lastPosition ≤ c.gidx)

/-- The compressor takes a value or a close: ready, not closed, not at the length limit (R174, R176). -/
def Cmp.accepts (c : Cmp) : Bool := c.ready && !c.closed && !c.atLimit

/-- The lifecycle states of a unit (R46). -/
inductive Phase where
  | unconfigured
  | active
  | done
  | faulted
deriving DecidableEq, Repr

/-- The lifecycle state from the flags: faulted before done (R46). -/
def phaseOf (cfg : Bool) (fault : FaultCode) (ended : Bool) : Phase :=
  if cfg = false then .unconfigured
  else if fault ≠ .none then .faulted
  else if ended then .done
  else .active

/-- R46 for `BW`, which has no end. -/
def Bw.phase (w : Bw) : Phase := phaseOf w.cfg w.fault false

/-- R46 for `BR`, which has no end. -/
def Br.phase (r : Br) : Phase := phaseOf r.cfg r.fault false

/-- R46 for `CMP`: done when closed. -/
def Cmp.phase (c : Cmp) : Phase := phaseOf c.cfg c.fault c.closed

/-- R46 for `DEC`: done at the end of the stream. -/
def Dec.phase (d : Dec) : Phase := phaseOf d.cfg d.fault d.eos

end Sys2Proof.Machine
end

