-- ==== Sys2Proof/Machine/Operands.lean ====
section
/-! DEFINITION. The operand ranges of spec/30_encoding.md R109 that the commands test (spec/60_exceptions.md R276 cases
5, 6 and 8) and the operands' numbers. -/

namespace Sys2Proof.Machine

/-- `len <= 32` (R134, R153). -/
def lenFits32 (len : BitVec 8) : Bool := decide (len.toNat ≤ 32)

/-- `len <= 64` (R135, R154). -/
def lenFits64 (len : BitVec 8) : Bool := decide (len.toNat ≤ 64)

/-- `L <= 21` (R13). -/
def windowFits (l : BitVec 8) : Bool := decide (l.toNat ≤ maxL)

/-- `source_len mod 8 = 0` (R252). -/
def wholeValues (sourceLen : BitVec 32) : Bool := decide (sourceLen.toNat % 8 = 0)

end Sys2Proof.Machine
end

