-- ==== Sys2Proof/Machine/Reader.lean ====
section
/-! DEFINITION. Unit `BR`, the bit-stream reader (spec/41_bitreader.md): the primitive `take` and the meanings of
`BR_INIT`, `BR_READ_BIT`, `BR_READ_BITS`, `BR_READ_BITS64` and `BR_ALIGN`. -/

namespace Sys2Proof.Machine

/-- A byte of `IN` as the reader sees it: one it holds in the lookahead, else the one in the space (R151, R80). -/
def Br.byteAt (r : Br) (a : Nat) : Byte := (r.held.lookup a).getD (r.inp.read a)

/-- Stream bit `k` as the reader sees it (R62). -/
def Br.bitAt (r : Br) (k : Nat) : Bool := (r.byteAt (k / 8)).getLsbD (7 - k % 8)

/-- The `n` stream bits from cursor `k` on, first bit first (R63). -/
def Br.bitsFrom (r : Br) (k : Nat) : Nat → Bits
  | 0 => []
  | n + 1 => r.bitAt k :: r.bitsFrom (k + 1) n

/-- `take(n)` (R151): the next `n` bits as a number and the cursor past them; nothing where the buffer ends before. -/
def Br.take (r : Br) (n : Nat) : Except FaultCode (Nat × Br) :=
  if 8 * r.len < r.pos + n then .error .inputExhausted
  else .ok (bitsNat (r.bitsFrom r.pos n), { r with pos := r.pos + n })

/-- The registers after construction, the lookahead emptied; `IN` is untouched (R150, R302). -/
def Br.init (r : Br) (len : Nat) : Br :=
  { r with len := len, pos := 0, held := [], cfg := true, fault := .none }

/-- A reading command: refused unless the reader is ready (R156); else the response is the bits read, or the end-of-input
fault is raised (R151, R158). -/
def State.readBits (s : State) (n : Nat) : State :=
  if s.br.ready then
    match s.br.take n with
    | .ok (v, r) => { s with br := r }.respond .br .ok (BitVec.ofNat 64 v)
    | .error f => s.raise .br f
  else s.refuse .br

/-- `BR_INIT len` (R150), accepted in every state. -/
def execBrInit (len : BitVec 32) (s : State) : Host.Outcome State Fault Refusal :=
  .next ({ s with br := s.br.init len.toNat }.respond .br .ok 0)

/-- `BR_READ_BIT` (R152). -/
def execBrReadBit (s : State) : Host.Outcome State Fault Refusal :=
  .next (s.readBits 1)

/-- `BR_READ_BITS len` (R153). -/
def execBrReadBits (len : BitVec 8) (s : State) : Host.Outcome State Fault Refusal :=
  .next (if lenFits32 len then s.readBits len.toNat else s.refuse .br)

/-- `BR_READ_BITS64 len` (R154). -/
def execBrReadBits64 (len : BitVec 8) (s : State) : Host.Outcome State Fault Refusal :=
  .next (if lenFits64 len then s.readBits len.toNat else s.refuse .br)

/-- `BR_ALIGN` (R155): never faults. -/
def execBrAlign (s : State) : Host.Outcome State Fault Refusal :=
  .next
    (if s.br.ready then
      { s with br := { s.br with pos := s.br.pos + padBits s.br.pos } }.respond .br .ok
        (BitVec.ofNat 64 (padBits s.br.pos))
    else s.refuse .br)

end Sys2Proof.Machine
end

