-- ==== Sys2Proof/Machine/Decompressor.lean ====
section
/-! DEFINITION. Unit `DEC`, the XOR-delta decompressor (spec/43_decompressor.md): the value step of R211 as the fetch of
one code at the cursor and the effect of that code, the meanings of `DEC_INIT`, `DEC_NEXT`, `DEC_READ_VALUE` and
`DEC_GET_VALUES`. The argument `n` of the value step is the draw number for the one value that the spec leaves
unspecified, `dec.sv` after the end of the stream (R222, notes/assumptions/10.md). -/

namespace Sys2Proof.Machine

/-- `push(v)` (R211, R219). -/
def Dec.push (d : Dec) (v : Value) : Dec :=
  let cur := (d.cur + 1) % windowSize d.L
  { d with sv := v, cur := cur, win := d.win.write cur v, cnt := min (d.cnt + 1) (windowSize d.L) }

/-- The end of the stream: `dec.eos` is set and `dec.sv` is unspecified from here on (R222). -/
def Dec.finish (d : Dec) (n : Nat) : Dec := { d with eos := true, sv := Config.freeBits n 0 }

/-- The sentinel ends the stream and is not pushed; any other value is (R214, R219). -/
def Dec.deliver (d : Dec) (n : Nat) (v : Value) : Dec :=
  if v = sentinel then d.finish n else d.push v

/-- The effect of `RAW64 v` (R212). -/
def Dec.takeRaw (d : Dec) (n : Nat) (v : Value) : Dec :=
  let d := { d with first := false, sv := v, win := d.win.write 0 v, cnt := 1 }
  if v = sentinel then d.finish n else d

/-- The effect of `REP slot` (R217). -/
def Dec.takeRep (d : Dec) (slot : Slot) : Except FaultCode Dec :=
  if d.cnt ≤ slot.toNat then .error .malformedStream
  else .ok ({ d with slz := unset }.push (d.win.read slot.toNat))

/-- The effect of `IDX slot, lzc, sig, payload` (R216). -/
def Dec.takeIdx (d : Dec) (n : Nat) (slot : Slot) (lzc : BitVec 3) (sig : BitVec 6) (payload : Value) :
    Except FaultCode Dec :=
  if 64 < sigWidth sig + bucket lzc then .error .malformedStream
  else if d.cnt ≤ slot.toNat then .error .malformedStream
  else
    let tz := 64 - sigWidth sig - bucket lzc
    .ok ({ d with slz := unset, stz := tz }.deliver n (d.win.read slot.toNat ^^^ (payload <<< tz)))

/-- The effect of `SAME payload` (R215). -/
def Dec.takeSame (d : Dec) (n : Nat) (payload : Value) : Except FaultCode Dec :=
  if d.slz = unset then .error .malformedStream else .ok (d.deliver n (d.sv ^^^ payload))

/-- The effect of `NEW lzc, payload` (R214). -/
def Dec.takeNew (d : Dec) (n : Nat) (lzc : BitVec 3) (payload : Value) : Dec :=
  { d with slz := bucket lzc }.deliver n (d.sv ^^^ payload)

/-- `TERM` is never read and changes nothing (R97, R222). -/
def Dec.takeTerm (d : Dec) (_pad : BitVec 3) : Dec := d

/-- The effect of a code on the decompressor (R212 to R217). -/
def Dec.takeCode (d : Dec) (n : Nat) : Code → Except FaultCode Dec
  | .raw64 v => .ok (d.takeRaw n v)
  | .rep slot => d.takeRep slot
  | .idx slot lzc sig payload => d.takeIdx n slot lzc sig payload
  | .same payload => d.takeSame n payload
  | .new lzc payload => .ok (d.takeNew n lzc payload)
  | .term pad => .ok (d.takeTerm pad)

/-- What the format of the code at the cursor depends on (R99). -/
def Dec.codeCtx (d : Dec) : CodeCtx :=
  { L := d.L, slz := d.slz, cnt := d.cnt, pos := d.br.pos,
    place := if d.eos then .afterSentinel else if d.first then .first else .later }

/-- The fault that a decoding error is (R103, R274). -/
def codeFault : CodeError → FaultCode
  | .exhausted => .inputExhausted
  | .sameUnset => .malformedStream
  | .slotEmpty => .malformedStream
  | .sigTooWide => .malformedStream
  | .notTerm => .malformedStream

/-- The bits at the cursor that a code can need: at most `L + 75` of them (R323), and none past the buffer (R71). -/
def Dec.upcoming (d : Dec) : Bits := d.br.bitsFrom d.br.pos (min (d.L + 75) (8 * d.br.len - d.br.pos))

/-- The code at the cursor and its length in bits (R99, R211). After the end of the stream the cursor stands before
`TERM`, of which no bit is read (R222). -/
def Dec.fetch (d : Dec) : Except FaultCode (Code × Nat) :=
  if d.eos then .ok (.term (BitVec.ofNat 3 (padBits (d.br.pos + 1))), 0)
  else
    match decodeCode d.codeCtx d.upcoming with
    | .error e => .error (codeFault e)
    | .ok (code, rest) => .ok (code, d.upcoming.length - rest.length)

/-- The cursor moved past a code of `used` bits (R44). -/
def Dec.advance (d : Dec) (used : Nat) : Dec := { d with br := { d.br with pos := d.br.pos + used } }

/-- `next_value()` (R211): fetch the code at the cursor, move past it, take its effect. -/
def Dec.nextValue (d : Dec) (n : Nat) : Except FaultCode Dec :=
  match d.fetch with
  | .error f => .error f
  | .ok (code, used) => (d.advance used).takeCode n code

/-- The loop of `DEC_GET_VALUES` (R221) for at most `k` more values. It only appends to `dec.outq`, and nothing but a
construction empties it: the host copies the values and removes none (DESIGN CHOICE, notes/assumptions/20.md). -/
def Dec.deliverValues (n : Nat) : Nat → Dec → Except FaultCode Dec
  | 0, d => .ok d
  | k + 1, d =>
    match d.nextValue n with
    | .error f => .error f
    | .ok d =>
      if d.eos then .ok d
      else Dec.deliverValues n k { d with outq := d.outq ++ [d.sv], emitted := d.emitted + 1 }

/-- The body of `DEC_GET_VALUES` (R221): the budget is tested before each read. -/
def Dec.getValues (d : Dec) (n : Nat) : Except FaultCode Dec := Dec.deliverValues n (d.budget - d.emitted) d

/-- The registers after construction; `dec.IN` is untouched (R210, R302). -/
def Dec.init (d : Dec) (L len budget : Nat) : Dec :=
  { L := L, sv := 0, slz := unset, stz := 0, win := [], cur := 0, first := true, eos := false, budget := budget,
    cnt := 0, emitted := 0, outq := [], cfg := true, fault := .none, br := d.br.init len }

/-- A decoding command: refused unless the decompressor is ready (R218); else its body runs and `data` gives the
response, or the fault of its body is raised (R211). -/
def State.decompressorStep (s : State) (body : Except FaultCode Dec) (data : Dec → BitVec 64) : State :=
  if s.dec.ready then
    match body with
    | .ok d => { s with dec := d }.respond .dec .ok (data d)
    | .error f => s.raise .dec f
  else s.refuse .dec

/-- `DEC_INIT L, len, budget` (R210), accepted in every state; `L > 21` is refused and keeps the unit (R276 case 6). -/
def execDecInit (l : BitVec 8) (len budget : BitVec 32) (s : State) : Host.Outcome State Fault Refusal :=
  .next
    (if windowFits l then { s with dec := s.dec.init l.toNat len.toNat budget.toNat }.respond .dec .ok 0
    else s.refuse .dec)

/-- `DEC_NEXT` (R211). -/
def execDecNext (s : State) : Host.Outcome State Fault Refusal :=
  .next (s.decompressorStep (s.dec.nextValue s.draws) (fun _ => 0))

/-- `DEC_READ_VALUE` (R220). -/
def execDecReadValue (s : State) : Host.Outcome State Fault Refusal :=
  .next (s.decompressorStep (s.dec.nextValue s.draws) (fun d => if d.eos then endPattern else d.sv))

/-- `DEC_GET_VALUES` (R221): the response is the number of values this command delivered. -/
def execDecGetValues (s : State) : Host.Outcome State Fault Refusal :=
  .next (s.decompressorStep (s.dec.getValues s.draws) (fun d => BitVec.ofNat 64 (d.emitted - s.dec.emitted)))

end Sys2Proof.Machine
end

