-- ==== Sys2Proof/Machine/Codes.lean ====
section
/-! DEFINITION. The stream codes as instructions: what the decompressor does with a code it has met at its cursor
(spec/43_decompressor.md R212 to R217, R222). The cursor is moved past the code by the step (R44), not by the meaning.
The writing of the codes is part of the compressor's commands (notes/assumptions/5.md). -/

namespace Sys2Proof.Machine

/-- The decompressor after a code, or the fault the code raises (R280). -/
def State.afterCode (s : State) (result : Except FaultCode Dec) : State :=
  match result with
  | .ok d => { s with dec := d }
  | .error f => s.raise .dec f

/-- `RAW64` (R212). -/
def execRaw64 (value : Value) (s : State) : Host.Outcome State Fault Refusal :=
  .next (s.afterCode (.ok (s.dec.takeRaw s.draws value)))

/-- `REP` (R217). -/
def execRep (slot : Slot) (s : State) : Host.Outcome State Fault Refusal :=
  .next (s.afterCode (s.dec.takeRep slot))

/-- `IDX` (R216). -/
def execIdx (slot : Slot) (lzc : BitVec 3) (sig : BitVec 6) (payload : Value) (s : State) :
    Host.Outcome State Fault Refusal :=
  .next (s.afterCode (s.dec.takeIdx s.draws slot lzc sig payload))

/-- `SAME` (R215). -/
def execSame (payload : Value) (s : State) : Host.Outcome State Fault Refusal :=
  .next (s.afterCode (s.dec.takeSame s.draws payload))

/-- `NEW` (R214). -/
def execNew (lzc : BitVec 3) (payload : Value) (s : State) : Host.Outcome State Fault Refusal :=
  .next (s.afterCode (.ok (s.dec.takeNew s.draws lzc payload)))

/-- `TERM`: the decompressor never reads it (R97) and changes nothing before it (R222). -/
def execTerm (pad : BitVec 3) (s : State) : Host.Outcome State Fault Refusal :=
  .next (s.afterCode (.ok (s.dec.takeTerm pad)))

end Sys2Proof.Machine
end

