-- ==== Sys2Proof/Machine/Writer.lean ====
section
/-! DEFINITION. Unit `BW`, the bit-stream writer (spec/40_bitwriter.md): the primitive `emit` and the meanings of
`BW_INIT`, `BW_WRITE_BIT`, `BW_WRITE_BITS`, `BW_WRITE_BITS64`, `BW_ALIGN` and `BW_FLUSH`. -/

namespace Sys2Proof.Machine

/-- One turn of the loop of `emit` (R131): the bit enters the highest free slot of the accumulator; a full accumulator
is appended to `OUT`, unless the capacity is used up. -/
def Bw.pushBit (w : Bw) (b : Bool) : Except FaultCode Bw :=
  let free := w.free - 1
  let acc := w.acc ||| (if b then 1#8 <<< free else 0#8)
  if free = 0 then
    if w.cap ≤ w.nbytes then .error .outputOverrun
    else .ok { w with out := w.out.write w.nbytes acc, nbytes := w.nbytes + 1, acc := 0, free := 8, total := w.total + 1 }
  else .ok { w with acc := acc, free := free, total := w.total + 1 }

/-- `emit` of a bit string, first bit first (R131). -/
def Bw.emit (w : Bw) : Bits → Except FaultCode Bw
  | [] => .ok w
  | b :: bs =>
    match w.pushBit b with
    | .error f => .error f
    | .ok w => w.emit bs

/-- The registers after construction; `OUT` is not cleared (R130, R302). -/
def Bw.init (w : Bw) (cap : Nat) : Bw :=
  { w with cap := cap, nbytes := 0, acc := 0, free := 8, total := 0, cfg := true, fault := .none }

/-- A writing command: refused unless the writer is ready (R138); else the bits are emitted and the response is their
number, or the capacity fault is raised (R131, R140). -/
def State.writeBits (s : State) (bits : Bits) : State :=
  if s.bw.ready then
    match s.bw.emit bits with
    | .ok w => { s with bw := w }.respond .bw .ok (BitVec.ofNat 64 bits.length)
    | .error f => s.raise .bw f
  else s.refuse .bw

/-- `BW_INIT cap` (R130), accepted in every state. -/
def execBwInit (cap : BitVec 32) (s : State) : Host.Outcome State Fault Refusal :=
  .next ({ s with bw := s.bw.init cap.toNat }.respond .bw .ok 0)

/-- `BW_WRITE_BIT bit` (R132). -/
def execBwWriteBit (bit : BitVec 1) (s : State) : Host.Outcome State Fault Refusal :=
  .next (s.writeBits (natBits bit.toNat 1))

/-- `BW_WRITE_BITS len, value` (R134). -/
def execBwWriteBits (len : BitVec 8) (value : Value) (s : State) : Host.Outcome State Fault Refusal :=
  .next (if lenFits32 len then s.writeBits (natBits value.toNat len.toNat) else s.refuse .bw)

/-- `BW_WRITE_BITS64 len, value` (R135). -/
def execBwWriteBits64 (len : BitVec 8) (value : Value) (s : State) : Host.Outcome State Fault Refusal :=
  .next (if lenFits64 len then s.writeBits (natBits value.toNat len.toNat) else s.refuse .bw)

/-- `BW_ALIGN` (R136). -/
def execBwAlign (s : State) : Host.Outcome State Fault Refusal :=
  .next (s.writeBits (natBits 0 (padBits s.bw.total)))

/-- `BW_FLUSH` (R137): the same as `BW_ALIGN`. -/
def execBwFlush (s : State) : Host.Outcome State Fault Refusal :=
  .next (s.writeBits (natBits 0 (padBits s.bw.total)))

end Sys2Proof.Machine
end

