-- ==== Sys2Proof/Machine/Compressor.lean ====
section
/-! DEFINITION. Unit `CMP`, the XOR-delta compressor (spec/42_compressor.md): the value step of R197 and the meanings
of `CMP_INIT`, `CMP_ADD_U64`, `CMP_ADD_F64`, `CMP_CLOSE`, `CMP_GET_OUTPUT` and `CMP_GET_SIZE`. The value step picks the
code of the value, writes the code's bits (`encodeCode`) and updates the window. -/

namespace Sys2Proof.Machine

/-- The reference value a code is made against (R177). -/
structure Candidate where
  /-- Found through the index table and validated (R177). -/
  indexed : Bool
  /-- `previousIndex`, the window slot. -/
  slot : Nat
  /-- `xorValue`. -/
  delta : Value
deriving DecidableEq, Repr

/-- Candidate selection (R175, R177): the slot the index table names if it is still in the window and agrees with the
value in more than `THR` low bits, else the slot of the value stored last. -/
def Cmp.candidate (c : Cmp) (v : Value) : Candidate :=
  let ci := c.tab.read (keyOf c.L v)
  let tx := v ^^^ c.win.read (ci % windowSize c.L)
  let last := c.gidx % windowSize c.L
  if c.gidx - ci < windowSize c.L ∧ threshold c.L < ctz64 tx then
    { indexed := true, slot := ci % windowSize c.L, delta := tx }
  else { indexed := false, slot := last, delta := c.win.read last ^^^ v }

/-- The code of a value (R173, R180 to R185). -/
def Cmp.codeOf (c : Cmp) (v : Value) : Code :=
  if c.first then .raw64 v
  else
    let cand := c.candidate v
    let slot := BitVec.ofNat 21 cand.slot
    if cand.delta = 0 then .rep slot
    else
      let lzc := bucketIndex (clz64 cand.delta)
      let lz := bucket lzc
      let tz := ctz64 cand.delta
      if cand.indexed then .idx slot lzc (BitVec.ofNat 6 (64 - lz - tz)) (cand.delta >>> tz)
      else if lz = c.slz then .same cand.delta
      else .new lzc cand.delta

/-- What the format of the compressor's next code depends on (R99). -/
def Cmp.codeCtx (c : Cmp) : CodeCtx :=
  { L := c.L, slz := c.slz, cnt := min (c.gidx + 1) (windowSize c.L), pos := c.bw.total,
    place := if c.first then .first else .later }

/-- The stored leading-zero bucket after a code (R181, R183, R184, R185, R189). -/
def slzAfter (slz : Nat) : Code → Nat
  | .raw64 _ => slz
  | .rep _ => unset
  | .idx _ _ _ _ => unset
  | .same _ => slz
  | .new lzc _ => bucket lzc
  | .term _ => slz

/-- The window, position and table after a value: the first one goes to slot 0 and position 0 (R173), a later one to
the next slot and position (R187). -/
def Cmp.store (c : Cmp) (v : Value) : Cmp :=
  if c.first then
    { c with first := false, win := c.win.write 0 v, tab := c.tab.write (keyOf c.L v) 0 }
  else
    let cur := (c.cur + 1) % windowSize c.L
    { c with cur := cur, win := c.win.write cur v, gidx := c.gidx + 1, tab := c.tab.write (keyOf c.L v) (c.gidx + 1) }

/-- `compress_value(v)` (R197). -/
def Cmp.compressValue (c : Cmp) (v : Value) : Except FaultCode Cmp :=
  let code := c.codeOf v
  let bits := encodeCode c.codeCtx code
  match c.bw.emit bits with
  | .error f => .error f
  | .ok w => .ok ({ c with bw := w, size := c.size + bits.length, slz := slzAfter c.slz code }.store v)

/-- Several values in order (R304). -/
def Cmp.addAll (c : Cmp) : List Value → Except FaultCode Cmp
  | [] => .ok c
  | v :: vs =>
    match c.compressValue v with
    | .error f => .error f
    | .ok c => c.addAll vs

/-- The `TERM` code: the closing zero bit and the padding that the flush after it adds (R97, R191). -/
def Cmp.trailer (c : Cmp) : Bits := encodeCode c.codeCtx (.term (BitVec.ofNat 3 (padBits (c.bw.total + 1))))

/-- The body of `CMP_CLOSE` (R191): the sentinel through the value step, the zero bit, the flush. -/
def Cmp.close (c : Cmp) : Except FaultCode Cmp :=
  match c.compressValue sentinel with
  | .error f => .error f
  | .ok c =>
    match c.bw.emit c.trailer with
    | .error f => .error f
    | .ok w => .ok { c with bw := w, closed := true }

/-- The registers after construction; `cmp.OUT` is not cleared (R170, R302). -/
def Cmp.init (c : Cmp) (L cap : Nat) : Cmp :=
  { L := L, first := true, win := [], cur := 0, gidx := 0, tab := [], slz := unset, size := 0, closed := false,
    cfg := true, fault := .none, bw := c.bw.init cap }

/-- A command that changes the stream: refused unless the compressor accepts it (R174, R176); else its body runs, or
the fault of its body is raised (R171). -/
def State.compressorStep (s : State) (body : Except FaultCode Cmp) : State :=
  if s.cmp.accepts then
    match body with
    | .ok c => { s with cmp := c }.respond .cmp .ok 0
    | .error f => s.raise .cmp f
  else s.refuse .cmp

/-- `CMP_INIT L, cap` (R170), accepted in every state; `L > 21` is refused and keeps the unit (R276 case 6). -/
def execCmpInit (l : BitVec 8) (cap : BitVec 32) (s : State) : Host.Outcome State Fault Refusal :=
  .next
    (if windowFits l then { s with cmp := s.cmp.init l.toNat cap.toNat }.respond .cmp .ok 0
    else s.refuse .cmp)

/-- `CMP_ADD_U64 value` (R171). -/
def execCmpAddU64 (value : Value) (s : State) : Host.Outcome State Fault Refusal :=
  .next (s.compressorStep (s.cmp.compressValue value))

/-- `CMP_ADD_F64 value` (R172): the pattern of the double is the value. -/
def execCmpAddF64 (value : Value) (s : State) : Host.Outcome State Fault Refusal :=
  .next (s.compressorStep (s.cmp.compressValue value))

/-- `CMP_CLOSE` (R191, R192). -/
def execCmpClose (s : State) : Host.Outcome State Fault Refusal :=
  .next (s.compressorStep s.cmp.close)

/-- `CMP_GET_OUTPUT` (R193): the number of bytes in `cmp.OUT`. -/
def execCmpGetOutput (s : State) : Host.Outcome State Fault Refusal :=
  .next (if s.cmp.ready then s.respond .cmp .ok (BitVec.ofNat 64 s.cmp.bw.nbytes) else s.refuse .cmp)

/-- `CMP_GET_SIZE` (R194): the bit count of R188. -/
def execCmpGetSize (s : State) : Host.Outcome State Fault Refusal :=
  .next (if s.cmp.ready then s.respond .cmp .ok (BitVec.ofNat 64 s.cmp.size) else s.refuse .cmp)

end Sys2Proof.Machine
end

