-- ==== Sys2Proof/Machine/Framing.lean ====
section
/-! DEFINITION. Unit `FRM`, the framing layer (spec/44_framing.md): the meanings of `FRM_COMPRESS` and
`FRM_DECOMPRESS`. -/

namespace Sys2Proof.Machine

/-- The `n` values of 8 little-endian bytes each at the start of a space (R61, R65). -/
def Memory.readValues (m : Memory) (n : Nat) : List Value :=
  (List.range n).map (fun i => BitVec.ofNat 64 (leNat (m.readBytes (8 * i) 8)))

/-- The bytes of a list of values, 8 little-endian bytes each (R61, R65). -/
def valueBytes (vs : List Value) : List Byte := vs.flatMap (fun v => leBytes v.toNat 8)

/-- The capacity of the internal buffer for `n` values: the worst case of R16 (R251). -/
def internalCap (n : Nat) : Nat := ceilDiv (65 + 69 * n) 8

/-- The whole stream of some values: construction, the adds and the close on `frm.cmp` (R250). -/
def Framer.compressStream (f : Framer) (vs : List Value) : Except FaultCode Cmp :=
  match (f.cmp.init framingL (internalCap vs.length)).addAll vs with
  | .error e => .error e
  | .ok c => c.close

/-- The payload length in bytes (R105). -/
def payloadBytes (c : Cmp) : Nat := ceilDiv c.size 8

/-- The frame of a finished stream of `n` values: the count, then the payload (R104, R105). -/
def frameBytes (n : Nat) (c : Cmp) : List Byte :=
  leBytes n headerBytes ++ c.bw.out.readBytes 0 (payloadBytes c)

/-- `FRM_COMPRESS source_len, dest_capacity` (R250, R252, R253). The fault arm is never taken: the internal buffer holds
every stream (R251; notes/assumptions/13.md). Where the payload does not fit, the destination inside its capacity is
unspecified (R253, notes/assumptions/11.md). -/
def execFrmCompress (sourceLen destCapacity : BitVec 32) (s : State) : Host.Outcome State Fault Refusal :=
  let n := sourceLen.toNat / 8
  .next
    (if !wholeValues sourceLen then s.refuse .frm
    else if destCapacity.toNat < headerBytes then s.respond .frm .bufferTooSmall 0
    else
      match s.frm.compressStream (s.frm.src.readValues n) with
      | .error f => s.raise .frm f
      | .ok c =>
        if destCapacity.toNat < headerBytes + payloadBytes c then
          { s with frm := { s.frm with cmp := c, dst := s.frm.dst.scramble s.draws 98 destCapacity.toNat } }.respond .frm
            .bufferTooSmall 0
        else
          { s with frm := { s.frm with cmp := c, dst := s.frm.dst.writeBytes 0 (frameBytes n c) } }.respond .frm .ok
            (BitVec.ofNat 64 (headerBytes + payloadBytes c)))

/-- The count field of the frame in `SRC` (R104, R255). -/
def Framer.count (f : Framer) : Nat := leNat (f.src.readBytes 0 headerBytes)

/-- `frm.dec` constructed over the payload in `SRC`, its budget the frame's count (R255). -/
def Framer.loadedDec (f : Framer) (sourceLen : Nat) : Dec :=
  ({ f.dec with br := { f.dec.br with inp := f.src.slice headerBytes sourceLen } } : Dec).init framingL
    (sourceLen - headerBytes) f.count

/-- `frm.dec` run to the item budget (R255). -/
def Framer.decompressStream (f : Framer) (n sourceLen : Nat) : Except FaultCode Dec :=
  (f.loadedDec sourceLen).getValues n

/-- `FRM_DECOMPRESS source_len, dest_capacity` (R255, R256, R257). A fault while decoding leaves the bytes of the
announced values unspecified (R254, R256, notes/assumptions/11.md). What nobody can observe after it is the model's
choice: `frm.dec` is then the decompressor this command constructed, faulted, with `cfg` 1 and the payload in its input
space (R49, notes/assumptions/14.md). -/
def execFrmDecompress (sourceLen destCapacity : BitVec 32) (s : State) : Host.Outcome State Fault Refusal :=
  .next
    (if sourceLen.toNat < headerBytes then s.raise .frm .malformedStream
    else if destCapacity.toNat < 8 * s.frm.count then s.respond .frm .bufferOverflow 0
    else
      match s.frm.decompressStream s.draws sourceLen.toNat with
      | .error f =>
        { s with
          frm := { s.frm with dec := (s.frm.loadedDec sourceLen.toNat).faulted s.draws f,
                              dst := s.frm.dst.scramble s.draws 98 (8 * s.frm.count) } }.raise .frm f
      | .ok d =>
        { s with frm := { s.frm with dec := d, dst := s.frm.dst.writeBytes 0 (valueBytes d.outq) } }.respond .frm .ok
          (BitVec.ofNat 64 (8 * d.outq.length)))

end Sys2Proof.Machine
end

