-- ==== Sys2Proof/Machine/Dispatch.lean ====
section
/-! DEFINITION. One arm per instruction (spec/opcode_table.json), each one call of its meaning. -/

namespace Sys2Proof.Machine

def exec (i : Instr) (s : State) : Host.Outcome State Fault Refusal :=
  match i with
  | .bwInit cap => Sys2Proof.Machine.execBwInit cap s
  | .bwWriteBit bit => Sys2Proof.Machine.execBwWriteBit bit s
  | .bwWriteBits len value => Sys2Proof.Machine.execBwWriteBits len value s
  | .bwWriteBits64 len value => Sys2Proof.Machine.execBwWriteBits64 len value s
  | .bwAlign => Sys2Proof.Machine.execBwAlign s
  | .bwFlush => Sys2Proof.Machine.execBwFlush s
  | .brInit len => Sys2Proof.Machine.execBrInit len s
  | .brReadBit => Sys2Proof.Machine.execBrReadBit s
  | .brReadBits len => Sys2Proof.Machine.execBrReadBits len s
  | .brReadBits64 len => Sys2Proof.Machine.execBrReadBits64 len s
  | .brAlign => Sys2Proof.Machine.execBrAlign s
  | .cmpInit l cap => Sys2Proof.Machine.execCmpInit l cap s
  | .cmpAddU64 value => Sys2Proof.Machine.execCmpAddU64 value s
  | .cmpAddF64 value => Sys2Proof.Machine.execCmpAddF64 value s
  | .cmpClose => Sys2Proof.Machine.execCmpClose s
  | .cmpGetOutput => Sys2Proof.Machine.execCmpGetOutput s
  | .cmpGetSize => Sys2Proof.Machine.execCmpGetSize s
  | .decInit l len budget => Sys2Proof.Machine.execDecInit l len budget s
  | .decNext => Sys2Proof.Machine.execDecNext s
  | .decReadValue => Sys2Proof.Machine.execDecReadValue s
  | .decGetValues => Sys2Proof.Machine.execDecGetValues s
  | .frmCompress sourceLen destCapacity => Sys2Proof.Machine.execFrmCompress sourceLen destCapacity s
  | .frmDecompress sourceLen destCapacity => Sys2Proof.Machine.execFrmDecompress sourceLen destCapacity s
  | .raw64 value => Sys2Proof.Machine.execRaw64 value s
  | .rep slot => Sys2Proof.Machine.execRep slot s
  | .idx slot lzc sig payload => Sys2Proof.Machine.execIdx slot lzc sig payload s
  | .same payload => Sys2Proof.Machine.execSame payload s
  | .new lzc payload => Sys2Proof.Machine.execNew lzc payload s
  | .term pad => Sys2Proof.Machine.execTerm pad s

end Sys2Proof.Machine
end

