-- ==== Sys2Proof/Machine/HostPort.lean ====
section
/-! DEFINITION. What the host does to the machine between commands other than issuing them: filling byte spaces
(spec/20_memory.md R60, R78, R80) and power-cycling (spec/70_reset_and_hazards.md R300, R301). -/

namespace Sys2Proof.Machine

/-- The addresses whose byte the reader may already have fetched: not yet consumed whole, first bit less than 31 bits
ahead of the cursor, inside the buffer (R30, R72). -/
def Br.lookahead (r : Br) : List Nat :=
  ((List.range 5).map (fun i => r.pos / 8 + i)).filter (fun a => decide (8 * a < r.pos + 31) && decide (a < r.len))

/-- The bytes an active reader goes on seeing although the host stores over them: of the addresses in the lookahead
that the host changes, any set (R80, R312, U9; notes/assumptions/9.md). -/
def Br.newlyHeld (r : Br) (n base count : Nat) : List Host.Cell :=
  (r.lookahead.filter (fun a => decide (base ≤ a) && decide (a < base + count) && freeBool n a)).map
    (fun a => (a, r.byteAt a))

/-- The host places bytes in the reader's space (R60, R80). -/
def Br.fill (r : Br) (n base : Nat) (bytes : List Byte) : Br :=
  { r with
    held := if r.ready then r.held ++ r.newlyHeld n base bytes.length else r.held
    inp := r.inp.writeBytes base bytes }

/-- The host places bytes in a byte space (R60). In an output space they replace what stood there (R61, U9). -/
def State.fillSpace (s : State) (space : Space) (base : Nat) (bytes : List Byte) : State :=
  match space with
  | .out => { s with bw := { s.bw with out := s.bw.out.writeBytes base bytes } }
  | .inp => { s with br := s.br.fill s.draws base bytes }
  | .cmpOut => { s with cmp := { s.cmp with bw := { s.cmp.bw with out := s.cmp.bw.out.writeBytes base bytes } } }
  | .decIn => { s with dec := { s.dec with br := s.dec.br.fill s.draws base bytes } }
  | .src => { s with frm := { s.frm with src := s.frm.src.writeBytes base bytes } }
  | .dst => { s with frm := { s.frm with dst := s.frm.dst.writeBytes base bytes } }

/-- A byte space after power-on: any bytes (R301). -/
def unspecifiedSpace (n k : Nat) : Memory := Memory.scramble [] n k (2 ^ 32)

/-- A response register after power-on: any status of R112 and any data (R301, R56). -/
def Resp.unspecified (n k : Nat) : Resp :=
  { status :=
      ([.ok, .bufferTooSmall, .bufferOverflow, .outputOverrun, .inputExhausted, .malformedStream,
        .illegalCommand] : List Status).getD (freeNat n k 3) .ok
    data := Config.freeBits n (k + 1) }

/-- Power-on at any time (R300, R301): every unit unconstructed and not faulted, everything else unspecified, each
register within its own width, the writer inside `FRM` with the 33 bits of R251 (notes/assumptions/17.md). The host's own queue is not part of the hardware. -/
def State.hardwareReset (s : State) : State :=
  let n := s.draws
  { s with
    bw := .unspecified n 100 32 false .none (unspecifiedSpace n 10)
    br := .unspecified n 200 false .none (unspecifiedSpace n 11)
    cmp := .unspecified n 300 32 false .none (unspecifiedSpace n 12)
    dec := .unspecified n 400 false .none (unspecifiedSpace n 13)
    frm :=
      { cmp := .unspecified n 500 33 false .none (unspecifiedSpace n 14)
        dec := .unspecified n 600 false .none (unspecifiedSpace n 15)
        src := unspecifiedSpace n 16
        dst := unspecifiedSpace n 17 }
    resp :=
      { bw := .unspecified n 700, br := .unspecified n 702, cmp := .unspecified n 704, dec := .unspecified n 706,
        frm := .unspecified n 708, other := .unspecified n 710 } }

end Sys2Proof.Machine
end

