-- ==== Sys2Proof/Machine/Fetch.lean ====
section
/-! DEFINITION. Where the next instruction comes from. The hardware has no program counter (spec/10_state.md R44): the
host's events come one at a time, a command word is decoded, and the decompressor's cursor plays the program counter's
part over the bitstream. -/

namespace Sys2Proof.Machine

/-- What a step finds to do. -/
inductive Fetched where
  /-- Nothing: the hardware waits for a command (R289, R301). -/
  | idle
  /-- An instruction, and the state after the fetch. -/
  | instr (i : Instr) (s : State)
  /-- An event that is no instruction, done: the state after it. -/
  | done (s : State)
  /-- An event the hardware has no address for. -/
  | fault (f : Fault)
deriving DecidableEq, Repr

/-- A command word from the host (R108 to R110). -/
def State.fetchCommand (s : State) (w : CommandWord) : Fetched :=
  match decodeCommand w with
  | .ok i => .instr i s
  | .error (.reservedOp op) => .done (s.refuseOp op)

/-- The code at the decompressor's cursor, with the cursor moved past it (R44, R99); a decompressor that is not ready
takes no code (R218). -/
def State.fetchCode (s : State) : Fetched :=
  if s.dec.ready then
    match s.dec.fetch with
    | .ok (code, used) => .instr code.toInstr { s with dec := s.dec.advance used }
    | .error f => .done (s.raise .dec f)
  else .done s

/-- A fill by the host; the last byte must have an address (R60). -/
def State.fetchFill (s : State) (space : Space) (base : BitVec 32) (bytes : List Byte) : Fetched :=
  if 2 ^ 32 < base.toNat + bytes.length then .fault .noSuchAddress
  else .done (s.fillSpace space base.toNat bytes)

/-- The next event of the host, taken off the queue. -/
def State.fetch (s : State) : Fetched :=
  match s.inbox with
  | [] => .idle
  | .command w :: rest => { s with inbox := rest }.fetchCommand w
  | .fill space base bytes :: rest => { s with inbox := rest }.fetchFill space base bytes
  | .hardwareReset :: rest => .done { s with inbox := rest }.hardwareReset
  | .code :: rest => { s with inbox := rest }.fetchCode

/-- The next free values are fresh ones (notes/assumptions/3.md). -/
def State.tick (s : State) : State := { s with draws := s.draws + 1 }

/-- The outcome of a step with the free values moved on. -/
def tickOutcome (o : Host.Outcome State Fault Refusal) : Host.Outcome State Fault Refusal :=
  match o with
  | .next s => .next s.tick
  | .fault f => .fault f
  | .refused r => .refused r

/-- A bit string as bytes, first bit in bit 7 of the first byte, the last byte filled with zeros (R62); `k` bounds the
number of bytes. -/
def packBits : Nat → Bits → List Byte
  | 0, _ => []
  | k + 1, bs => BitVec.ofNat 8 (bitsNat ((bs.take 8) ++ List.replicate (8 - bs.length) false)) :: packBits k (bs.drop 8)

/-- A decompressor that stands before the given bits at the place their context says, everything else kept: what the
fetch of a code needs (notes/assumptions/15.md). -/
def Dec.before (d : Dec) (ctx : CodeCtx) (bits : Bits) : Dec :=
  let count := ceilDiv bits.length 8
  { d with
    L := ctx.L, slz := ctx.slz, cnt := ctx.cnt
    first := decide (ctx.place = .first), eos := decide (ctx.place = .afterSentinel)
    cfg := true, fault := .none
    br := { d.br with
            len := count, pos := 0, held := [], cfg := true, fault := .none
            inp := d.br.inp.writeBytes 0 (packBits count bits) } }

/-- The bits of a row of spec/opcode_table.json placed where the next step fetches: a command word at the head of the
host's queue, a stream code at the decompressor's cursor with one decoder step at the head of the queue. -/
def State.placeWord (s : State) (nbits w : Nat) : State :=
  if nbits = 80 then { s with inbox := .command (BitVec.ofNat 80 w) :: s.inbox }
  else
    { s with
      inbox := .code :: s.inbox
      dec := s.dec.before (tableCodeBits nbits w).1 (tableCodeBits nbits w).2 }

end Sys2Proof.Machine
end

