-- ==== Sys2Proof/Machine/Step.lean ====
section
/-! DEFINITION. One step of the machine: take the host's next event and run the instruction it brings. -/

namespace Sys2Proof.Machine

/-- One step: nothing to do leaves the state as it is (R289); an instruction is run by `exec` on the state after its
fetch; an event that is no instruction has its own effect. -/
def step (s : State) : Host.Outcome State Fault Refusal :=
  match s.fetch with
  | .idle => .next s
  | .instr i s' => tickOutcome (exec i s')
  | .done s' => .next s'.tick
  | .fault f => .fault f

/-- `s` with the bits of an instruction placed where `step` fetches its next one (notes/assumptions/15.md). -/
def State.withFetchWord (s : State) (nbits w : Nat) : State := s.placeWord nbits w

end Sys2Proof.Machine
end

