-- ==== Sys2Proof/Machine/Bytewise.lean ====
section
/-! DEFINITION. The byte-wise form of the writer's primitive (spec/40_bitwriter.md R139), for comparison with the
bit-wise form that the commands use (R131). -/

namespace Sys2Proof.Machine

/-- Append one whole byte, guarded by the capacity test (R139). -/
def Bw.appendByte (w : Bw) (b : Byte) : Except FaultCode Bw :=
  if w.cap ≤ w.nbytes then .error .outputOverrun
  else .ok { w with out := w.out.write w.nbytes b, nbytes := w.nbytes + 1 }

/-- Append whole bytes in order (R139). -/
def Bw.appendBytes (w : Bw) : List Byte → Except FaultCode Bw
  | [] => .ok w
  | b :: bs =>
    match w.appendByte b with
    | .error f => .error f
    | .ok w => w.appendBytes bs

/-- The whole bytes `v[m-1-8i : m-8-8i]` of the low `m` bits of `v`, `q` of them, the highest first (R139). -/
def wholeBytes (v m : Nat) : Nat → List Byte
  | 0 => []
  | q + 1 => BitVec.ofNat 8 (v / 2 ^ (m - 8)) :: wholeBytes v (m - 8) q

/-- `emit(v, n)` computed by bytes (R139): the part that fits the accumulator, the whole bytes, the remainder. -/
def Bw.emitBytewise (w : Bw) (v n : Nat) : Except FaultCode Bw :=
  let f := w.free
  if n < f then
    .ok { w with acc := w.acc ||| BitVec.ofNat 8 ((v % 2 ^ n) * 2 ^ (f - n)), free := f - n, total := w.total + n }
  else
    let first := w.acc ||| BitVec.ofNat 8 (v / 2 ^ (n - f) % 2 ^ f)
    let q := (n - f) / 8
    let r := (n - f) % 8
    match w.appendBytes (first :: wholeBytes v (n - f) q) with
    | .error e => .error e
    | .ok w =>
      .ok { w with acc := BitVec.ofNat 8 ((v % 2 ^ r) * 2 ^ (8 - r)), free := 8 - r, total := w.total + n }

end Sys2Proof.Machine
end

