-- ==== Sys2Proof/Safety.lean ====
section
/-! DEFINITION. What counts as a sound state and a rightful outcome, in the terms the statements use: the invariants of
the units (spec/10_state.md, spec/42_compressor.md R179, spec/40_bitwriter.md R133), the register widths (R14), the
refusal cases (spec/60_exceptions.md R276) and the outcomes of each command (R290). -/

namespace Sys2Proof.Machine

/-! ### Writers -/

/-- Stream bit `k` of what a writer has written: from `OUT` below `8 * nbytes`, from the accumulator above (R62,
R141). -/
def Bw.streamBit (w : Bw) (k : Nat) : Bool :=
  if k < 8 * w.nbytes then w.out.bit k else w.acc.getLsbD (7 - k % 8)

/-- The writer's registers agree with each other (R23 to R26, R133), and its space is in canonical form. -/
structure Bw.Inv (w : Bw) : Prop where
  free_pos : 1 ≤ w.free
  free_le : w.free ≤ 8
  total_eq : w.total = 8 * w.nbytes + (8 - w.free)
  within : w.nbytes ≤ w.cap
  slots_clear : ∀ i < w.free, w.acc.getLsbD i = false
  out_wf : w.out.wf = true

/-- `w'` is the writer `w` with the bits `bs` appended and nothing else changed (R131, R69, R141). -/
structure Bw.Appends (w w' : Bw) (bs : Bits) : Prop where
  cap_eq : w'.cap = w.cap
  cfg_eq : w'.cfg = w.cfg
  fault_eq : w'.fault = w.fault
  total_eq : w'.total = w.total + bs.length
  nbytes_eq : w'.nbytes = (w.total + bs.length) / 8
  free_eq : w'.free = 8 - (w.total + bs.length) % 8
  slots_clear : ∀ i < w'.free, w'.acc.getLsbD i = false
  old_bits : ∀ k < w.total, w'.streamBit k = w.streamBit k
  new_bits : ∀ j < bs.length, w'.streamBit (w.total + j) = bs.getD j false
  other_bytes : ∀ a, a < w.nbytes ∨ w'.nbytes ≤ a → w'.out.read a = w.out.read a

/-- The capacity holds the bytes that `n` more bits complete (R131, R140). -/
def Bw.HasRoom (w : Bw) (n : Nat) : Prop := (w.total + n) / 8 ≤ w.cap

/-! ### Readers -/

/-- The cursor is inside the buffer (R44, R71). -/
def Br.Inv (r : Br) : Prop := r.pos ≤ 8 * r.len

/-- `v` is the number made of the `n` stream bits from cursor `k` on as the reader sees them, most significant first,
zero-extended (R63, R111, R151). -/
def Br.Reads (r : Br) (k n : Nat) (v : BitVec 64) : Prop :=
  (∀ j < n, v.getLsbD (n - 1 - j) = r.bitAt (k + j)) ∧ ∀ i, n ≤ i → v.getLsbD i = false

/-! ### Stores by the host -/

/-- `m'` is the space `m` with the bytes stored from address `base` on, lowest address first, and every other byte as it
was (R60, R61). -/
def Memory.Stores (m m' : Memory) (base : Nat) (bytes : List Byte) : Prop :=
  m' = m.writeBytes base bytes ∧
    (m.wf = true →
      ∀ a, m'.read a = if base ≤ a ∧ a < base + bytes.length then bytes.getD (a - base) 0 else m.read a)

/-- `r'` is the reader `r` after the host stored the bytes into its space: registers as they were, a byte that starts 31
or more bits ahead of the cursor and was not held is seen as stored, and every byte is seen as before or as stored
(R72, R80, R312). -/
def Br.Receives (r r' : Br) (base : Nat) (bytes : List Byte) : Prop :=
  (∃ held inp, r' = { r with held := held, inp := inp }) ∧ r.inp.Stores r'.inp base bytes ∧
    (∀ a, r.pos + 31 ≤ 8 * a → r.held.lookup a = none → r'.byteAt a = r'.inp.read a) ∧
    ∀ a, r'.byteAt a = r.byteAt a ∨ r'.byteAt a = r'.inp.read a

/-! ### The compressor -/

/-- A stored leading-zero count is a bucket value or `UNSET` (R38, R41). -/
def SlzLegal (slz : Nat) : Prop := slz = unset ∨ ∃ i : BitVec 3, slz = bucket i

/-- A position whose value is still in the window (R178). -/
def Cmp.Live (c : Cmp) (p : Nat) : Prop := p ≤ c.gidx ∧ c.gidx - p < windowSize c.L

/-- The value at a live position (R178). -/
def Cmp.at (c : Cmp) (p : Nat) : Value := c.win.read (p % windowSize c.L)

/-- The compressor's registers agree with each other (R32 to R40, R179, R188), its arrays in canonical form. -/
structure Cmp.Inv (c : Cmp) : Prop where
  L_le : c.L ≤ maxL
  writer_ready : c.bw.ready = true
  writer : c.bw.Inv
  win_wf : c.win.wf = true
  tab_wf : c.tab.wf = true
  slz_legal : SlzLegal c.slz
  size_open : c.closed = false → c.size = c.bw.total
  size_le : c.size ≤ c.bw.total
  fresh : c.first = true → c.gidx = 0 ∧ c.cur = 0 ∧ c.slz = unset ∧ c.bw.total = 0 ∧ ∀ k, c.tab.read k = 0
  cur_eq : c.cur = c.gidx % windowSize c.L
  entries_le : ∀ k, c.tab.read k ≤ c.gidx
  live_entries : c.first = false → ∀ p, c.Live p → p ≤ c.tab.read (keyOf c.L (c.at p))
  entries_live : c.first = false → ∀ k, c.gidx - c.tab.read k < windowSize c.L → c.tab.read k ≠ 0 →
    keyOf c.L (c.at (c.tab.read k)) = k

/-! ### The decompressor -/

/-- The decompressor's registers agree with each other (R41 to R43, R53), its window in canonical form. That the queue
holds every value delivered since the construction is the model's choice (notes/assumptions/20.md). -/
structure Dec.Inv (d : Dec) : Prop where
  L_le : d.L ≤ maxL
  reader_ready : d.br.ready = true
  reader : d.br.Inv
  win_wf : d.win.wf = true
  slz_legal : SlzLegal d.slz
  stz_le : d.stz ≤ 64
  cur_lt : d.cur < windowSize d.L
  cnt_le : d.cnt ≤ windowSize d.L
  cnt_first : d.first = true → d.cnt = 0
  cnt_later : d.first = false → 1 ≤ d.cnt
  emitted_le : d.emitted ≤ d.budget
  outq_length : d.outq.length = d.emitted

/-! ### The machine -/

/-- Every unit that is constructed and not faulted has registers that agree with each other. -/
structure State.UnitsInv (s : State) : Prop where
  bw : s.bw.ready = true → s.bw.Inv
  br : s.br.ready = true → s.br.Inv
  cmp : s.cmp.ready = true → s.cmp.Inv
  dec : s.dec.ready = true → s.dec.Inv
  frm_cmp : s.frm.cmp.ready = true → s.frm.cmp.Inv
  frm_dec : s.frm.dec.ready = true → s.frm.dec.Inv

/-- Every byte space, window and index table is in its one canonical form. -/
structure State.Canonical (s : State) : Prop where
  out : s.bw.out.wf = true
  inp : s.br.inp.wf = true
  cmpOut : s.cmp.bw.out.wf = true
  cmpWin : s.cmp.win.wf = true
  cmpTab : s.cmp.tab.wf = true
  decIn : s.dec.br.inp.wf = true
  decWin : s.dec.win.wf = true
  src : s.frm.src.wf = true
  dst : s.frm.dst.wf = true
  frmOut : s.frm.cmp.bw.out.wf = true
  frmCmpWin : s.frm.cmp.win.wf = true
  frmCmpTab : s.frm.cmp.tab.wf = true
  frmIn : s.frm.dec.br.inp.wf = true
  frmDecWin : s.frm.dec.win.wf = true

/-- A writer's registers fit their widths (R22 to R26); the capacity has `capBits` bits. -/
structure Bw.Fits (w : Bw) (capBits : Nat) : Prop where
  cap : w.cap < 2 ^ capBits
  free : w.free < 2 ^ 4
  nbytes : w.nbytes < 2 ^ capBits
  total : w.total < 2 ^ 64

/-- A reader's registers fit their widths (R28, R29). -/
structure Br.Fits (r : Br) : Prop where
  len : r.len < 2 ^ 32
  pos : r.pos < 2 ^ 64

/-- A compressor's registers fit their widths (R32 to R39); its writer's capacity has `capBits` bits (R251). -/
structure Cmp.Fits (c : Cmp) (capBits : Nat) : Prop where
  L : c.L < 2 ^ 5
  cur : c.cur < windowSize c.L
  gidx : c.gidx < 2 ^ 32
  entries : ∀ k, c.tab.read k < 2 ^ 32
  slz : c.slz < 2 ^ 7
  size : c.size < 2 ^ 64
  bw : c.bw.Fits capBits

/-- A decompressor's registers fit their widths (R41, R43). -/
structure Dec.Fits (d : Dec) : Prop where
  L : d.L < 2 ^ 5
  slz : d.slz < 2 ^ 7
  stz : d.stz < 2 ^ 7
  cur : d.cur < windowSize d.L
  budget : d.budget < 2 ^ 32
  cnt : d.cnt < 2 ^ 32
  emitted : d.emitted < 2 ^ 32
  br : d.br.Fits

/-- Every counter of the machine fits the width the spec gives it (R14, R133, R176, R251). -/
structure State.RegistersFit (s : State) : Prop where
  bw : s.bw.Fits 32
  br : s.br.Fits
  cmp : s.cmp.Fits 32
  dec : s.dec.Fits
  frm_cmp : s.frm.cmp.Fits 33
  frm_dec : s.frm.dec.Fits

/-! ### Commands, units and outcomes -/

/-- The unit a command belongs to (R108, R109); a stream code is no command. -/
def unitOf : Instr → Option UnitId
  | .bwInit _ => some .bw
  | .bwWriteBit _ => some .bw
  | .bwWriteBits _ _ => some .bw
  | .bwWriteBits64 _ _ => some .bw
  | .bwAlign => some .bw
  | .bwFlush => some .bw
  | .brInit _ => some .br
  | .brReadBit => some .br
  | .brReadBits _ => some .br
  | .brReadBits64 _ => some .br
  | .brAlign => some .br
  | .cmpInit _ _ => some .cmp
  | .cmpAddU64 _ => some .cmp
  | .cmpAddF64 _ => some .cmp
  | .cmpClose => some .cmp
  | .cmpGetOutput => some .cmp
  | .cmpGetSize => some .cmp
  | .decInit _ _ _ => some .dec
  | .decNext => some .dec
  | .decReadValue => some .dec
  | .decGetValues => some .dec
  | .frmCompress _ _ => some .frm
  | .frmDecompress _ _ => some .frm
  | .raw64 _ => none
  | .rep _ => none
  | .idx _ _ _ _ => none
  | .same _ => none
  | .new _ _ => none
  | .term _ => none

/-- The `*_INIT` commands (R277). -/
def isInit : Instr → Bool
  | .bwInit _ => true
  | .bwWriteBit _ => false
  | .bwWriteBits _ _ => false
  | .bwWriteBits64 _ _ => false
  | .bwAlign => false
  | .bwFlush => false
  | .brInit _ => true
  | .brReadBit => false
  | .brReadBits _ => false
  | .brReadBits64 _ => false
  | .brAlign => false
  | .cmpInit _ _ => true
  | .cmpAddU64 _ => false
  | .cmpAddF64 _ => false
  | .cmpClose => false
  | .cmpGetOutput => false
  | .cmpGetSize => false
  | .decInit _ _ _ => true
  | .decNext => false
  | .decReadValue => false
  | .decGetValues => false
  | .frmCompress _ _ => false
  | .frmDecompress _ _ => false
  | .raw64 _ => false
  | .rep _ => false
  | .idx _ _ _ _ => false
  | .same _ => false
  | .new _ _ => false
  | .term _ => false

/-- The commands that add to the compressor's stream (R276 cases 4 and 7). -/
def isAdd : Instr → Bool
  | .bwInit _ => false
  | .bwWriteBit _ => false
  | .bwWriteBits _ _ => false
  | .bwWriteBits64 _ _ => false
  | .bwAlign => false
  | .bwFlush => false
  | .brInit _ => false
  | .brReadBit => false
  | .brReadBits _ => false
  | .brReadBits64 _ => false
  | .brAlign => false
  | .cmpInit _ _ => false
  | .cmpAddU64 _ => true
  | .cmpAddF64 _ => true
  | .cmpClose => true
  | .cmpGetOutput => false
  | .cmpGetSize => false
  | .decInit _ _ _ => false
  | .decNext => false
  | .decReadValue => false
  | .decGetValues => false
  | .frmCompress _ _ => false
  | .frmDecompress _ _ => false
  | .raw64 _ => false
  | .rep _ => false
  | .idx _ _ _ _ => false
  | .same _ => false
  | .new _ _ => false
  | .term _ => false

/-- The unit is constructed and not faulted; `FRM` always is (R254, R276 cases 2 and 3). -/
def State.unitReady (s : State) : UnitId → Bool
  | .bw => s.bw.ready
  | .br => s.br.ready
  | .cmp => s.cmp.ready
  | .dec => s.dec.ready
  | .frm => true

/-- A unit's fault register; `FRM` has none (R254). -/
def State.faultOf (s : State) : UnitId → FaultCode
  | .bw => s.bw.fault
  | .br => s.br.fault
  | .cmp => s.cmp.fault
  | .dec => s.dec.fault
  | .frm => .none

/-- A unit's `cfg` register; `FRM` has none and counts as constructed (R254). -/
def State.cfgOf (s : State) : UnitId → Bool
  | .bw => s.bw.cfg
  | .br => s.br.cfg
  | .cmp => s.cmp.cfg
  | .dec => s.dec.cfg
  | .frm => true

/-- A unit's response register (R50). -/
def Responses.of (rs : Responses) : UnitId → Resp
  | .bw => rs.bw
  | .br => rs.br
  | .cmp => rs.cmp
  | .dec => rs.dec
  | .frm => rs.frm

/-- The cases in which a well-encoded command is refused (R276 cases 2 to 8). -/
def refusalCase (i : Instr) (u : UnitId) (s : State) : Bool :=
  (!isInit i && !s.unitReady u) || !i.operandsLegal || (isAdd i && (s.cmp.closed || s.cmp.atLimit))

/-- The statuses a command can return (R290). -/
def outcomes : Instr → List Status
  | .bwInit _ => [.ok]
  | .bwWriteBit _ => [.ok, .outputOverrun, .illegalCommand]
  | .bwWriteBits _ _ => [.ok, .outputOverrun, .illegalCommand]
  | .bwWriteBits64 _ _ => [.ok, .outputOverrun, .illegalCommand]
  | .bwAlign => [.ok, .outputOverrun, .illegalCommand]
  | .bwFlush => [.ok, .outputOverrun, .illegalCommand]
  | .brInit _ => [.ok]
  | .brReadBit => [.ok, .inputExhausted, .illegalCommand]
  | .brReadBits _ => [.ok, .inputExhausted, .illegalCommand]
  | .brReadBits64 _ => [.ok, .inputExhausted, .illegalCommand]
  | .brAlign => [.ok, .illegalCommand]
  | .cmpInit _ _ => [.ok, .illegalCommand]
  | .cmpAddU64 _ => [.ok, .outputOverrun, .illegalCommand]
  | .cmpAddF64 _ => [.ok, .outputOverrun, .illegalCommand]
  | .cmpClose => [.ok, .outputOverrun, .illegalCommand]
  | .cmpGetOutput => [.ok, .illegalCommand]
  | .cmpGetSize => [.ok, .illegalCommand]
  | .decInit _ _ _ => [.ok, .illegalCommand]
  | .decNext => [.ok, .inputExhausted, .malformedStream, .illegalCommand]
  | .decReadValue => [.ok, .inputExhausted, .malformedStream, .illegalCommand]
  | .decGetValues => [.ok, .inputExhausted, .malformedStream, .illegalCommand]
  | .frmCompress _ _ => [.ok, .bufferTooSmall, .illegalCommand]
  | .frmDecompress _ _ => [.ok, .inputExhausted, .malformedStream, .bufferOverflow]
  | .raw64 _ => []
  | .rep _ => []
  | .idx _ _ _ _ => []
  | .same _ => []
  | .new _ _ => []
  | .term _ => []

/-- `t` differs from `s` at most in unit `u` with its byte spaces and its response register. -/
def OnlyUnit (u : UnitId) (s t : State) : Prop :=
  (u ≠ .bw → t.bw = s.bw ∧ t.resp.bw = s.resp.bw) ∧
  (u ≠ .br → t.br = s.br ∧ t.resp.br = s.resp.br) ∧
  (u ≠ .cmp → t.cmp = s.cmp ∧ t.resp.cmp = s.resp.cmp) ∧
  (u ≠ .dec → t.dec = s.dec ∧ t.resp.dec = s.resp.dec) ∧
  (u ≠ .frm → t.frm = s.frm ∧ t.resp.frm = s.resp.frm) ∧
  t.resp.other = s.resp.other ∧ t.inbox = s.inbox ∧ t.draws = s.draws

/-- The state after some instructions, one after the other. -/
def State.after (s : State) : List Instr → State
  | [] => s
  | i :: is =>
    match exec i s with
    | .next t => t.after is
    | .fault _ => s
    | .refused _ => s

/-! ### What a command does, in the words of its rule -/

/-- The low `n` bits of `v`, most significant first (R63). -/
def fieldBits (v n : Nat) : Bits := (List.range n).map (fun j => v.testBit (n - 1 - j))

/-- The command appends these bits to `OUT` and answers their number; where the capacity does not hold the bytes they
complete, it raises `OUTPUT_OVERRUN` and stores nothing at or beyond the capacity (R131, R140, R280). -/
def WritesBits (i : Instr) (s : State) (bits : Bits) : Prop :=
  (s.bw.HasRoom bits.length →
    ∃ w, exec i s = .next { s with bw := w, resp := { s.resp with bw := ⟨.ok, BitVec.ofNat 64 bits.length⟩ } } ∧
      s.bw.Appends w bits) ∧
  (¬ s.bw.HasRoom bits.length →
    ∃ w, exec i s = .next { s with bw := w, resp := { s.resp with bw := ⟨.outputOverrun, 0⟩ } } ∧
      w.fault = .outputOverrun ∧ ∀ a, s.bw.cap ≤ a → w.out.read a = s.bw.out.read a)

/-- The command answers the next `n` bits and moves the cursor past them; where the buffer ends before, it raises
`INPUT_EXHAUSTED` and leaves `IN` as it is (R151, R158, R280). -/
def ReadsBits (i : Instr) (s : State) (n : Nat) : Prop :=
  (s.br.pos + n ≤ 8 * s.br.len →
    ∃ v, exec i s =
        .next { s with br := { s.br with pos := s.br.pos + n }, resp := { s.resp with br := ⟨.ok, v⟩ } } ∧
      s.br.Reads s.br.pos n v) ∧
  (8 * s.br.len < s.br.pos + n →
    ∃ r, exec i s = .next { s with br := r, resp := { s.resp with br := ⟨.inputExhausted, 0⟩ } } ∧
      r.fault = .inputExhausted ∧ r.inp = s.br.inp)

/-- The command raises `OUTPUT_OVERRUN` in `CMP` and stores nothing at or beyond the capacity (R140, R280). -/
def Overruns (i : Instr) (s : State) : Prop :=
  ∃ c, exec i s = .next { s with cmp := c, resp := { s.resp with cmp := ⟨.outputOverrun, 0⟩ } } ∧
    c.fault = .outputOverrun ∧
    ∀ a, s.cmp.bw.cap ≤ a → c.bw.out.read a = s.cmp.bw.out.read a

/-- The instruction raises a decoding fault in `DEC`, which leaves `dec.IN` as it is (R280). That `cfg` is kept and that
a code run alone writes the response are the model's choices (notes/assumptions/6.md and 5.md). -/
def DecodingStops (i : Instr) (s : State) (f : FaultCode) : Prop :=
  ∃ d, exec i s = .next { s with dec := d, resp := { s.resp with dec := ⟨f.status, 0⟩ } } ∧
    d.cfg = s.dec.cfg ∧ d.fault = f ∧ d.br.inp = s.dec.br.inp

/-- All three decoding commands raise this fault, `DEC_GET_VALUES` where its budget lets it read at all (R211, R220,
R221). -/
def StopsDecoding (s : State) (f : FaultCode) : Prop :=
  DecodingStops .decNext s f ∧ DecodingStops .decReadValue s f ∧
    (s.dec.emitted < s.dec.budget → DecodingStops .decGetValues s f)

/-- The two commands that add the value `v` (R171, R172). -/
def AddsValue (i : Instr) (v : Value) : Prop := i = .cmpAddU64 v ∨ i = .cmpAddF64 v

/-- The position the index table names for the value `v` (R175). -/
def Cmp.entryOf (c : Cmp) (v : Value) : Nat := c.tab.read (keyOf c.L v)

/-- The difference to the value in the slot of that position (R177). -/
def Cmp.entryDelta (c : Cmp) (v : Value) : Value := v ^^^ c.win.read (c.entryOf v % windowSize c.L)

/-- The difference to the value stored last (R177). -/
def Cmp.lastDelta (c : Cmp) (v : Value) : Value := c.win.read (c.gidx % windowSize c.L) ^^^ v

/-- The indexed candidate is accepted (R177). -/
def Cmp.Indexed (c : Cmp) (v : Value) : Prop :=
  c.gidx - c.entryOf v < windowSize c.L ∧ threshold c.L < ctz64 (c.entryDelta v)

/-- The command writes these bits for the value `v`, leaves the stored bucket `slz` and updates window, position and
table (R187, R188); where the capacity does not hold the bytes, it overruns. -/
def WritesCode (i : Instr) (s : State) (v : Value) (bits : Bits) (slz : Nat) : Prop :=
  (s.cmp.bw.HasRoom bits.length →
    ∃ w, exec i s =
        .next
          { s with
            cmp :=
              { s.cmp with
                bw := w, size := s.cmp.size + bits.length, slz := slz
                cur := (s.cmp.cur + 1) % windowSize s.cmp.L
                win := s.cmp.win.write ((s.cmp.cur + 1) % windowSize s.cmp.L) v
                gidx := s.cmp.gidx + 1
                tab := s.cmp.tab.write (keyOf s.cmp.L v) (s.cmp.gidx + 1) }
            resp := { s.resp with cmp := ⟨.ok, 0⟩ } } ∧
      s.cmp.bw.Appends w bits) ∧
  (¬ s.cmp.bw.HasRoom bits.length → Overruns i s)

/-- The decompressor after `push(v)` (R211, R219). -/
def Dec.pushed (d : Dec) (v : Value) : Dec :=
  { d with
    sv := v, cur := (d.cur + 1) % windowSize d.L
    win := d.win.write ((d.cur + 1) % windowSize d.L) v
    cnt := min (d.cnt + 1) (windowSize d.L) }

/-- The value `v` ends a decoded code: the sentinel sets `dec.eos`, is not pushed and leaves `dec.sv` unspecified, any
other value is pushed (R214, R219, R222). -/
def Delivered (d t : Dec) (v : Value) : Prop :=
  (v = sentinel → ∃ sv, t = { d with eos := true, sv := sv }) ∧ (v ≠ sentinel → t = d.pushed v)

/-! ### Compressor and decompressor side by side -/

/-- The decompressor has decoded exactly what the compressor has coded (R225): same window size, cursor at the end of
what was written, same window slots, same stored bucket, the value decoded last is the value stored last. -/
structure InStep (c : Cmp) (d : Dec) : Prop where
  L_eq : d.L = c.L
  pos_eq : d.br.pos = c.bw.total
  eos : d.eos = false
  first_eq : d.first = c.first
  slz_eq : d.slz = c.slz
  cur_eq : c.first = false → d.cur = c.cur
  cur_first : c.first = true → d.cur = 0
  cnt_eq : c.first = false → d.cnt = min (c.gidx + 1) (windowSize c.L)
  slots_eq : c.first = false → ∀ i < d.cnt, d.win.read i = c.win.read i
  sv_eq : c.first = false → d.sv = c.at c.gidx

/-- Fewer than `n` bits are left at the cursor (R151). -/
def Br.Short (r : Br) (n : Nat) : Prop := 8 * r.len < r.pos + n

/-- The reader sees, from its cursor on, exactly these bits, and its buffer holds them all. -/
def Br.Faces (r : Br) (bs : Bits) : Prop :=
  r.pos + bs.length ≤ 8 * r.len ∧ ∀ j < bs.length, r.bitAt (r.pos + j) = bs.getD j false

end Sys2Proof.Machine
end

