-- ==== Sys2Proof/Certificates/Slice0/Obligations.lean ====
section
/-! DEFINITION. The statements for the provers. -/

open Sys2Proof Sys2Proof.Machine

/-! ### Encoding -/

/-- Decoding gives back every well-formed instruction that was encoded, whatever bits follow a code (R91 to R97, R108,
R109). -/
def Obligations.InstructionEncodingRoundTrip : Prop :=
  ∀ (ctx : CodeCtx) (i : Instr) (more : Bits), i.wf ctx = true →
    (∀ w, encodeCommand i = some w → decodeCommand w = .ok i) ∧
    (∀ c, i.code? = some c → decodeCode ctx (encode ctx i ++ more) = .ok (c, more) ∧ c.toInstr = i) ∧
    ((encodeCommand i).isSome ∨ (i.code?).isSome)

/-- What the decoder reads from a stream is exactly the bits it consumed: a well-formed code whose encoding they are
(R99, R103). -/
def Obligations.DecodedCodeReencodes : Prop :=
  ∀ (ctx : CodeCtx) (bs more : Bits) (c : Code), ctx.L ≤ maxL → decodeCode ctx bs = .ok (c, more) →
    c.wf ctx = true ∧ encodeCode ctx c ++ more = bs

/-- A reserved op is refused without any other change, and an op of the table is never reserved (R110). The register
that holds the answer is the model's choice (notes/assumptions/8.md). -/
def Obligations.ReservedOpChangesOnlyResponse : Prop :=
  ∀ (s : State) (w : CommandWord) (rest : List Event), s.inbox = .command w :: rest →
    ((opField w).toNat ∈ [0x10, 0x11, 0x12, 0x13, 0x14, 0x15, 0x20, 0x21, 0x22, 0x23, 0x24, 0x30, 0x31, 0x32, 0x33,
        0x34, 0x35, 0x40, 0x41, 0x42, 0x43, 0x50, 0x51] → ∃ i, decodeCommand w = .ok i) ∧
    ((opField w).toNat ∉ [0x10, 0x11, 0x12, 0x13, 0x14, 0x15, 0x20, 0x21, 0x22, 0x23, 0x24, 0x30, 0x31, 0x32, 0x33,
        0x34, 0x35, 0x40, 0x41, 0x42, 0x43, 0x50, 0x51] →
      step s =
        .next { s with inbox := rest, draws := s.draws + 1,
                       resp := s.resp.write (opUnit (opField w)) ⟨.illegalCommand, 0⟩ })

/-- The example words of spec/95_test_vectors.md V-X1 and V-X3 decode to their commands. -/
def Obligations.SampleWordsDecode : Prop :=
  decodeCommand 0x12030000000000000005#80 = .ok (.bwWriteBits 3 5) ∧
  decodeCommand 0x30070000000000000040#80 = .ok (.cmpInit 7 64) ∧
  decodeCommand 0x40070000000400000012#80 = .ok (.decInit 7 18 4) ∧
  decodeCommand 0x50000000004000000020#80 = .ok (.frmCompress 32 64) ∧
  decodeCommand 0x14FFFFFFFFFFFFFFFFFF#80 = .ok .bwAlign ∧
  decodeCommand 0x1100FFFFFFFFFFFFFFFE#80 = .ok (.bwWriteBit 0) ∧
  decodeCommand 0x1000FFFFFFFF00000010#80 = .ok (.bwInit 16)

/-- The leading-zero bucket is the largest of the eight bucket values that is not above the count (R96). -/
def Obligations.BucketRoundsDown : Prop :=
  (List.range 8).map (fun i => bucket (BitVec.ofNat 3 i)) = [0, 8, 12, 16, 18, 20, 22, 24] ∧
  ∀ z ≤ 64, bucket (bucketIndex z) ≤ z ∧ ∀ i : BitVec 3, bucket i ≤ z → bucket i ≤ bucket (bucketIndex z)

/-- The zero counts are the numbers of zero bits above the highest and below the lowest one bit (R18). -/
def Obligations.ZeroCountsDelimitTheOnes : Prop :=
  ∀ x : Value, x ≠ 0 →
    (clz64 x ≤ 63 ∧ 2 ^ (63 - clz64 x) ≤ x.toNat ∧ x.toNat < 2 ^ (64 - clz64 x)) ∧
    (ctz64 x ≤ 63 ∧ 2 ^ ctz64 x ∣ x.toNat ∧ ¬ 2 ^ (ctz64 x + 1) ∣ x.toNat)

/-- The packed field of `IDX` holds flag, slot, bucket code and count at the bits of R94. -/
def Obligations.IdxFieldLayout : Prop :=
  ∀ (L slot lzc sig : Nat), slot < windowSize L → lzc < 8 → sig < 64 →
    natBits (512 * (windowSize L + slot) + 64 * lzc + sig) (L + 11) =
      fieldBits 1 2 ++ fieldBits slot L ++ fieldBits lzc 3 ++ fieldBits sig 6

/-- No code after the first is longer than 69 bits (R16, R186). -/
def Obligations.NoLaterCodeExceeds69Bits : Prop :=
  ∀ (c : Cmp) (v : Value), c.L ≤ maxL → c.first = false → (encodeCode c.codeCtx (c.codeOf v)).length ≤ 69

/-! ### The machine's steps -/

/-- A step on a command word runs the instruction it decodes to, on the state without that event; the free values move
on. -/
def Obligations.StepRunsCommand : Prop :=
  ∀ (s : State) (w : CommandWord) (rest : List Event) (i : Instr),
    s.inbox = .command w :: rest → decodeCommand w = .ok i →
      step s = tickOutcome (exec i { s with inbox := rest })

/-- A step on a decoder event runs the code at the decompressor's cursor, on the state with the cursor past the code;
after the end of the stream it changes nothing (R44, R99, R222). -/
def Obligations.StepRunsCodeAtCursor : Prop :=
  ∀ (s : State) (rest : List Event), s.inbox = .code :: rest → s.dec.ready = true →
    (∀ (c : Code) (more : Bits), s.dec.eos = false → decodeCode s.dec.codeCtx s.dec.upcoming = .ok (c, more) →
      step s =
        tickOutcome (exec c.toInstr
          { s with
            inbox := rest
            dec := { s.dec with br := { s.dec.br with pos := s.dec.br.pos + (s.dec.upcoming.length - more.length) } } })) ∧
    (s.dec.eos = true → step s = .next { s with inbox := rest, draws := s.draws + 1 })

/-- After hardware reset, at the start or later, every unit is unconstructed and not faulted (R56, R301), and with no
event the machine waits. -/
def Obligations.HardwareResetUnconfiguresUnits : Prop :=
  (∀ u, u ≠ .frm → State.reset.unitReady u = false) ∧
  (State.reset.bw.cfg = false ∧ State.reset.br.cfg = false ∧ State.reset.cmp.cfg = false ∧
    State.reset.dec.cfg = false) ∧
  (∀ u, State.reset.faultOf u = .none) ∧
  (∀ s : State, s.inbox = [] → step s = .next s) ∧
  ∀ (s : State) (rest : List Event), s.inbox = .hardwareReset :: rest →
    ∃ t, step s = .next t ∧ t.inbox = rest ∧ t.bw.cfg = false ∧ t.br.cfg = false ∧ t.cmp.cfg = false ∧
      t.dec.cfg = false ∧ ∀ u, t.faultOf u = .none

/-- A refusal answers `(ILLEGAL_COMMAND, 0)` and changes nothing else, exactly in the cases 2 to 8 of R276. -/
def Obligations.RefusalsChangeOnlyResponse : Prop :=
  ∀ (s : State) (i : Instr) (u : UnitId), unitOf i = some u →
    (refusalCase i u s = true →
      exec i s = .next { s with resp := s.resp.write (some u) ⟨.illegalCommand, 0⟩ }) ∧
    (refusalCase i u s = false → ∀ t, exec i s = .next t → (t.resp.of u).status ≠ .illegalCommand)

/-- Every command answers one of the statuses R290 lists for it, and the reserved ones never (R272, R290). -/
def Obligations.CommandStatusesAreListed : Prop :=
  ∀ (s : State) (i : Instr) (u : UnitId), unitOf i = some u →
    ∃ t, exec i s = .next t ∧ (t.resp.of u).status ∈ outcomes i

/-- A fault sets the unit's fault register, answers `(code, 0)`, and from then on the unit refuses every command but
its `*_INIT` (R280, R282). That the fault leaves `cfg` as it was is the model's choice (notes/assumptions/6.md). -/
def Obligations.FaultedUnitRefusesUntilInit : Prop :=
  ∀ (s t : State) (i : Instr) (u : UnitId) (f : FaultCode), unitOf i = some u → u ≠ .frm → f ≠ .none →
    exec i s = .next t → (t.resp.of u).status = f.status →
      t.faultOf u = f ∧ t.cfgOf u = s.cfgOf u ∧ (t.resp.of u).data = 0 ∧
      ∀ j, unitOf j = some u → isInit j = false →
        exec j t = .next { t with resp := t.resp.write (some u) ⟨.illegalCommand, 0⟩ }

/-- A command changes nothing outside its unit, a stream code nothing outside `DEC` (R20, R254, R285). -/
def Obligations.CommandsTouchOnlyTheirUnit : Prop :=
  ∀ (s : State) (i : Instr),
    ∃ t, exec i s = .next t ∧ OnlyUnit ((unitOf i).getD .dec) s t

/-- Commands to different units commute (R285). -/
def Obligations.CommandsOfDifferentUnitsCommute : Prop :=
  ∀ (s a b : State) (i j : Instr) (u v : UnitId), unitOf i = some u → unitOf j = some v → u ≠ v →
    exec i s = .next a → exec j s = .next b →
      ∃ t, exec j a = .next t ∧ exec i b = .next t

/-! ### Invariants -/

/-- Every step keeps every byte space, window and table in canonical form. -/
def Obligations.StepKeepsCanonicalForm : Prop :=
  ∀ s t : State, s.Canonical → step s = .next t → t.Canonical

/-- Every step keeps the registers of every constructed unit in agreement (R23 to R26, R35, R38, R44, R133, R179,
R188). That `dec.outq` holds every value delivered is the model's choice (notes/assumptions/20.md). -/
def Obligations.StepKeepsUnitInvariants : Prop :=
  ∀ s t : State, s.Canonical → s.UnitsInv → step s = .next t → t.UnitsInv

/-- Every step keeps every counter within the width the spec gives it (R14, R133, R176). -/
def Obligations.StepKeepsRegisterWidths : Prop :=
  ∀ s t : State, s.UnitsInv → s.RegistersFit → step s = .next t → t.RegistersFit

/-- The three invariants hold after hardware reset (with the model's values for the registers that R301 leaves
unspecified, notes/assumptions/1.md and 2.md). -/
def Obligations.ResetMeetsInvariants : Prop :=
  State.reset.Canonical ∧ State.reset.UnitsInv ∧ State.reset.RegistersFit

/-! ### The writer -/

/-- `BW_INIT` constructs a writer in every state and leaves `OUT` (R130). -/
def Obligations.BwInitConstructsWriter : Prop :=
  ∀ (arg : BitVec 8) (data : BitVec 64) (s : State),
    decodeCommand (packCommand 0x10 arg data) = .ok (.bwInit (data.extractLsb' 0 32)) ∧
    exec (.bwInit (data.extractLsb' 0 32)) s =
      .next
        { s with
          bw := { cap := data.toNat % 2 ^ 32, acc := 0, free := 8, nbytes := 0, total := 0, cfg := true,
                  fault := .none, out := s.bw.out }
          resp := { s.resp with bw := ⟨.ok, 0⟩ } }

/-- `BW_WRITE_BIT` appends one bit, as `BW_WRITE_BITS 1` does (R132). -/
def Obligations.BwWriteBitAppends : Prop :=
  ∀ (arg : BitVec 8) (data : BitVec 64) (s : State),
    decodeCommand (packCommand 0x11 arg data) = .ok (.bwWriteBit (data.extractLsb' 0 1)) ∧
    (s.bw.ready = true → s.bw.Inv →
      WritesBits (.bwWriteBit (data.extractLsb' 0 1)) s [data.getLsbD 0]) ∧
    exec (.bwWriteBit (data.extractLsb' 0 1)) s = exec (.bwWriteBits 1 data) s

/-- `BW_WRITE_BITS` appends the low `len` bits of its value, most significant first; `len > 32` is refused (R134). -/
def Obligations.BwWriteBitsAppends : Prop :=
  ∀ (len : BitVec 8) (value : Value) (s : State),
    decodeCommand (packCommand 0x12 len value) = .ok (.bwWriteBits len value) ∧
    (32 < len.toNat → exec (.bwWriteBits len value) s =
      .next { s with resp := { s.resp with bw := ⟨.illegalCommand, 0⟩ } }) ∧
    (len.toNat ≤ 32 → s.bw.ready = true → s.bw.Inv →
      WritesBits (.bwWriteBits len value) s (fieldBits value.toNat len.toNat))

/-- `BW_WRITE_BITS64` does the same for up to 64 bits, and equals `BW_WRITE_BITS` up to 32 (R135). -/
def Obligations.BwWriteBits64Appends : Prop :=
  ∀ (len : BitVec 8) (value : Value) (s : State),
    decodeCommand (packCommand 0x13 len value) = .ok (.bwWriteBits64 len value) ∧
    (64 < len.toNat → exec (.bwWriteBits64 len value) s =
      .next { s with resp := { s.resp with bw := ⟨.illegalCommand, 0⟩ } }) ∧
    (len.toNat ≤ 64 → s.bw.ready = true → s.bw.Inv →
      WritesBits (.bwWriteBits64 len value) s (fieldBits value.toNat len.toNat)) ∧
    (len.toNat ≤ 32 → exec (.bwWriteBits64 len value) s = exec (.bwWriteBits len value) s)

/-- `BW_ALIGN` and `BW_FLUSH` pad with zero bits to the next byte boundary and answer their number; a second flush
changes nothing but the answer (R136, R137, R77). -/
def Obligations.BwAlignPadsToByte : Prop :=
  ∀ (arg : BitVec 8) (data : BitVec 64) (s : State) (i : Instr), i = .bwAlign ∨ i = .bwFlush →
    s.bw.ready = true → s.bw.Inv →
      (decodeCommand (packCommand 0x14 arg data) = .ok .bwAlign ∧
        decodeCommand (packCommand 0x15 arg data) = .ok .bwFlush) ∧
      exec .bwFlush s = exec .bwAlign s ∧
      WritesBits i s (List.replicate (8 * ((s.bw.total + 7) / 8) - s.bw.total) false) ∧
      ∀ t, exec i s = .next t → t.bw.fault = .none →
        t.bw.free = 8 ∧ t.bw.acc = 0 ∧ t.bw.total = 8 * t.bw.nbytes ∧
        exec .bwFlush t = .next { t with resp := { t.resp with bw := ⟨.ok, 0⟩ } }

/-- The byte-wise writer computes the same as the bit-wise one (R139). -/
def Obligations.BytewiseWriterAgrees : Prop :=
  ∀ (w : Bw) (v n : Nat), w.Inv → n ≤ 64 → w.emitBytewise v n = w.emit (natBits v n)

/-! ### The reader -/

/-- `BR_INIT` constructs a reader in every state, its lookahead empty, and leaves `IN` (R150). -/
def Obligations.BrInitConstructsReader : Prop :=
  ∀ (arg : BitVec 8) (data : BitVec 64) (s : State),
    decodeCommand (packCommand 0x20 arg data) = .ok (.brInit (data.extractLsb' 0 32)) ∧
    exec (.brInit (data.extractLsb' 0 32)) s =
      .next
        { s with
          br := { len := data.toNat % 2 ^ 32, pos := 0, held := [], cfg := true, fault := .none, inp := s.br.inp }
          resp := { s.resp with br := ⟨.ok, 0⟩ } }

/-- The reading commands answer the next bits, most significant first; a length out of range is refused (R152 to
R154). -/
def Obligations.BrReadsNextBits : Prop :=
  ∀ (len arg : BitVec 8) (data : BitVec 64) (s : State),
    (decodeCommand (packCommand 0x21 arg data) = .ok .brReadBit ∧
      decodeCommand (packCommand 0x22 len data) = .ok (.brReadBits len) ∧
      decodeCommand (packCommand 0x23 len data) = .ok (.brReadBits64 len)) ∧
    (32 < len.toNat → exec (.brReadBits len) s =
      .next { s with resp := { s.resp with br := ⟨.illegalCommand, 0⟩ } }) ∧
    (64 < len.toNat → exec (.brReadBits64 len) s =
      .next { s with resp := { s.resp with br := ⟨.illegalCommand, 0⟩ } }) ∧
    (s.br.ready = true →
      ReadsBits .brReadBit s 1 ∧
      (len.toNat ≤ 32 → ReadsBits (.brReadBits len) s len.toNat) ∧
      (len.toNat ≤ 64 → ReadsBits (.brReadBits64 len) s len.toNat)) ∧
    exec .brReadBit s = exec (.brReadBits 1) s ∧
    (len.toNat ≤ 32 → exec (.brReadBits64 len) s = exec (.brReadBits len) s)

/-- `BR_ALIGN` moves the cursor to the next byte boundary, answers how far, and never passes the end (R155). -/
def Obligations.BrAlignDiscardsToByte : Prop :=
  ∀ (arg : BitVec 8) (data : BitVec 64) (s : State), s.br.ready = true → s.br.Inv →
    decodeCommand (packCommand 0x24 arg data) = .ok .brAlign ∧
    exec .brAlign s =
      .next
        { s with
          br := { s.br with pos := 8 * ((s.br.pos + 7) / 8) }
          resp := { s.resp with br := ⟨.ok, BitVec.ofNat 64 (8 * ((s.br.pos + 7) / 8) - s.br.pos)⟩ } } ∧
    8 * ((s.br.pos + 7) / 8) ≤ 8 * s.br.len

/-- A reader over the bytes a writer stored reads back what was written (R157): after a write and a flush, the reader at
the bit where the write began sees the written bits. -/
def Obligations.ReaderRecoversWrites : Prop :=
  ∀ (w a b : Bw) (bs : Bits) (r : Br), w.Inv → w.emit bs = .ok a → a.emit (natBits 0 (padBits a.total)) = .ok b →
    (∀ k < b.nbytes, r.inp.read k = b.out.read k) → r.held = [] → b.nbytes ≤ r.len → r.pos = w.total →
      r.Faces bs ∧ r.take bs.length = .ok (bitsNat bs, { r with pos := a.total })

/-- What the host places in a byte space is there afterwards, and nothing else changes (R60, R78); a reader sees it but
for bytes already in its lookahead, which it sees as before or as stored (R72, R80, R312). The model's choices: the free
choice of the bytes held (notes/assumptions/9.md), the stop of a fill past the last address (18.md), the effect on an
active unit's output (19.md). -/
def Obligations.HostFillReachesItsSpace : Prop :=
  ∀ (s : State) (rest : List Event) (space : Space) (base : BitVec 32) (bytes : List Byte),
    s.inbox = .fill space base bytes :: rest →
      (2 ^ 32 < base.toNat + bytes.length → step s = .fault .noSuchAddress) ∧
      (base.toNat + bytes.length ≤ 2 ^ 32 →
        (space = .inp → ∃ r, step s = .next { s with inbox := rest, draws := s.draws + 1, br := r } ∧
          s.br.Receives r base.toNat bytes) ∧
        (space = .decIn →
          ∃ r, step s = .next { s with inbox := rest, draws := s.draws + 1, dec := { s.dec with br := r } } ∧
            s.dec.br.Receives r base.toNat bytes) ∧
        (space = .src →
          ∃ m, step s = .next { s with inbox := rest, draws := s.draws + 1, frm := { s.frm with src := m } } ∧
            s.frm.src.Stores m base.toNat bytes) ∧
        (space = .dst →
          ∃ m, step s = .next { s with inbox := rest, draws := s.draws + 1, frm := { s.frm with dst := m } } ∧
            s.frm.dst.Stores m base.toNat bytes) ∧
        (space = .out →
          ∃ m, step s = .next { s with inbox := rest, draws := s.draws + 1, bw := { s.bw with out := m } } ∧
            s.bw.out.Stores m base.toNat bytes) ∧
        (space = .cmpOut →
          ∃ m, step s =
              .next { s with inbox := rest, draws := s.draws + 1,
                             cmp := { s.cmp with bw := { s.cmp.bw with out := m } } } ∧
            s.cmp.bw.out.Stores m base.toNat bytes))

/-! ### The compressor -/

/-- `CMP_INIT` constructs a compressor in every state, `L > 21` apart, and leaves `cmp.OUT` (R170). -/
def Obligations.CmpInitConstructsCompressor : Prop :=
  ∀ (l : BitVec 8) (data : BitVec 64) (s : State),
    decodeCommand (packCommand 0x30 l data) = .ok (.cmpInit l (data.extractLsb' 0 32)) ∧
    (21 < l.toNat → exec (.cmpInit l (data.extractLsb' 0 32)) s =
      .next { s with resp := { s.resp with cmp := ⟨.illegalCommand, 0⟩ } }) ∧
    (l.toNat ≤ 21 → exec (.cmpInit l (data.extractLsb' 0 32)) s =
      .next
        { s with
          cmp := { L := l.toNat, first := true, win := [], cur := 0, gidx := 0, tab := [], slz := 65, size := 0,
                   closed := false, cfg := true, fault := .none
                   bw := { cap := data.toNat % 2 ^ 32, acc := 0, free := 8, nbytes := 0, total := 0, cfg := true,
                           fault := .none, out := s.cmp.bw.out } }
          resp := { s.resp with cmp := ⟨.ok, 0⟩ } })

/-- The first value is written raw, to slot 0 and position 0, with no other register changed (R173). -/
def Obligations.CmpFirstValueIsRaw : Prop :=
  ∀ (arg : BitVec 8) (i : Instr) (v : Value) (s : State), AddsValue i v → s.cmp.accepts = true → s.cmp.Inv →
    s.cmp.first = true →
    (decodeCommand (packCommand 0x31 arg v) = .ok (.cmpAddU64 v) ∧
      decodeCommand (packCommand 0x32 arg v) = .ok (.cmpAddF64 v)) ∧
    (s.cmp.cur = 0 ∧ s.cmp.gidx = 0 ∧ s.cmp.slz = 65) ∧
    (s.cmp.bw.HasRoom 64 →
      ∃ w, exec i s =
          .next
            { s with
              cmp :=
                { s.cmp with
                  bw := w, size := s.cmp.size + 64, first := false, win := s.cmp.win.write 0 v
                  tab := s.cmp.tab.write (keyOf s.cmp.L v) 0 }
              resp := { s.resp with cmp := ⟨.ok, 0⟩ } } ∧
        s.cmp.bw.Appends w (fieldBits v.toNat 64)) ∧
    (¬ s.cmp.bw.HasRoom 64 → Overruns i s)

/-- A value equal to its reference is coded `REP`, and such a reference is always an indexed one (R181). -/
def Obligations.CmpRepeatIsRep : Prop :=
  ∀ (i : Instr) (v : Value) (s : State), AddsValue i v → s.cmp.accepts = true → s.cmp.Inv → s.cmp.first = false →
    (s.cmp.Indexed v → s.cmp.entryDelta v = 0 →
      WritesCode i s v (fieldBits (s.cmp.entryOf v % windowSize s.cmp.L) (s.cmp.L + 2)) 65) ∧
    (¬ s.cmp.Indexed v → s.cmp.lastDelta v ≠ 0)

/-- An accepted indexed candidate that differs is coded `IDX` (R180, R183). -/
def Obligations.CmpIndexedDeltaIsIdx : Prop :=
  ∀ (i : Instr) (v : Value) (s : State) (lz tz : Nat), AddsValue i v → s.cmp.accepts = true → s.cmp.Inv →
    s.cmp.first = false → s.cmp.Indexed v → s.cmp.entryDelta v ≠ 0 →
    lz = bucket (bucketIndex (clz64 (s.cmp.entryDelta v))) → tz = ctz64 (s.cmp.entryDelta v) →
      (s.cmp.L + 7 ≤ tz ∧ tz ≤ 63) ∧ clz64 (s.cmp.entryDelta v) + tz ≤ 63 ∧
      (1 ≤ 64 - lz - tz ∧ 64 - lz - tz ≤ 57 - s.cmp.L) ∧
      ((s.cmp.entryDelta v).toNat / 2 ^ tz < 2 ^ (64 - lz - tz) ∧ (s.cmp.entryDelta v).toNat / 2 ^ tz % 2 = 1) ∧
      (2 ^ (s.cmp.L + 9) ≤
          512 * (windowSize s.cmp.L + s.cmp.entryOf v % windowSize s.cmp.L) +
            64 * (bucketIndex (clz64 (s.cmp.entryDelta v))).toNat + (64 - lz - tz) ∧
        512 * (windowSize s.cmp.L + s.cmp.entryOf v % windowSize s.cmp.L) +
            64 * (bucketIndex (clz64 (s.cmp.entryDelta v))).toNat + (64 - lz - tz) < 2 ^ (s.cmp.L + 10)) ∧
      WritesCode i s v
        (fieldBits
            (512 * (windowSize s.cmp.L + s.cmp.entryOf v % windowSize s.cmp.L) +
              64 * (bucketIndex (clz64 (s.cmp.entryDelta v))).toNat + (64 - lz - tz)) (s.cmp.L + 11) ++
          fieldBits ((s.cmp.entryDelta v).toNat / 2 ^ tz) (64 - lz - tz)) 65

/-- Without an indexed candidate, a difference in the stored bucket is coded `SAME` (R184). -/
def Obligations.CmpStoredBucketIsSame : Prop :=
  ∀ (i : Instr) (v : Value) (s : State) (lz : Nat), AddsValue i v → s.cmp.accepts = true → s.cmp.Inv →
    s.cmp.first = false → ¬ s.cmp.Indexed v → s.cmp.lastDelta v ≠ 0 →
    lz = bucket (bucketIndex (clz64 (s.cmp.lastDelta v))) → lz = s.cmp.slz →
      WritesCode i s v (fieldBits 2 2 ++ fieldBits (s.cmp.lastDelta v).toNat (64 - lz)) s.cmp.slz

/-- Without an indexed candidate, a difference in another bucket is coded `NEW` and its bucket is stored (R185). -/
def Obligations.CmpOtherBucketIsNew : Prop :=
  ∀ (i : Instr) (v : Value) (s : State) (lz : Nat), AddsValue i v → s.cmp.accepts = true → s.cmp.Inv →
    s.cmp.first = false → ¬ s.cmp.Indexed v → s.cmp.lastDelta v ≠ 0 →
    lz = bucket (bucketIndex (clz64 (s.cmp.lastDelta v))) → lz ≠ s.cmp.slz →
      WritesCode i s v
        (fieldBits (24 + (bucketIndex (clz64 (s.cmp.lastDelta v))).toNat) 5 ++
          fieldBits (s.cmp.lastDelta v).toNat (64 - lz)) lz

/-- The indexed candidate is accepted exactly when a value with the key of `v` is still in the window, and it is then
the most recent such value (R179). -/
def Obligations.IndexedCandidateIsMostRecentKey : Prop :=
  ∀ (c : Cmp) (v : Value), c.Inv → c.first = false →
    (c.Indexed v ↔ ∃ p, c.Live p ∧ keyOf c.L (c.at p) = keyOf c.L v) ∧
    (c.Indexed v → c.Live (c.entryOf v) ∧ keyOf c.L (c.at (c.entryOf v)) = keyOf c.L v ∧
      ∀ p, c.Live p → keyOf c.L (c.at p) = keyOf c.L v → p ≤ c.entryOf v)

/-- `CMP_CLOSE` codes the sentinel like any value, writes the zero bit, pads to a byte and closes; the size counts the
code and not the trailer; where the capacity does not hold all that, it overruns (R188, R191). -/
def Obligations.CmpCloseEndsStream : Prop :=
  ∀ (arg : BitVec 8) (data : BitVec 64) (s : State) (bits : Bits), s.cmp.accepts = true → s.cmp.Inv →
    bits = encodeCode s.cmp.codeCtx (s.cmp.codeOf sentinel) →
    decodeCommand (packCommand 0x33 arg data) = .ok .cmpClose ∧
    (s.cmp.bw.cap < (s.cmp.bw.total + bits.length + 1 + 7) / 8 → Overruns .cmpClose s) ∧
    ((s.cmp.bw.total + bits.length + 1 + 7) / 8 ≤ s.cmp.bw.cap →
      ∃ c, exec .cmpClose s = .next { s with cmp := c, resp := { s.resp with cmp := ⟨.ok, 0⟩ } } ∧
        c.closed = true ∧ c.first = false ∧ c.cfg = true ∧ c.fault = .none ∧ c.L = s.cmp.L ∧
        c.size = s.cmp.size + bits.length ∧ c.bw.free = 8 ∧ c.bw.acc = 0 ∧
        c.bw.total = 8 * ((c.size + 1 + 7) / 8) ∧ c.bw.nbytes = (c.size + 1 + 7) / 8 ∧
        s.cmp.bw.Appends c.bw (bits ++ List.replicate (c.bw.total - c.size) false) ∧
        c.win = s.cmp.win.write (if s.cmp.first then 0 else (s.cmp.cur + 1) % windowSize s.cmp.L) sentinel ∧
        c.gidx = (if s.cmp.first then 0 else s.cmp.gidx + 1) ∧
        c.tab = s.cmp.tab.write (keyOf s.cmp.L sentinel) c.gidx ∧
        c.cur = (if s.cmp.first then 0 else (s.cmp.cur + 1) % windowSize s.cmp.L) ∧
        c.slz = slzAfter s.cmp.slz (s.cmp.codeOf sentinel))

/-- Closing a stream without values writes the raw sentinel, a zero bit and seven zeros (R192). -/
def Obligations.EmptyStreamIsRawSentinel : Prop :=
  ∀ s : State, s.cmp.accepts = true → s.cmp.Inv → s.cmp.first = true → 9 ≤ s.cmp.bw.cap →
    ∃ t, exec .cmpClose s = .next t ∧ t.resp.cmp = ⟨.ok, 0⟩ ∧ t.cmp.size = 64 ∧ t.cmp.bw.total = 72 ∧
      t.cmp.bw.nbytes = 9 ∧ t.cmp.bw.out.readBytes 0 9 = [0x7F, 0xF8, 0, 0, 0, 0, 0, 0, 0]

/-- The read-out commands answer the byte count and the bit count and change nothing else (R193, R194). -/
def Obligations.CmpReadoutChangesNothing : Prop :=
  ∀ (arg : BitVec 8) (data : BitVec 64) (s : State), s.cmp.ready = true →
    decodeCommand (packCommand 0x34 arg data) = .ok .cmpGetOutput ∧
    decodeCommand (packCommand 0x35 arg data) = .ok .cmpGetSize ∧
    exec .cmpGetOutput s =
      .next { s with resp := { s.resp with cmp := ⟨.ok, BitVec.ofNat 64 s.cmp.bw.nbytes⟩ } } ∧
    exec .cmpGetSize s = .next { s with resp := { s.resp with cmp := ⟨.ok, BitVec.ofNat 64 s.cmp.size⟩ } }

/-! ### The decompressor -/

/-- `DEC_INIT` constructs a decompressor in every state, `L > 21` apart, and leaves `dec.IN` (R210). -/
def Obligations.DecInitConstructsDecompressor : Prop :=
  ∀ (l : BitVec 8) (data : BitVec 64) (s : State),
    decodeCommand (packCommand 0x40 l data) = .ok (.decInit l (data.extractLsb' 0 32) (data.extractLsb' 32 32)) ∧
    (21 < l.toNat → exec (.decInit l (data.extractLsb' 0 32) (data.extractLsb' 32 32)) s =
      .next { s with resp := { s.resp with dec := ⟨.illegalCommand, 0⟩ } }) ∧
    (l.toNat ≤ 21 → exec (.decInit l (data.extractLsb' 0 32) (data.extractLsb' 32 32)) s =
      .next
        { s with
          dec := { L := l.toNat, sv := 0, slz := 65, stz := 0, win := [], cur := 0, first := true, eos := false
                   budget := data.toNat / 2 ^ 32, cnt := 0, emitted := 0, outq := [], cfg := true, fault := .none
                   br := { len := data.toNat % 2 ^ 32, pos := 0, held := [], cfg := true, fault := .none
                           inp := s.dec.br.inp } }
          resp := { s.resp with dec := ⟨.ok, 0⟩ } })

/-- `RAW64` is the first value: into slot 0, one slot filled, and the end if it is the sentinel (R212). -/
def Obligations.Raw64FillsSlotZero : Prop :=
  ∀ (v : Value) (s : State),
    (v ≠ sentinel → exec (.raw64 v) s =
      .next { s with dec := { s.dec with first := false, sv := v, win := s.dec.win.write 0 v, cnt := 1 } }) ∧
    (v = sentinel → ∃ sv, exec (.raw64 v) s =
      .next { s with dec := { s.dec with first := false, sv := sv, win := s.dec.win.write 0 v, cnt := 1,
                                         eos := true } })

/-- `REP` pushes the value in its slot with no sentinel test and unsets the bucket; an empty slot is malformed (R217).
That the code run alone answers the fault in `dec`'s response register, and that `cfg` is kept, are the model's choices
(notes/assumptions/5.md and 6.md). -/
def Obligations.RepPushesSlot : Prop :=
  ∀ (slot : Slot) (s : State),
    (slot.toNat < s.dec.cnt → exec (.rep slot) s =
      .next { s with dec := { s.dec with slz := 65 }.pushed (s.dec.win.read slot.toNat) }) ∧
    (s.dec.cnt ≤ slot.toNat → DecodingStops (.rep slot) s .malformedStream)

/-- `IDX` delivers the slot's value with the shifted payload xored in; a count that does not fit or an empty slot is
malformed (R216). That the code run alone answers the fault in `dec`'s response register, and that `cfg` is kept, are the
model's choices (notes/assumptions/5.md and 6.md). -/
def Obligations.IdxDeliversShiftedDelta : Prop :=
  ∀ (slot : Slot) (lzc : BitVec 3) (sig : BitVec 6) (payload : Value) (s : State) (S : Nat),
    S = (if sig = 0 then 64 else sig.toNat) →
    (S + bucket lzc ≤ 64 → slot.toNat < s.dec.cnt →
      ∃ d, exec (.idx slot lzc sig payload) s = .next { s with dec := d } ∧
        Delivered { s.dec with slz := 65, stz := 64 - S - bucket lzc } d
          (s.dec.win.read slot.toNat ^^^ (payload <<< (64 - S - bucket lzc)))) ∧
    (64 < S + bucket lzc ∨ s.dec.cnt ≤ slot.toNat → DecodingStops (.idx slot lzc sig payload) s .malformedStream)

/-- `SAME` delivers the last value with the payload xored in and keeps the bucket; without a stored bucket it is
malformed (R215). That the code run alone answers the fault in `dec`'s response register, and that `cfg` is kept, are the
model's choices (notes/assumptions/5.md and 6.md). -/
def Obligations.SameDeliversDelta : Prop :=
  ∀ (payload : Value) (s : State),
    (s.dec.slz ≠ 65 →
      ∃ d, exec (.same payload) s = .next { s with dec := d } ∧ Delivered s.dec d (s.dec.sv ^^^ payload)) ∧
    (s.dec.slz = 65 → DecodingStops (.same payload) s .malformedStream)

/-- `NEW` stores its bucket and delivers the last value with the payload xored in (R214). -/
def Obligations.NewDeliversDelta : Prop :=
  ∀ (lzc : BitVec 3) (payload : Value) (s : State),
    ∃ d, exec (.new lzc payload) s = .next { s with dec := d } ∧
      Delivered { s.dec with slz := bucket lzc } d (s.dec.sv ^^^ payload)

/-- `TERM` changes nothing (R97, R222). -/
def Obligations.TermChangesNothing : Prop :=
  ∀ (pad : BitVec 3) (s : State), exec (.term pad) s = .next s

/-- `DEC_NEXT` and `DEC_READ_VALUE` take the code at the cursor: what they leave in `DEC` is what the code leaves, run
with the cursor past it; the read answers the value, or the pattern of `-1.0` at the end (R211, R220). -/
def Obligations.DecNextTakesCodeAtCursor : Prop :=
  ∀ (arg : BitVec 8) (data : BitVec 64) (s : State) (c : Code) (more : Bits), s.dec.ready = true → s.dec.eos = false →
    decodeCode s.dec.codeCtx s.dec.upcoming = .ok (c, more) →
      (decodeCommand (packCommand 0x41 arg data) = .ok .decNext ∧
        decodeCommand (packCommand 0x42 arg data) = .ok .decReadValue) ∧
      ∃ d, exec c.toInstr
            { s with
              dec := { s.dec with
                       br := { s.dec.br with pos := s.dec.br.pos + (s.dec.upcoming.length - more.length) } } } =
          .next { s with dec := d } ∧
        exec .decNext s = .next { s with dec := d, resp := { s.resp with dec := ⟨.ok, 0⟩ } } ∧
        exec .decReadValue s =
          .next { s with dec := d, resp := { s.resp with
                    dec := ⟨.ok, if d.eos then 0xBFF0000000000000#64 else d.sv⟩ } }

/-- `DEC_READ_VALUE` is a value step whose answer is the value, or the pattern of `-1.0` once the stream has ended; it
faults as the value step does (R220). -/
def Obligations.DecReadValueIsNextThenRead : Prop :=
  ∀ (arg : BitVec 8) (data : BitVec 64) (s a : State), s.dec.ready = true → exec .decNext s = .next a →
    decodeCommand (packCommand 0x42 arg data) = .ok .decReadValue ∧
    (a.resp.dec.status = .ok → exec .decReadValue s =
      .next { a with resp := { a.resp with
                dec := ⟨.ok, if a.dec.eos then 0xBFF0000000000000#64 else a.dec.sv⟩ } }) ∧
    (a.resp.dec.status ≠ .ok → exec .decReadValue s = .next a)

/-- A stream that ends too early or is malformed stops every decoding command with the fault of its first cause (R103,
R211, R274, R278): missing bits of the first value, the flag, a bucket index, a packed field, a slot or a payload exhaust
the input; `SAME` with no bucket, `IDX` with a width that does not fit or an empty slot, `REP` of an empty slot are
malformed, whether or not a payload follows. A well-formed code that is all there does not stop `DEC_NEXT`. That `cfg` is
kept is the model's choice (notes/assumptions/6.md). -/
def Obligations.BadCodeStopsDecoding : Prop :=
  ∀ s : State, s.dec.ready = true → s.dec.eos = false →
    (s.dec.first = true → s.dec.br.Short 64 → StopsDecoding s .inputExhausted) ∧
    (s.dec.first = false →
      (s.dec.br.Short 2 → StopsDecoding s .inputExhausted) ∧
      (s.dec.br.Faces (fieldBits 3 2) →
        (s.dec.br.Short 5 → StopsDecoding s .inputExhausted) ∧
        ∀ lzc : BitVec 3, s.dec.br.Faces (fieldBits 3 2 ++ fieldBits lzc.toNat 3) →
          s.dec.br.Short (5 + (64 - bucket lzc)) → StopsDecoding s .inputExhausted) ∧
      (s.dec.br.Faces (fieldBits 2 2) →
        (s.dec.slz = 65 → StopsDecoding s .malformedStream) ∧
        (s.dec.slz ≠ 65 → s.dec.br.Short (2 + (64 - s.dec.slz)) → StopsDecoding s .inputExhausted)) ∧
      (s.dec.br.Faces (fieldBits 1 2) →
        (s.dec.br.Short (s.dec.L + 11) → StopsDecoding s .inputExhausted) ∧
        ∀ (slot S : Nat) (lzc : BitVec 3) (sig : BitVec 6), slot < 2 ^ s.dec.L →
          S = (if sig = 0 then 64 else sig.toNat) →
          s.dec.br.Faces
              (fieldBits 1 2 ++ fieldBits slot s.dec.L ++ fieldBits lzc.toNat 3 ++ fieldBits sig.toNat 6) →
            (64 < S + bucket lzc ∨ s.dec.cnt ≤ slot → StopsDecoding s .malformedStream) ∧
            (S + bucket lzc ≤ 64 → slot < s.dec.cnt → s.dec.br.Short (s.dec.L + 11 + S) →
              StopsDecoding s .inputExhausted)) ∧
      (s.dec.br.Faces (fieldBits 0 2) →
        (s.dec.br.Short (2 + s.dec.L) → StopsDecoding s .inputExhausted) ∧
        ∀ slot < 2 ^ s.dec.L, s.dec.br.Faces (fieldBits 0 2 ++ fieldBits slot s.dec.L) → s.dec.cnt ≤ slot →
          StopsDecoding s .malformedStream)) ∧
    (∀ e : CodeError, decodeCode s.dec.codeCtx s.dec.upcoming = .error e →
      StopsDecoding s (if e = .exhausted then .inputExhausted else .malformedStream)) ∧
    ∀ c : Code, c.wf s.dec.codeCtx = true → s.dec.br.Faces (encodeCode s.dec.codeCtx c) →
      ∃ t, exec .decNext s = .next t ∧ t.resp.dec = ⟨.ok, 0⟩

/-- After the end of the stream the decoding commands change nothing but the answer (R222). -/
def Obligations.AfterEndNothingIsRead : Prop :=
  ∀ s : State, s.dec.ready = true → s.dec.eos = true →
    exec .decNext s = .next { s with resp := { s.resp with dec := ⟨.ok, 0⟩ } } ∧
    exec .decReadValue s = .next { s with resp := { s.resp with dec := ⟨.ok, 0xBFF0000000000000#64⟩ } } ∧
    exec .decGetValues s = .next { s with resp := { s.resp with dec := ⟨.ok, 0⟩ } }

/-- `DEC_GET_VALUES` delivers one value at a time, the budget tested first: with the budget used up it reads nothing,
and otherwise it is one value step, the value appended and counted, and the command again (R221). -/
def Obligations.DecGetValuesDeliversOneByOne : Prop :=
  ∀ s : State, s.dec.ready = true →
    (s.dec.budget ≤ s.dec.emitted →
      exec .decGetValues s = .next { s with resp := { s.resp with dec := ⟨.ok, 0⟩ } }) ∧
    (∀ a : State, s.dec.emitted < s.dec.budget → exec .decNext s = .next a → a.resp.dec.status ≠ .ok →
      exec .decGetValues s = .next a) ∧
    ∀ a : State, s.dec.emitted < s.dec.budget → exec .decNext s = .next a → a.resp.dec.status = .ok →
      (a.dec.eos = true →
        exec .decGetValues s = .next { s with dec := a.dec, resp := { s.resp with dec := ⟨.ok, 0⟩ } }) ∧
      (a.dec.eos = false →
        ∀ b, exec .decGetValues
              { s with dec := { a.dec with outq := s.dec.outq ++ [a.dec.sv], emitted := s.dec.emitted + 1 } } =
            .next b →
          (b.resp.dec.status = .ok → exec .decGetValues s =
            .next { b with resp := { b.resp with dec := ⟨.ok, b.resp.dec.data + 1⟩ } }) ∧
          (b.resp.dec.status ≠ .ok → exec .decGetValues s = .next b))

/-- With one value left in the budget, `DEC_GET_VALUES` takes the one code at the cursor and delivers its value, or
stops at the end of the stream (R221). -/
def Obligations.DecGetValuesDeliversLastValue : Prop :=
  ∀ (arg : BitVec 8) (data : BitVec 64) (s : State) (c : Code) (more : Bits),
    s.dec.ready = true → s.dec.eos = false → s.dec.budget = s.dec.emitted + 1 →
    decodeCode s.dec.codeCtx s.dec.upcoming = .ok (c, more) →
      decodeCommand (packCommand 0x43 arg data) = .ok .decGetValues ∧
      ∃ d, exec c.toInstr
            { s with
              dec := { s.dec with
                       br := { s.dec.br with pos := s.dec.br.pos + (s.dec.upcoming.length - more.length) } } } =
          .next { s with dec := d } ∧
        exec .decGetValues s =
          .next
            { s with
              dec := if d.eos then d else { d with outq := s.dec.outq ++ [d.sv], emitted := s.dec.emitted + 1 }
              resp := { s.resp with dec := ⟨.ok, if d.eos then 0 else 1⟩ } }

/-- The decompressor follows the compressor: when it faces the bits of the code that the compressor writes for a value
other than the sentinel, its value step ends in step again, with that value decoded; for the sentinel it ends the
stream (R225). -/
def Obligations.DecoderFollowsCompressor : Prop :=
  ∀ (c c' : Cmp) (d : Dec) (v : Value) (n : Nat), c.Inv → d.Inv → InStep c d → c.compressValue v = .ok c' →
    d.br.Faces (encodeCode c.codeCtx (c.codeOf v)) →
      ∃ d', d.nextValue n = .ok d' ∧ d'.br.pos = c'.bw.total ∧ d'.emitted = d.emitted ∧ d'.outq = d.outq ∧
        d'.budget = d.budget ∧
        (v ≠ sentinel → InStep c' d' ∧ d'.sv = v) ∧
        (v = sentinel → (∀ i < d.cnt, d.win.read i ≠ sentinel) → d'.eos = true)

/-- Lossless round trip (R225): the values that were added between a construction and a close without fault, none of
them the sentinel, are what a decompressor with the same window delivers from the bytes; with a larger budget it then
stands at the end of the stream. -/
def Obligations.DecompressionInvertsCompression : Prop :=
  ∀ (s t r : State) (l : BitVec 8) (cap len budget : BitVec 32) (adds : List Instr) (vs : List Value), s.Canonical →
    l.toNat ≤ 21 → sentinel ∉ vs → List.Forall₂ AddsValue adds vs →
    t = s.after (.cmpInit l cap :: adds ++ [.cmpClose]) → t.cmp.fault = .none →
    (t.cmp.size + 7) / 8 ≤ len.toNat → (∀ a < (t.cmp.size + 7) / 8, r.dec.br.inp.read a = t.cmp.bw.out.read a) →
    vs.length ≤ budget.toNat →
      ∃ a b, exec (.decInit l len budget) r = .next a ∧ exec .decGetValues a = .next b ∧
        b.resp.dec = ⟨.ok, BitVec.ofNat 64 vs.length⟩ ∧ b.dec.outq = vs ∧
        (vs.length < budget.toNat → b.dec.eos = true ∧ b.dec.br.pos = t.cmp.size)

/-! ### The framing layer -/

/-- Compression inside `FRM_COMPRESS` never overruns its buffer, and its payload is never longer than the bound of R259
(R16, R251, R259). -/
def Obligations.FramingNeverOverruns : Prop :=
  ∀ (f : Framer) (vs : List Value),
    ∃ c, f.compressStream vs = .ok c ∧ payloadBytes c ≤ (64 + 69 * vs.length + 7) / 8

/-- `FRM_COMPRESS` writes count and payload and answers the frame's length; its capacity tests come in the order of
R253 and nothing at or beyond the capacity is written (R250, R253). The payload is what the compressor's commands make
of the source's little-endian values (R65): from a construction with `L = 7` and the capacity of R251, one
`CMP_ADD_U64` for each and a `CMP_CLOSE` (R49, R250). -/
def Obligations.FrmCompressWritesFrame : Prop :=
  ∀ (arg : BitVec 8) (sourceLen destCapacity : BitVec 32) (s : State) (n : Nat),
    decodeCommand (packCommand 0x50 arg (destCapacity ++ sourceLen)) = .ok (.frmCompress sourceLen destCapacity) ∧
    (sourceLen.toNat % 8 ≠ 0 → exec (.frmCompress sourceLen destCapacity) s =
      .next { s with resp := { s.resp with frm := ⟨.illegalCommand, 0⟩ } }) ∧
    (sourceLen.toNat = 8 * n → destCapacity.toNat < 4 → exec (.frmCompress sourceLen destCapacity) s =
      .next { s with resp := { s.resp with frm := ⟨.bufferTooSmall, 0⟩ } }) ∧
    (sourceLen.toNat = 8 * n → 4 ≤ destCapacity.toNat →
      ∃ c, s.frm.compressStream (s.frm.src.readValues n) = .ok c ∧ (c.size + 7) / 8 ≤ (64 + 69 * n + 7) / 8 ∧
        (∀ (vs : List Value) (r : State), vs.length = n →
          (∀ i < n, ∀ j < 8, (vs.getD i 0).toNat / 256 ^ j % 256 = (s.frm.src.read (8 * i + j)).toNat) →
          r.cmp =
            { L := 7, first := true, win := [], cur := 0, gidx := 0, tab := [], slz := 65, size := 0, closed := false
              cfg := true, fault := .none
              bw := { cap := (65 + 69 * n + 7) / 8, acc := 0, free := 8, nbytes := 0, total := 0, cfg := true
                      fault := .none, out := s.frm.cmp.bw.out } } →
          (r.after (vs.map Instr.cmpAddU64 ++ [.cmpClose])).cmp = c) ∧
        c.closed = true ∧ c.fault = .none ∧
        (4 + (c.size + 7) / 8 ≤ destCapacity.toNat →
          ∃ dst, exec (.frmCompress sourceLen destCapacity) s =
              .next { s with frm := { s.frm with cmp := c, dst := dst }
                             resp := { s.resp with frm := ⟨.ok, BitVec.ofNat 64 (4 + (c.size + 7) / 8)⟩ } } ∧
            dst = (s.frm.dst.writeBytes 0 (leBytes n 4)).writeBytes 4 (c.bw.out.readBytes 0 ((c.size + 7) / 8)) ∧
            (s.Canonical →
              (∀ j < 4, (dst.read j).toNat = n / 256 ^ j % 256) ∧
              (∀ j < (c.size + 7) / 8, dst.read (4 + j) = c.bw.out.read j) ∧
              ∀ a, 4 + (c.size + 7) / 8 ≤ a → dst.read a = s.frm.dst.read a)) ∧
        (destCapacity.toNat < 4 + (c.size + 7) / 8 →
          ∃ dst, exec (.frmCompress sourceLen destCapacity) s =
              .next { s with frm := { s.frm with cmp := c, dst := dst }
                             resp := { s.resp with frm := ⟨.bufferTooSmall, 0⟩ } } ∧
            ∀ a, destCapacity.toNat ≤ a → dst.read a = s.frm.dst.read a))

/-- `FRM_DECOMPRESS` tests the header, then the capacity, then decodes to the count as budget, writes the values
delivered and answers their bytes; a decoding fault is only a status, and nothing beyond the announced bytes is written
(R255, R256, R257). The count and the values are little-endian (R65, R104), and the values are what `DEC_GET_VALUES`
delivers over the payload after a construction with `L = 7` and the count as budget (R49, R255). -/
def Obligations.FrmDecompressWritesValues : Prop :=
  ∀ (arg : BitVec 8) (sourceLen destCapacity : BitVec 32) (s : State) (count : Nat),
    count = (s.frm.src.read 0).toNat + 256 * (s.frm.src.read 1).toNat + 256 ^ 2 * (s.frm.src.read 2).toNat +
      256 ^ 3 * (s.frm.src.read 3).toNat →
    decodeCommand (packCommand 0x51 arg (destCapacity ++ sourceLen)) = .ok (.frmDecompress sourceLen destCapacity) ∧
    count = leNat (s.frm.src.readBytes 0 4) ∧
    (sourceLen.toNat < 4 → exec (.frmDecompress sourceLen destCapacity) s =
      .next { s with resp := { s.resp with frm := ⟨.malformedStream, 0⟩ } }) ∧
    (4 ≤ sourceLen.toNat → destCapacity.toNat < 8 * count → exec (.frmDecompress sourceLen destCapacity) s =
      .next { s with resp := { s.resp with frm := ⟨.bufferOverflow, 0⟩ } }) ∧
    (4 ≤ sourceLen.toNat → 8 * count ≤ destCapacity.toNat →
      (∀ d, s.frm.decompressStream s.draws sourceLen.toNat = .ok d →
        d.outq.length ≤ count ∧
        exec (.frmDecompress sourceLen destCapacity) s =
          .next
            { s with
              frm := { s.frm with dec := d, dst := s.frm.dst.writeBytes 0 (valueBytes d.outq) }
              resp := { s.resp with frm := ⟨.ok, BitVec.ofNat 64 (8 * d.outq.length)⟩ } }) ∧
      (∀ f, s.frm.decompressStream s.draws sourceLen.toNat = .error f →
        ∃ d dst, exec (.frmDecompress sourceLen destCapacity) s =
            .next { s with frm := { s.frm with dec := d, dst := dst }
                           resp := { s.resp with frm := ⟨f.status, 0⟩ } } ∧
          ∀ a, 8 * count ≤ a → dst.read a = s.frm.dst.read a) ∧
      ∀ r b : State, s.Canonical →
        r.dec =
          { L := 7, sv := 0, slz := 65, stz := 0, win := [], cur := 0, first := true, eos := false, budget := count
            cnt := 0, emitted := 0, outq := [], cfg := true, fault := .none
            br := { len := sourceLen.toNat - 4, pos := 0, held := [], cfg := true, fault := .none
                    inp := r.dec.br.inp } } →
        (∀ a < sourceLen.toNat - 4, r.dec.br.inp.read a = s.frm.src.read (4 + a)) →
        exec .decGetValues r = .next b →
          (b.resp.dec.status = .ok →
            b.dec.outq.length ≤ count ∧
            ∃ d dst, exec (.frmDecompress sourceLen destCapacity) s =
                .next { s with frm := { s.frm with dec := d, dst := dst }
                               resp := { s.resp with frm := ⟨.ok, BitVec.ofNat 64 (8 * b.dec.outq.length)⟩ } } ∧
              (∀ i < b.dec.outq.length, ∀ j < 8,
                (dst.read (8 * i + j)).toNat = (b.dec.outq.getD i 0).toNat / 256 ^ j % 256) ∧
              ∀ a, 8 * b.dec.outq.length ≤ a → dst.read a = s.frm.dst.read a) ∧
          (b.resp.dec.status ≠ .ok →
            ∃ d dst, exec (.frmDecompress sourceLen destCapacity) s =
                .next { s with frm := { s.frm with dec := d, dst := dst }
                               resp := { s.resp with frm := ⟨b.resp.dec.status, 0⟩ } } ∧
              ∀ a, 8 * count ≤ a → dst.read a = s.frm.dst.read a))

/-- Round trip of a frame (R258): compressing `N` values, none of them the sentinel, gives the same frame from every
state with these source bytes, and decompressing the frame gives the bytes back. -/
def Obligations.FrameRoundTrip : Prop :=
  ∀ (s t : State) (vs : List Value) (sourceLen destCapacity : BitVec 32) (F : Nat), s.Canonical → sentinel ∉ vs →
    sourceLen.toNat = 8 * vs.length → s.frm.src.readValues vs.length = vs →
    4 + (64 + 69 * vs.length + 7) / 8 ≤ destCapacity.toNat →
    exec (.frmCompress sourceLen destCapacity) s = .next t → F = t.resp.frm.data.toNat →
      t.resp.frm.status = .ok ∧ F ≤ destCapacity.toNat ∧
      (∀ s₂ t₂ : State, s₂.Canonical → s₂.frm.src.readValues vs.length = vs →
        exec (.frmCompress sourceLen destCapacity) s₂ = .next t₂ →
          t₂.resp.frm = t.resp.frm ∧ ∀ a < F, t₂.frm.dst.read a = t.frm.dst.read a) ∧
      ∀ (r : State) (frameLen cap : BitVec 32), r.Canonical → frameLen.toNat = F → 8 * vs.length ≤ cap.toNat →
        (∀ a < F, r.frm.src.read a = t.frm.dst.read a) →
          ∃ b, exec (.frmDecompress frameLen cap) r = .next b ∧
            b.resp.frm = ⟨.ok, BitVec.ofNat 64 (8 * vs.length)⟩ ∧
            ∀ a < 8 * vs.length, b.frm.dst.read a = s.frm.src.read a
end

