-- ==== Sys2Proof/Laws/Bits.lean ====
section
/-! SUPPORT. Bit strings and numbers, little-endian bytes, padding. -/

namespace Sys2Proof

/-! ### Bit strings -/

@[simp] theorem natBits_length (v n : Nat) : (natBits v n).length = n := by
  induction n with
  | zero => rfl
  | succ n ih => simp [natBits, ih]

/-- Bit `j` of `emit(v, n)` is bit `n - 1 - j` of `v`. -/
theorem natBits_getD (v n j : Nat) (h : j < n) : (natBits v n).getD j false = v.testBit (n - 1 - j) := by
  induction n generalizing j with
  | zero => omega
  | succ n ih =>
    cases j with
    | zero => simp [natBits]
    | succ j =>
      simp only [natBits, List.getD_cons_succ]
      rw [ih j (by omega)]
      congr 1; omega

theorem natBits_append (v m n : Nat) : natBits v (m + n) = natBits (v / 2 ^ n) m ++ natBits v n := by
  induction m with
  | zero => simp [natBits]
  | succ m ih => rw [Nat.succ_add]; simp [natBits, ih, Nat.testBit_div_two_pow]

theorem natBits_congr {v w n : Nat} (h : v % 2 ^ n = w % 2 ^ n) : natBits v n = natBits w n := by
  induction n with
  | zero => rfl
  | succ n ih =>
    have hb : ∀ i < n + 1, v.testBit i = w.testBit i := fun i hi => by
      have := congrArg (·.testBit i) h
      simpa [Nat.testBit_mod_two_pow, hi] using this
    have hm : v % 2 ^ n = w % 2 ^ n := by
      apply Nat.eq_of_testBit_eq
      intro i
      by_cases hi : i < n
      · simp [Nat.testBit_mod_two_pow, hi, hb i (by omega)]
      · simp [Nat.testBit_mod_two_pow, hi]
    simp [natBits, ih hm, hb n (by omega)]

@[simp] theorem natBits_zero_left (n : Nat) : natBits 0 n = List.replicate n false := by
  induction n with
  | zero => rfl
  | succ n ih => simp [natBits, ih, List.replicate_succ]

theorem bitsNat_foldl (bs : Bits) (r : Nat) :
    bs.foldl (fun r b => 2 * r + b.toNat) r = r * 2 ^ bs.length + bitsNat bs := by
  induction bs generalizing r with
  | nil => simp [bitsNat]
  | cons b bs ih =>
    simp only [List.foldl_cons, List.length_cons, bitsNat]
    rw [ih, ih, pow_succ]
    ring

@[simp] theorem bitsNat_nil : bitsNat [] = 0 := rfl

theorem bitsNat_cons (b : Bool) (bs : Bits) : bitsNat (b :: bs) = b.toNat * 2 ^ bs.length + bitsNat bs := by
  simp [bitsNat, bitsNat_foldl bs (b.toNat)]

theorem bitsNat_append (as bs : Bits) : bitsNat (as ++ bs) = bitsNat as * 2 ^ bs.length + bitsNat bs := by
  rw [bitsNat, List.foldl_append, bitsNat_foldl]; rfl

theorem bitsNat_lt (bs : Bits) : bitsNat bs < 2 ^ bs.length := by
  induction bs with
  | nil => simp
  | cons b bs ih =>
    rw [bitsNat_cons, List.length_cons, pow_succ]
    have : b.toNat ≤ 1 := by cases b <;> simp
    nlinarith [Nat.mul_le_mul_right (2 ^ bs.length) this]

/-- The number of the low `n` bits (R63). -/
theorem bitsNat_natBits (v n : Nat) : bitsNat (natBits v n) = v % 2 ^ n := by
  induction n with
  | zero => simp [natBits, Nat.mod_one]
  | succ n ih =>
    simp only [natBits, bitsNat_cons, natBits_length, ih]
    rw [pow_succ, Nat.mod_mul, Nat.testBit_eq_decide_div_mod_eq]
    rcases Nat.mod_two_eq_zero_or_one (v / 2 ^ n) with h | h <;> simp [h, Nat.add_comm]

theorem natBits_bitsNat (bs : Bits) : natBits (bitsNat bs) bs.length = bs := by
  induction bs with
  | nil => rfl
  | cons b bs ih =>
    have hlt := bitsNat_lt bs
    have hb : (bitsNat (b :: bs)).testBit bs.length = b := by
      rw [bitsNat_cons, Nat.mul_comm, Nat.testBit_two_pow_mul_add _ hlt]
      cases b <;> simp
    have hm : natBits (bitsNat (b :: bs)) bs.length = natBits (bitsNat bs) bs.length :=
      natBits_congr (by rw [bitsNat_cons]; simp [Nat.mod_eq_of_lt hlt])
    simp only [List.length_cons, natBits, hb, hm, ih]

/-- Bit `i` of the number made of a bit string, counted from its end (R63). -/
theorem testBit_bitsNat (bs : Bits) (i : Nat) (h : i < bs.length) :
    (bitsNat bs).testBit i = bs.getD (bs.length - 1 - i) false := by
  conv_rhs => rw [← natBits_bitsNat bs]
  rw [natBits_getD _ _ _ (by simp; omega)]
  congr 1
  simp; omega

/-! ### Taking a number off a bit string -/

/-- Reading as many bits as a string has gives its number and what follows it. -/
theorem takeNat_append (bs more : Bits) : takeNat bs.length (bs ++ more) = some (bitsNat bs, more) := by
  simp [takeNat]

theorem takeNat_natBits (v n : Nat) (more : Bits) : takeNat n (natBits v n ++ more) = some (v % 2 ^ n, more) := by
  have := takeNat_append (natBits v n) more
  rwa [natBits_length, bitsNat_natBits] at this

/-- What `takeNat` answers, it has taken off the front. -/
theorem takeNat_eq_some {n v : Nat} {bs more : Bits} (h : takeNat n bs = some (v, more)) :
    bs = natBits v n ++ more ∧ v < 2 ^ n := by
  unfold takeNat at h
  split_ifs at h with hn
  obtain ⟨rfl, rfl⟩ : bitsNat (bs.take n) = v ∧ bs.drop n = more := by simpa using h
  have hl : (bs.take n).length = n := by simp [hn]
  have h1 := natBits_bitsNat (bs.take n)
  have h2 := bitsNat_lt (bs.take n)
  rw [hl] at h1 h2
  exact ⟨by rw [h1, List.take_append_drop], h2⟩

theorem takeNat_eq_none {n : Nat} {bs : Bits} : takeNat n bs = none ↔ bs.length < n := by
  unfold takeNat
  split_ifs with h <;> simp <;> omega

/-! ### Padding and division -/

theorem padBits_lt (k : Nat) : padBits k < 8 := by unfold padBits; omega

/-- The padding ends at the next multiple of 8. -/
theorem add_padBits (k : Nat) : k + padBits k = 8 * ((k + 7) / 8) := by unfold padBits; omega

theorem ceilDiv_eight (a : Nat) : ceilDiv a 8 = (a + 7) / 8 := rfl

/-! ### Little-endian bytes -/

@[simp] theorem leBytes_length (v n : Nat) : (leBytes v n).length = n := by
  induction n generalizing v with
  | zero => rfl
  | succ n ih => simp [leBytes, ih]

theorem leNat_lt (bs : List Byte) : leNat bs < 256 ^ bs.length := by
  induction bs with
  | nil => simp [leNat]
  | cons b bs ih =>
    have := b.isLt
    simp only [leNat, List.length_cons, pow_succ]
    omega

/-- `le(le_bytes(v, n))` is `v` modulo `256^n` (R18). -/
theorem leNat_leBytes (v n : Nat) : leNat (leBytes v n) = v % 256 ^ n := by
  induction n generalizing v with
  | zero => simp [leBytes, leNat, Nat.mod_one]
  | succ n ih => simp [leBytes, leNat, ih, pow_succ', Nat.mod_mul]

theorem leBytes_leNat (bs : List Byte) : leBytes (leNat bs) bs.length = bs := by
  induction bs with
  | nil => rfl
  | cons b bs ih =>
    have h1 : BitVec.ofNat 8 (b.toNat + 256 * leNat bs) = b := by
      apply BitVec.eq_of_toNat_eq
      have := b.isLt
      simp; omega
    have h2 : (b.toNat + 256 * leNat bs) / 256 = leNat bs := by have := b.isLt; omega
    simp [leBytes, leNat, h1, h2, ih]

/-! ### Bucket values -/

theorem bucket_le (i : BitVec 3) : bucket i ≤ 24 := by revert i; decide

theorem bucket_ne_unset (i : BitVec 3) : bucket i ≠ unset := by revert i; decide

theorem sigWidth_pos (sig : BitVec 6) : 1 ≤ sigWidth sig := by revert sig; decide

theorem sigWidth_le (sig : BitVec 6) : sigWidth sig ≤ 64 := by revert sig; decide

/-- The count field of a width between 1 and 64 stands for that width (R91, R101). -/
theorem sigWidth_ofNat {n : Nat} (h1 : 1 ≤ n) (h2 : n ≤ 64) : sigWidth (BitVec.ofNat 6 n) = n := by
  revert n; decide

end Sys2Proof
end

