-- ==== Sys2Proof/Laws/Cells.lean ====
section
/-! SUPPORT. Sparse arrays: reading after writing, the canonical form under every operation, and equality by reading.
-/

namespace Sys2Proof.Machine

/-! ### One cell -/

@[simp] theorem cellRead_nil {α : Type} (d : α) (a : Nat) : cellRead d [] a = d := rfl

theorem cellRead_of_lt {α : Type} {d : α} {l : List (Nat × α)} {a : Nat} (h : ∀ c ∈ l, a < c.1) :
    cellRead d l a = d := by
  induction l with
  | nil => rfl
  | cons c l ih =>
    have hc : c.1 ≠ a := Nat.ne_of_gt (h c (by simp))
    simp only [cellRead, hc, if_false]
    exact ih fun c hc => h c (by simp [hc])

variable {α : Type} [DecidableEq α] {d : α}

@[simp] theorem cellsWf_nil : cellsWf d ([] : List (Nat × α)) = true := rfl

theorem cellsWf_cons {k : Nat} {v : α} {l : List (Nat × α)} :
    cellsWf d ((k, v) :: l) = true ↔ v ≠ d ∧ (∀ c ∈ l, k < c.1) ∧ cellsWf d l = true := by
  simp [cellsWf, and_assoc]

/-- A write leaves every other index alone, whatever the form of the array. -/
theorem cellRead_cellWrite_ne (l : List (Nat × α)) {a b : Nat} (x : α) (hb : b ≠ a) :
    cellRead d (cellWrite d l a x) b = cellRead d l b := by
  have ha : a ≠ b := hb.symm
  induction l with
  | nil => by_cases hx : x = d <;> simp [cellWrite, cellRead, hx, ha]
  | cons c l ih =>
    obtain ⟨k, v⟩ := c
    simp only [cellWrite]
    split_ifs with h1 hx h2 hx
    · rfl
    · simp [cellRead, ha]
    · subst h2; simp [cellRead, ha]
    · subst h2; simp [cellRead, ha]
    · simp [cellRead, ih]

/-- What an array reads after a write: the written value there, everything else as before. -/
theorem cellRead_cellWrite {l : List (Nat × α)} (hl : cellsWf d l = true) (a b : Nat) (x : α) :
    cellRead d (cellWrite d l a x) b = if b = a then x else cellRead d l b := by
  by_cases hb : b = a
  · subst hb
    rw [if_pos rfl]
    induction l with
    | nil => by_cases hx : x = d <;> simp [cellWrite, cellRead, hx]
    | cons c l ih =>
      obtain ⟨k, v⟩ := c
      obtain ⟨hv, hk, hl⟩ := cellsWf_cons.mp hl
      simp only [cellWrite]
      split_ifs with h1 hx h2 hx
      · rw [hx]
        refine cellRead_of_lt ?_
        rintro c (_ | ⟨_, hc⟩)
        exacts [h1, h1.trans (hk c hc)]
      · simp [cellRead]
      · subst h2; rw [hx, cellRead_of_lt hk]
      · simp [cellRead]
      · simp [cellRead, Ne.symm h2, ih hl]
  · rw [if_neg hb, cellRead_cellWrite_ne l x hb]

/-- The keys of an array after a write are old keys or the written one. -/
theorem mem_cellWrite {l : List (Nat × α)} {a : Nat} {x : α} {c : Nat × α} (h : c ∈ cellWrite d l a x) :
    c ∈ l ∨ c = (a, x) := by
  induction l with
  | nil => by_cases hx : x = d <;> simp_all [cellWrite]
  | cons e l ih =>
    obtain ⟨k, v⟩ := e
    simp only [cellWrite] at h
    split_ifs at h <;> simp_all [List.mem_cons] <;> tauto

/-- A write keeps the canonical form. -/
theorem cellsWf_cellWrite {l : List (Nat × α)} (hl : cellsWf d l = true) (a : Nat) (x : α) :
    cellsWf d (cellWrite d l a x) = true := by
  induction l with
  | nil => by_cases hx : x = d <;> simp [cellWrite, cellsWf, hx]
  | cons c l ih =>
    obtain ⟨k, v⟩ := c
    obtain ⟨hv, hk, hl'⟩ := cellsWf_cons.mp hl
    simp only [cellWrite]
    split_ifs with h1 hx h2 hx
    · exact hl
    · refine cellsWf_cons.mpr ⟨hx, ?_, hl⟩
      rintro c (_ | ⟨_, hc⟩)
      exacts [h1, h1.trans (hk c hc)]
    · exact hl'
    · exact cellsWf_cons.mpr ⟨hx, fun c hc => h2 ▸ hk c hc, hl'⟩
    · refine cellsWf_cons.mpr ⟨hv, fun c hc => ?_, ih hl'⟩
      rcases mem_cellWrite hc with hc | rfl
      exacts [hk c hc, show k < a by omega]

/-- Two canonical arrays that read alike are the same list. -/
theorem cells_ext {l m : List (Nat × α)} (hl : cellsWf d l = true) (hm : cellsWf d m = true)
    (h : ∀ a, cellRead d l a = cellRead d m a) : l = m := by
  induction l generalizing m with
  | nil =>
    cases m with
    | nil => rfl
    | cons c m =>
      have := h c.1
      simp [cellRead] at this
      exact absurd this.symm (cellsWf_cons.mp hm).1
  | cons c l ih =>
    obtain ⟨k, v⟩ := c
    obtain ⟨hv, hk, hl'⟩ := cellsWf_cons.mp hl
    cases m with
    | nil => have := h k; simp [cellRead] at this; exact absurd this hv
    | cons e m =>
      obtain ⟨j, w⟩ := e
      obtain ⟨hw, hj, hm'⟩ := cellsWf_cons.mp hm
      have hkj : k = j := by
        rcases Nat.lt_trichotomy k j with hlt | heq | hlt
        · have := h k
          rw [cellRead_of_lt (l := (j, w) :: m)] at this
          · simp [cellRead] at this; exact absurd this hv
          · rintro c (_ | ⟨_, hc⟩)
            exacts [hlt, hlt.trans (hj c hc)]
        · exact heq
        · have := h j
          rw [cellRead_of_lt (l := (k, v) :: l)] at this
          · simp [cellRead] at this; exact absurd this.symm hw
          · rintro c (_ | ⟨_, hc⟩)
            exacts [hlt, hlt.trans (hk c hc)]
      subst hkj
      have hvw : v = w := by simpa [cellRead] using h k
      subst hvw
      congr 1
      refine ih hl' hm' fun a => ?_
      by_cases ha : k = a
      · subst ha
        rw [cellRead_of_lt hk, cellRead_of_lt hj]
      · simpa [cellRead, ha] using h a

/-! ### Byte spaces -/

theorem Memory.read_write {m : Memory} (h : m.wf = true) (a b : Nat) (x : Byte) :
    (m.write a x).read b = if b = a then x else m.read b := cellRead_cellWrite h a b x

theorem Memory.read_write_ne (m : Memory) {a b : Nat} (x : Byte) (hb : b ≠ a) : (m.write a x).read b = m.read b :=
  cellRead_cellWrite_ne m x hb

theorem Memory.wf_write {m : Memory} (h : m.wf = true) (a : Nat) (x : Byte) : (m.write a x).wf = true :=
  cellsWf_cellWrite h a x

theorem Memory.wf_writeBytes {m : Memory} (h : m.wf = true) (a : Nat) (bs : List Byte) :
    (m.writeBytes a bs).wf = true := by
  induction bs generalizing m a with
  | nil => exact h
  | cons b bs ih => exact ih (Memory.wf_write h a b) (a + 1)

/-- What a space reads after a run of bytes is stored: those bytes there, everything else as before. -/
theorem Memory.read_writeBytes {m : Memory} (h : m.wf = true) (a b : Nat) (bs : List Byte) :
    (m.writeBytes a bs).read b = if a ≤ b ∧ b < a + bs.length then bs.getD (b - a) 0 else m.read b := by
  induction bs generalizing m a with
  | nil => simp [Memory.writeBytes]
  | cons x bs ih =>
    simp only [Memory.writeBytes, ih (Memory.wf_write h a x), Memory.read_write h]
    rcases Nat.lt_trichotomy b a with hb | rfl | hb
    · rw [if_neg (by omega), if_neg (by omega), if_neg (by omega)]
    · rw [if_neg (by omega), if_pos rfl, if_pos (by simp)]; simp
    · obtain ⟨k, rfl⟩ := Nat.exists_eq_add_of_lt hb
      have e1 : a + k + 1 - (a + 1) = k := by omega
      have e2 : a + k + 1 - a = k + 1 := by omega
      rw [e1, e2, if_neg (show ¬ a + k + 1 = a by omega), List.getD_cons_succ]
      congr 1
      simp only [List.length_cons, eq_iff_iff]
      omega

theorem Memory.wf_slice {m : Memory} (h : m.wf = true) (lo hi : Nat) : (m.slice lo hi).wf = true := by
  unfold Memory.slice Memory.wf at *
  induction m with
  | nil => rfl
  | cons c m ih =>
    obtain ⟨k, v⟩ := c
    obtain ⟨hv, hk, hm⟩ := cellsWf_cons.mp h
    by_cases hc : lo ≤ k ∧ k < hi
    · simp only [List.filter_cons, hc, decide_true, Bool.and_self, if_true, List.map_cons]
      refine cellsWf_cons.mpr ⟨hv, ?_, ih hm⟩
      rintro c hcm
      obtain ⟨e, he, rfl⟩ := List.mem_map.mp hcm
      have := hk e (List.mem_filter.mp he).1
      show k - lo < e.1 - lo
      omega
    · have : (decide (lo ≤ k) && decide (k < hi)) = false := by simpa using hc
      simp only [List.filter_cons, this]
      exact ih hm

/-- The payload moved to address 0 (R255): address `a` reads what `lo + a` read, below `hi - lo`. -/
theorem Memory.read_slice {m : Memory} (h : m.wf = true) (lo hi a : Nat) :
    (m.slice lo hi).read a = if lo + a < hi then m.read (lo + a) else 0 := by
  unfold Memory.slice Memory.read Memory.wf at *
  induction m with
  | nil => simp [cellRead]
  | cons c m ih =>
    obtain ⟨k, v⟩ := c
    obtain ⟨hv, hk, hm⟩ := cellsWf_cons.mp h
    by_cases hc : lo ≤ k ∧ k < hi
    · simp only [List.filter_cons, hc, decide_true, Bool.and_self, if_true, List.map_cons, cellRead]
      by_cases ha : k - lo = a
      · have : k = lo + a := by omega
        subst this; simp [hc.2]
      · have : ¬ k = lo + a := by omega
        simpa [ha, this] using ih hm
    · have hf : (decide (lo ≤ k) && decide (k < hi)) = false := by simpa using hc
      simp only [List.filter_cons, hf, cellRead]
      by_cases ha : k = lo + a
      · have hx : ¬ lo + a < hi := fun hlt => hc ⟨by omega, by omega⟩
        simpa [hx] using ih hm
      · simpa [ha] using ih hm

/-- Bytes made free are below the bound; at and beyond it nothing changes. -/
theorem Memory.read_scramble (m : Memory) (n k hi a : Nat) (ha : hi ≤ a) :
    (m.scramble n k hi).read a = m.read a := by
  unfold Memory.scramble
  generalize Config.freeCells n k = cells
  induction cells generalizing m with
  | nil => rfl
  | cons c cells ih =>
    simp only [List.foldl_cons]
    split_ifs with hc
    · rw [ih, Memory.read_write_ne _ _ (by omega)]
    · exact ih m

theorem Memory.wf_scramble {m : Memory} (h : m.wf = true) (n k hi : Nat) : (m.scramble n k hi).wf = true := by
  unfold Memory.scramble
  generalize Config.freeCells n k = cells
  induction cells generalizing m with
  | nil => exact h
  | cons c cells ih =>
    simp only [List.foldl_cons]
    split_ifs with hc
    exacts [ih (Memory.wf_write h _ _), ih h]

theorem unspecifiedSpace_wf (n k : Nat) : (unspecifiedSpace n k).wf = true :=
  Memory.wf_scramble (m := []) rfl n k _

@[simp] theorem Memory.length_readBytes (m : Memory) (a n : Nat) : (m.readBytes a n).length = n := by
  simp [Memory.readBytes]

theorem Memory.getD_readBytes (m : Memory) (a n i : Nat) (x : Byte) (hi : i < n) :
    (m.readBytes a n).getD i x = m.read (a + i) := by
  simp [Memory.readBytes, List.getD_eq_getElem?_getD, hi]

/-! ### Windows and tables -/

theorem cellsOf_spec (bound : Nat) (cells : List (Nat × α)) :
    cellsWf d (cellsOf d bound cells) = true ∧ ∀ c ∈ cellsOf d bound cells, c.1 < bound ∧ c ∈ cells := by
  have key : ∀ l : List (Nat × α), cellsWf d l = true →
      cellsWf d (cells.foldl (fun l c => if c.1 < bound then cellWrite d l c.1 c.2 else l) l) = true ∧
      ∀ c ∈ cells.foldl (fun l c => if c.1 < bound then cellWrite d l c.1 c.2 else l) l,
        c ∈ l ∨ (c.1 < bound ∧ c ∈ cells) := by
    induction cells with
    | nil => exact fun l hl => ⟨hl, fun c hc => .inl hc⟩
    | cons e cells ih =>
      intro l hl
      simp only [List.foldl_cons]
      split_ifs with he
      · refine ⟨(ih _ (cellsWf_cellWrite hl _ _)).1, fun c hc => ?_⟩
        rcases (ih _ (cellsWf_cellWrite hl _ _)).2 c hc with h | ⟨h1, h2⟩
        · rcases mem_cellWrite h with h | rfl
          exacts [.inl h, .inr ⟨he, by simp⟩]
        · exact .inr ⟨h1, by simp [h2]⟩
      · refine ⟨(ih l hl).1, fun c hc => ?_⟩
        rcases (ih l hl).2 c hc with h | ⟨h1, h2⟩
        exacts [.inl h, .inr ⟨h1, by simp [h2]⟩]
  exact ⟨(key [] rfl).1, fun c hc => by simpa using (key [] rfl).2 c hc⟩

theorem Window.read_write {w : Window} (h : w.wf = true) (i j : Nat) (v : Value) :
    (w.write i v).read j = if j = i then v else w.read j := cellRead_cellWrite h i j v

theorem Window.wf_write {w : Window} (h : w.wf = true) (i : Nat) (v : Value) : (w.write i v).wf = true :=
  cellsWf_cellWrite h i v

theorem Table.read_write {t : Table} (h : t.wf = true) (k j e : Nat) :
    (t.write k e).read j = if j = k then e else t.read j := cellRead_cellWrite h k j e

theorem Table.wf_write {t : Table} (h : t.wf = true) (k e : Nat) : (t.write k e).wf = true :=
  cellsWf_cellWrite h k e

theorem freeWindow_wf (n k L : Nat) : (freeWindow n k L).wf = true := (cellsOf_spec _ _).1

theorem freeTable_wf (n k L : Nat) : (freeTable n k L).wf = true := (cellsOf_spec _ _).1

theorem freeNat_lt (n k width : Nat) : freeNat n k width < 2 ^ width := Nat.mod_lt _ (by positivity)

/-- Every entry of a free table fits 32 bits. -/
theorem freeTable_read_lt (n k L j : Nat) : (freeTable n k L).read j < 2 ^ 32 := by
  have h := (cellsOf_spec (d := 0) (tableSize L)
    ((Config.freeCells n k).map (fun c => (c.1, c.2.toNat % 2 ^ 32)))).2
  have key : ∀ l : List (Nat × Nat), (∀ c ∈ l, c.2 < 2 ^ 32) → cellRead 0 l j < 2 ^ 32 := by
    intro l
    induction l with
    | nil => intro _; simp
    | cons c l ih =>
      intro hl
      simp only [cellRead]
      split_ifs
      exacts [hl c (by simp), ih fun c hc => hl c (by simp [hc])]
  refine key _ fun c hc => ?_
  obtain ⟨e, _, rfl⟩ := List.mem_map.mp (h c hc).2
  exact Nat.mod_lt _ (by positivity)

end Sys2Proof.Machine
end

