-- ==== Sys2Proof/Laws/State.lean ====
section
/-! SUPPORT. One lemma per field per update, true by `rfl`, so that a proof never unfolds a record update. -/

namespace Sys2Proof.Machine


/-! ### Response registers -/

@[simp] theorem Responses.write_bw_bw (rs : Responses) (r : Resp) : (rs.write (some .bw) r).bw = r := rfl
@[simp] theorem Responses.write_bw_br (rs : Responses) (r : Resp) : (rs.write (some .bw) r).br = rs.br := rfl
@[simp] theorem Responses.write_bw_cmp (rs : Responses) (r : Resp) : (rs.write (some .bw) r).cmp = rs.cmp := rfl
@[simp] theorem Responses.write_bw_dec (rs : Responses) (r : Resp) : (rs.write (some .bw) r).dec = rs.dec := rfl
@[simp] theorem Responses.write_bw_frm (rs : Responses) (r : Resp) : (rs.write (some .bw) r).frm = rs.frm := rfl
@[simp] theorem Responses.write_bw_other (rs : Responses) (r : Resp) : (rs.write (some .bw) r).other = rs.other := rfl
@[simp] theorem Responses.write_br_bw (rs : Responses) (r : Resp) : (rs.write (some .br) r).bw = rs.bw := rfl
@[simp] theorem Responses.write_br_br (rs : Responses) (r : Resp) : (rs.write (some .br) r).br = r := rfl
@[simp] theorem Responses.write_br_cmp (rs : Responses) (r : Resp) : (rs.write (some .br) r).cmp = rs.cmp := rfl
@[simp] theorem Responses.write_br_dec (rs : Responses) (r : Resp) : (rs.write (some .br) r).dec = rs.dec := rfl
@[simp] theorem Responses.write_br_frm (rs : Responses) (r : Resp) : (rs.write (some .br) r).frm = rs.frm := rfl
@[simp] theorem Responses.write_br_other (rs : Responses) (r : Resp) : (rs.write (some .br) r).other = rs.other := rfl
@[simp] theorem Responses.write_cmp_bw (rs : Responses) (r : Resp) : (rs.write (some .cmp) r).bw = rs.bw := rfl
@[simp] theorem Responses.write_cmp_br (rs : Responses) (r : Resp) : (rs.write (some .cmp) r).br = rs.br := rfl
@[simp] theorem Responses.write_cmp_cmp (rs : Responses) (r : Resp) : (rs.write (some .cmp) r).cmp = r := rfl
@[simp] theorem Responses.write_cmp_dec (rs : Responses) (r : Resp) : (rs.write (some .cmp) r).dec = rs.dec := rfl
@[simp] theorem Responses.write_cmp_frm (rs : Responses) (r : Resp) : (rs.write (some .cmp) r).frm = rs.frm := rfl
@[simp] theorem Responses.write_cmp_other (rs : Responses) (r : Resp) : (rs.write (some .cmp) r).other = rs.other := rfl
@[simp] theorem Responses.write_dec_bw (rs : Responses) (r : Resp) : (rs.write (some .dec) r).bw = rs.bw := rfl
@[simp] theorem Responses.write_dec_br (rs : Responses) (r : Resp) : (rs.write (some .dec) r).br = rs.br := rfl
@[simp] theorem Responses.write_dec_cmp (rs : Responses) (r : Resp) : (rs.write (some .dec) r).cmp = rs.cmp := rfl
@[simp] theorem Responses.write_dec_dec (rs : Responses) (r : Resp) : (rs.write (some .dec) r).dec = r := rfl
@[simp] theorem Responses.write_dec_frm (rs : Responses) (r : Resp) : (rs.write (some .dec) r).frm = rs.frm := rfl
@[simp] theorem Responses.write_dec_other (rs : Responses) (r : Resp) : (rs.write (some .dec) r).other = rs.other := rfl
@[simp] theorem Responses.write_frm_bw (rs : Responses) (r : Resp) : (rs.write (some .frm) r).bw = rs.bw := rfl
@[simp] theorem Responses.write_frm_br (rs : Responses) (r : Resp) : (rs.write (some .frm) r).br = rs.br := rfl
@[simp] theorem Responses.write_frm_cmp (rs : Responses) (r : Resp) : (rs.write (some .frm) r).cmp = rs.cmp := rfl
@[simp] theorem Responses.write_frm_dec (rs : Responses) (r : Resp) : (rs.write (some .frm) r).dec = rs.dec := rfl
@[simp] theorem Responses.write_frm_frm (rs : Responses) (r : Resp) : (rs.write (some .frm) r).frm = r := rfl
@[simp] theorem Responses.write_frm_other (rs : Responses) (r : Resp) : (rs.write (some .frm) r).other = rs.other := rfl
@[simp] theorem Responses.write_none_bw (rs : Responses) (r : Resp) : (rs.write none r).bw = rs.bw := rfl
@[simp] theorem Responses.write_none_br (rs : Responses) (r : Resp) : (rs.write none r).br = rs.br := rfl
@[simp] theorem Responses.write_none_cmp (rs : Responses) (r : Resp) : (rs.write none r).cmp = rs.cmp := rfl
@[simp] theorem Responses.write_none_dec (rs : Responses) (r : Resp) : (rs.write none r).dec = rs.dec := rfl
@[simp] theorem Responses.write_none_frm (rs : Responses) (r : Resp) : (rs.write none r).frm = rs.frm := rfl
@[simp] theorem Responses.write_none_other (rs : Responses) (r : Resp) : (rs.write none r).other = r := rfl

/-! ### Responding, refusing, ticking -/

@[simp] theorem State.respond_bw (s : State) (u : UnitId) (st : Status) (x : BitVec 64) : (s.respond u st x).bw = s.bw := rfl
@[simp] theorem State.respond_br (s : State) (u : UnitId) (st : Status) (x : BitVec 64) : (s.respond u st x).br = s.br := rfl
@[simp] theorem State.respond_cmp (s : State) (u : UnitId) (st : Status) (x : BitVec 64) :
    (s.respond u st x).cmp = s.cmp := rfl
@[simp] theorem State.respond_dec (s : State) (u : UnitId) (st : Status) (x : BitVec 64) :
    (s.respond u st x).dec = s.dec := rfl
@[simp] theorem State.respond_frm (s : State) (u : UnitId) (st : Status) (x : BitVec 64) :
    (s.respond u st x).frm = s.frm := rfl
@[simp] theorem State.respond_resp (s : State) (u : UnitId) (st : Status) (x : BitVec 64) :
    (s.respond u st x).resp = s.resp.write (some u) ⟨st, x⟩ := rfl
@[simp] theorem State.respond_inbox (s : State) (u : UnitId) (st : Status) (x : BitVec 64) :
    (s.respond u st x).inbox = s.inbox := rfl
@[simp] theorem State.respond_draws (s : State) (u : UnitId) (st : Status) (x : BitVec 64) :
    (s.respond u st x).draws = s.draws := rfl
@[simp] theorem State.refuse_bw (s : State) (u : UnitId) : (s.refuse u).bw = s.bw := rfl
@[simp] theorem State.refuse_br (s : State) (u : UnitId) : (s.refuse u).br = s.br := rfl
@[simp] theorem State.refuse_cmp (s : State) (u : UnitId) : (s.refuse u).cmp = s.cmp := rfl
@[simp] theorem State.refuse_dec (s : State) (u : UnitId) : (s.refuse u).dec = s.dec := rfl
@[simp] theorem State.refuse_frm (s : State) (u : UnitId) : (s.refuse u).frm = s.frm := rfl
@[simp] theorem State.refuse_resp (s : State) (u : UnitId) :
    (s.refuse u).resp = s.resp.write (some u) ⟨.illegalCommand, 0⟩ := rfl
@[simp] theorem State.refuse_inbox (s : State) (u : UnitId) : (s.refuse u).inbox = s.inbox := rfl
@[simp] theorem State.refuse_draws (s : State) (u : UnitId) : (s.refuse u).draws = s.draws := rfl
@[simp] theorem State.refuseOp_bw (s : State) (op : BitVec 8) : (s.refuseOp op).bw = s.bw := rfl
@[simp] theorem State.refuseOp_br (s : State) (op : BitVec 8) : (s.refuseOp op).br = s.br := rfl
@[simp] theorem State.refuseOp_cmp (s : State) (op : BitVec 8) : (s.refuseOp op).cmp = s.cmp := rfl
@[simp] theorem State.refuseOp_dec (s : State) (op : BitVec 8) : (s.refuseOp op).dec = s.dec := rfl
@[simp] theorem State.refuseOp_frm (s : State) (op : BitVec 8) : (s.refuseOp op).frm = s.frm := rfl
@[simp] theorem State.refuseOp_resp (s : State) (op : BitVec 8) :
    (s.refuseOp op).resp = s.resp.write (opUnit op) ⟨.illegalCommand, 0⟩ := rfl
@[simp] theorem State.refuseOp_inbox (s : State) (op : BitVec 8) : (s.refuseOp op).inbox = s.inbox := rfl
@[simp] theorem State.refuseOp_draws (s : State) (op : BitVec 8) : (s.refuseOp op).draws = s.draws := rfl
@[simp] theorem State.tick_bw (s : State) : s.tick.bw = s.bw := rfl
@[simp] theorem State.tick_br (s : State) : s.tick.br = s.br := rfl
@[simp] theorem State.tick_cmp (s : State) : s.tick.cmp = s.cmp := rfl
@[simp] theorem State.tick_dec (s : State) : s.tick.dec = s.dec := rfl
@[simp] theorem State.tick_frm (s : State) : s.tick.frm = s.frm := rfl
@[simp] theorem State.tick_resp (s : State) : s.tick.resp = s.resp := rfl
@[simp] theorem State.tick_inbox (s : State) : s.tick.inbox = s.inbox := rfl
@[simp] theorem State.tick_draws (s : State) : s.tick.draws = s.draws + 1 := rfl

/-! ### Raising a fault -/

@[simp] theorem State.raise_bw_bw (s : State) (f : FaultCode) : (s.raise .bw f).bw = s.bw.faulted s.draws f := rfl
@[simp] theorem State.raise_bw_br (s : State) (f : FaultCode) : (s.raise .bw f).br = s.br := rfl
@[simp] theorem State.raise_bw_cmp (s : State) (f : FaultCode) : (s.raise .bw f).cmp = s.cmp := rfl
@[simp] theorem State.raise_bw_dec (s : State) (f : FaultCode) : (s.raise .bw f).dec = s.dec := rfl
@[simp] theorem State.raise_bw_frm (s : State) (f : FaultCode) : (s.raise .bw f).frm = s.frm := rfl
@[simp] theorem State.raise_bw_resp (s : State) (f : FaultCode) :
    (s.raise .bw f).resp = s.resp.write (some .bw) ⟨f.status, 0⟩ := rfl
@[simp] theorem State.raise_bw_inbox (s : State) (f : FaultCode) : (s.raise .bw f).inbox = s.inbox := rfl
@[simp] theorem State.raise_bw_draws (s : State) (f : FaultCode) : (s.raise .bw f).draws = s.draws := rfl
@[simp] theorem State.raise_br_bw (s : State) (f : FaultCode) : (s.raise .br f).bw = s.bw := rfl
@[simp] theorem State.raise_br_br (s : State) (f : FaultCode) : (s.raise .br f).br = s.br.faulted s.draws f := rfl
@[simp] theorem State.raise_br_cmp (s : State) (f : FaultCode) : (s.raise .br f).cmp = s.cmp := rfl
@[simp] theorem State.raise_br_dec (s : State) (f : FaultCode) : (s.raise .br f).dec = s.dec := rfl
@[simp] theorem State.raise_br_frm (s : State) (f : FaultCode) : (s.raise .br f).frm = s.frm := rfl
@[simp] theorem State.raise_br_resp (s : State) (f : FaultCode) :
    (s.raise .br f).resp = s.resp.write (some .br) ⟨f.status, 0⟩ := rfl
@[simp] theorem State.raise_br_inbox (s : State) (f : FaultCode) : (s.raise .br f).inbox = s.inbox := rfl
@[simp] theorem State.raise_br_draws (s : State) (f : FaultCode) : (s.raise .br f).draws = s.draws := rfl
@[simp] theorem State.raise_cmp_bw (s : State) (f : FaultCode) : (s.raise .cmp f).bw = s.bw := rfl
@[simp] theorem State.raise_cmp_br (s : State) (f : FaultCode) : (s.raise .cmp f).br = s.br := rfl
@[simp] theorem State.raise_cmp_cmp (s : State) (f : FaultCode) : (s.raise .cmp f).cmp = s.cmp.faulted s.draws f := rfl
@[simp] theorem State.raise_cmp_dec (s : State) (f : FaultCode) : (s.raise .cmp f).dec = s.dec := rfl
@[simp] theorem State.raise_cmp_frm (s : State) (f : FaultCode) : (s.raise .cmp f).frm = s.frm := rfl
@[simp] theorem State.raise_cmp_resp (s : State) (f : FaultCode) :
    (s.raise .cmp f).resp = s.resp.write (some .cmp) ⟨f.status, 0⟩ := rfl
@[simp] theorem State.raise_cmp_inbox (s : State) (f : FaultCode) : (s.raise .cmp f).inbox = s.inbox := rfl
@[simp] theorem State.raise_cmp_draws (s : State) (f : FaultCode) : (s.raise .cmp f).draws = s.draws := rfl
@[simp] theorem State.raise_dec_bw (s : State) (f : FaultCode) : (s.raise .dec f).bw = s.bw := rfl
@[simp] theorem State.raise_dec_br (s : State) (f : FaultCode) : (s.raise .dec f).br = s.br := rfl
@[simp] theorem State.raise_dec_cmp (s : State) (f : FaultCode) : (s.raise .dec f).cmp = s.cmp := rfl
@[simp] theorem State.raise_dec_dec (s : State) (f : FaultCode) : (s.raise .dec f).dec = s.dec.faulted s.draws f := rfl
@[simp] theorem State.raise_dec_frm (s : State) (f : FaultCode) : (s.raise .dec f).frm = s.frm := rfl
@[simp] theorem State.raise_dec_resp (s : State) (f : FaultCode) :
    (s.raise .dec f).resp = s.resp.write (some .dec) ⟨f.status, 0⟩ := rfl
@[simp] theorem State.raise_dec_inbox (s : State) (f : FaultCode) : (s.raise .dec f).inbox = s.inbox := rfl
@[simp] theorem State.raise_dec_draws (s : State) (f : FaultCode) : (s.raise .dec f).draws = s.draws := rfl
@[simp] theorem State.raise_frm_bw (s : State) (f : FaultCode) : (s.raise .frm f).bw = s.bw := rfl
@[simp] theorem State.raise_frm_br (s : State) (f : FaultCode) : (s.raise .frm f).br = s.br := rfl
@[simp] theorem State.raise_frm_cmp (s : State) (f : FaultCode) : (s.raise .frm f).cmp = s.cmp := rfl
@[simp] theorem State.raise_frm_dec (s : State) (f : FaultCode) : (s.raise .frm f).dec = s.dec := rfl
@[simp] theorem State.raise_frm_frm (s : State) (f : FaultCode) : (s.raise .frm f).frm = s.frm := rfl
@[simp] theorem State.raise_frm_resp (s : State) (f : FaultCode) :
    (s.raise .frm f).resp = s.resp.write (some .frm) ⟨f.status, 0⟩ := rfl
@[simp] theorem State.raise_frm_inbox (s : State) (f : FaultCode) : (s.raise .frm f).inbox = s.inbox := rfl
@[simp] theorem State.raise_frm_draws (s : State) (f : FaultCode) : (s.raise .frm f).draws = s.draws := rfl
@[simp] theorem Bw.faulted_cfg (w : Bw) (n : Nat) (f : FaultCode) : (w.faulted n f).cfg = w.cfg := rfl
@[simp] theorem Bw.faulted_fault (w : Bw) (n : Nat) (f : FaultCode) : (w.faulted n f).fault = f := rfl
@[simp] theorem Bw.faulted_out (w : Bw) (n : Nat) (f : FaultCode) : (w.faulted n f).out = w.out.scramble n 99 w.cap := rfl
@[simp] theorem Br.faulted_cfg (r : Br) (n : Nat) (f : FaultCode) : (r.faulted n f).cfg = r.cfg := rfl
@[simp] theorem Br.faulted_fault (r : Br) (n : Nat) (f : FaultCode) : (r.faulted n f).fault = f := rfl
@[simp] theorem Br.faulted_inp (r : Br) (n : Nat) (f : FaultCode) : (r.faulted n f).inp = r.inp := rfl
@[simp] theorem Cmp.faulted_cfg (c : Cmp) (n : Nat) (f : FaultCode) : (c.faulted n f).cfg = c.cfg := rfl
@[simp] theorem Cmp.faulted_fault (c : Cmp) (n : Nat) (f : FaultCode) : (c.faulted n f).fault = f := rfl
@[simp] theorem Cmp.faulted_bw_cfg (c : Cmp) (n : Nat) (f : FaultCode) : (c.faulted n f).bw.cfg = c.cfg := rfl
@[simp] theorem Cmp.faulted_bw_fault (c : Cmp) (n : Nat) (f : FaultCode) : (c.faulted n f).bw.fault = f := rfl
@[simp] theorem Cmp.faulted_bw_out (c : Cmp) (n : Nat) (f : FaultCode) :
    (c.faulted n f).bw.out = c.bw.out.scramble n 99 c.bw.cap := rfl
@[simp] theorem Dec.faulted_cfg (d : Dec) (n : Nat) (f : FaultCode) : (d.faulted n f).cfg = d.cfg := rfl
@[simp] theorem Dec.faulted_fault (d : Dec) (n : Nat) (f : FaultCode) : (d.faulted n f).fault = f := rfl
@[simp] theorem Dec.faulted_br_cfg (d : Dec) (n : Nat) (f : FaultCode) : (d.faulted n f).br.cfg = d.cfg := rfl
@[simp] theorem Dec.faulted_br_fault (d : Dec) (n : Nat) (f : FaultCode) : (d.faulted n f).br.fault = f := rfl
@[simp] theorem Dec.faulted_br_inp (d : Dec) (n : Nat) (f : FaultCode) : (d.faulted n f).br.inp = d.br.inp := rfl
@[simp] theorem Bw.unspecified_cfg (n k w : Nat) (cfg : Bool) (f : FaultCode) (m : Memory) :
    (Bw.unspecified n k w cfg f m).cfg = cfg := rfl
@[simp] theorem Bw.unspecified_fault (n k w : Nat) (cfg : Bool) (f : FaultCode) (m : Memory) :
    (Bw.unspecified n k w cfg f m).fault = f := rfl
@[simp] theorem Bw.unspecified_out (n k w : Nat) (cfg : Bool) (f : FaultCode) (m : Memory) :
    (Bw.unspecified n k w cfg f m).out = m := rfl
@[simp] theorem Br.unspecified_cfg (n k : Nat) (cfg : Bool) (f : FaultCode) (m : Memory) :
    (Br.unspecified n k cfg f m).cfg = cfg := rfl
@[simp] theorem Br.unspecified_fault (n k : Nat) (cfg : Bool) (f : FaultCode) (m : Memory) :
    (Br.unspecified n k cfg f m).fault = f := rfl
@[simp] theorem Br.unspecified_inp (n k : Nat) (cfg : Bool) (f : FaultCode) (m : Memory) :
    (Br.unspecified n k cfg f m).inp = m := rfl
@[simp] theorem Cmp.unspecified_cfg (n k w : Nat) (cfg : Bool) (f : FaultCode) (m : Memory) :
    (Cmp.unspecified n k w cfg f m).cfg = cfg := rfl
@[simp] theorem Cmp.unspecified_fault (n k w : Nat) (cfg : Bool) (f : FaultCode) (m : Memory) :
    (Cmp.unspecified n k w cfg f m).fault = f := rfl
@[simp] theorem Cmp.unspecified_bw_out (n k w : Nat) (cfg : Bool) (f : FaultCode) (m : Memory) :
    (Cmp.unspecified n k w cfg f m).bw.out = m := rfl
@[simp] theorem Dec.unspecified_cfg (n k : Nat) (cfg : Bool) (f : FaultCode) (m : Memory) :
    (Dec.unspecified n k cfg f m).cfg = cfg := rfl
@[simp] theorem Dec.unspecified_fault (n k : Nat) (cfg : Bool) (f : FaultCode) (m : Memory) :
    (Dec.unspecified n k cfg f m).fault = f := rfl
@[simp] theorem Dec.unspecified_br_inp (n k : Nat) (cfg : Bool) (f : FaultCode) (m : Memory) :
    (Dec.unspecified n k cfg f m).br.inp = m := rfl

/-! ### Construction -/

@[simp] theorem Bw.init_cap (w : Bw) (cap : Nat) : (w.init cap).cap = cap := rfl
@[simp] theorem Bw.init_acc (w : Bw) (cap : Nat) : (w.init cap).acc = 0 := rfl
@[simp] theorem Bw.init_free (w : Bw) (cap : Nat) : (w.init cap).free = 8 := rfl
@[simp] theorem Bw.init_nbytes (w : Bw) (cap : Nat) : (w.init cap).nbytes = 0 := rfl
@[simp] theorem Bw.init_total (w : Bw) (cap : Nat) : (w.init cap).total = 0 := rfl
@[simp] theorem Bw.init_cfg (w : Bw) (cap : Nat) : (w.init cap).cfg = true := rfl
@[simp] theorem Bw.init_fault (w : Bw) (cap : Nat) : (w.init cap).fault = .none := rfl
@[simp] theorem Bw.init_out (w : Bw) (cap : Nat) : (w.init cap).out = w.out := rfl
@[simp] theorem Br.init_len (r : Br) (len : Nat) : (r.init len).len = len := rfl
@[simp] theorem Br.init_pos (r : Br) (len : Nat) : (r.init len).pos = 0 := rfl
@[simp] theorem Br.init_held (r : Br) (len : Nat) : (r.init len).held = [] := rfl
@[simp] theorem Br.init_cfg (r : Br) (len : Nat) : (r.init len).cfg = true := rfl
@[simp] theorem Br.init_fault (r : Br) (len : Nat) : (r.init len).fault = .none := rfl
@[simp] theorem Br.init_inp (r : Br) (len : Nat) : (r.init len).inp = r.inp := rfl
@[simp] theorem Cmp.init_L (c : Cmp) (L cap : Nat) : (c.init L cap).L = L := rfl
@[simp] theorem Cmp.init_first (c : Cmp) (L cap : Nat) : (c.init L cap).first = true := rfl
@[simp] theorem Cmp.init_win (c : Cmp) (L cap : Nat) : (c.init L cap).win = [] := rfl
@[simp] theorem Cmp.init_cur (c : Cmp) (L cap : Nat) : (c.init L cap).cur = 0 := rfl
@[simp] theorem Cmp.init_gidx (c : Cmp) (L cap : Nat) : (c.init L cap).gidx = 0 := rfl
@[simp] theorem Cmp.init_tab (c : Cmp) (L cap : Nat) : (c.init L cap).tab = [] := rfl
@[simp] theorem Cmp.init_slz (c : Cmp) (L cap : Nat) : (c.init L cap).slz = unset := rfl
@[simp] theorem Cmp.init_size (c : Cmp) (L cap : Nat) : (c.init L cap).size = 0 := rfl
@[simp] theorem Cmp.init_closed (c : Cmp) (L cap : Nat) : (c.init L cap).closed = false := rfl
@[simp] theorem Cmp.init_cfg (c : Cmp) (L cap : Nat) : (c.init L cap).cfg = true := rfl
@[simp] theorem Cmp.init_fault (c : Cmp) (L cap : Nat) : (c.init L cap).fault = .none := rfl
@[simp] theorem Cmp.init_bw (c : Cmp) (L cap : Nat) : (c.init L cap).bw = c.bw.init cap := rfl
@[simp] theorem Dec.init_L (d : Dec) (L len budget : Nat) : (d.init L len budget).L = L := rfl
@[simp] theorem Dec.init_sv (d : Dec) (L len budget : Nat) : (d.init L len budget).sv = 0 := rfl
@[simp] theorem Dec.init_slz (d : Dec) (L len budget : Nat) : (d.init L len budget).slz = unset := rfl
@[simp] theorem Dec.init_stz (d : Dec) (L len budget : Nat) : (d.init L len budget).stz = 0 := rfl
@[simp] theorem Dec.init_win (d : Dec) (L len budget : Nat) : (d.init L len budget).win = [] := rfl
@[simp] theorem Dec.init_cur (d : Dec) (L len budget : Nat) : (d.init L len budget).cur = 0 := rfl
@[simp] theorem Dec.init_first (d : Dec) (L len budget : Nat) : (d.init L len budget).first = true := rfl
@[simp] theorem Dec.init_eos (d : Dec) (L len budget : Nat) : (d.init L len budget).eos = false := rfl
@[simp] theorem Dec.init_budget (d : Dec) (L len budget : Nat) : (d.init L len budget).budget = budget := rfl
@[simp] theorem Dec.init_cnt (d : Dec) (L len budget : Nat) : (d.init L len budget).cnt = 0 := rfl
@[simp] theorem Dec.init_emitted (d : Dec) (L len budget : Nat) : (d.init L len budget).emitted = 0 := rfl
@[simp] theorem Dec.init_outq (d : Dec) (L len budget : Nat) : (d.init L len budget).outq = [] := rfl
@[simp] theorem Dec.init_cfg (d : Dec) (L len budget : Nat) : (d.init L len budget).cfg = true := rfl
@[simp] theorem Dec.init_fault (d : Dec) (L len budget : Nat) : (d.init L len budget).fault = .none := rfl
@[simp] theorem Dec.init_br (d : Dec) (L len budget : Nat) : (d.init L len budget).br = d.br.init len := rfl

/-! ### The decompressor's updates -/

@[simp] theorem Dec.push_L (d : Dec) (v : Value) : (d.push v).L = d.L := rfl
@[simp] theorem Dec.push_sv (d : Dec) (v : Value) : (d.push v).sv = v := rfl
@[simp] theorem Dec.push_slz (d : Dec) (v : Value) : (d.push v).slz = d.slz := rfl
@[simp] theorem Dec.push_stz (d : Dec) (v : Value) : (d.push v).stz = d.stz := rfl
@[simp] theorem Dec.push_win (d : Dec) (v : Value) : (d.push v).win = d.win.write ((d.cur + 1) % windowSize d.L) v := rfl
@[simp] theorem Dec.push_cur (d : Dec) (v : Value) : (d.push v).cur = (d.cur + 1) % windowSize d.L := rfl
@[simp] theorem Dec.push_first (d : Dec) (v : Value) : (d.push v).first = d.first := rfl
@[simp] theorem Dec.push_eos (d : Dec) (v : Value) : (d.push v).eos = d.eos := rfl
@[simp] theorem Dec.push_budget (d : Dec) (v : Value) : (d.push v).budget = d.budget := rfl
@[simp] theorem Dec.push_cnt (d : Dec) (v : Value) : (d.push v).cnt = min (d.cnt + 1) (windowSize d.L) := rfl
@[simp] theorem Dec.push_emitted (d : Dec) (v : Value) : (d.push v).emitted = d.emitted := rfl
@[simp] theorem Dec.push_outq (d : Dec) (v : Value) : (d.push v).outq = d.outq := rfl
@[simp] theorem Dec.push_cfg (d : Dec) (v : Value) : (d.push v).cfg = d.cfg := rfl
@[simp] theorem Dec.push_fault (d : Dec) (v : Value) : (d.push v).fault = d.fault := rfl
@[simp] theorem Dec.push_br (d : Dec) (v : Value) : (d.push v).br = d.br := rfl
@[simp] theorem Dec.finish_L (d : Dec) (n : Nat) : (d.finish n).L = d.L := rfl
@[simp] theorem Dec.finish_sv (d : Dec) (n : Nat) : (d.finish n).sv = Config.freeBits n 0 := rfl
@[simp] theorem Dec.finish_slz (d : Dec) (n : Nat) : (d.finish n).slz = d.slz := rfl
@[simp] theorem Dec.finish_stz (d : Dec) (n : Nat) : (d.finish n).stz = d.stz := rfl
@[simp] theorem Dec.finish_win (d : Dec) (n : Nat) : (d.finish n).win = d.win := rfl
@[simp] theorem Dec.finish_cur (d : Dec) (n : Nat) : (d.finish n).cur = d.cur := rfl
@[simp] theorem Dec.finish_first (d : Dec) (n : Nat) : (d.finish n).first = d.first := rfl
@[simp] theorem Dec.finish_eos (d : Dec) (n : Nat) : (d.finish n).eos = true := rfl
@[simp] theorem Dec.finish_budget (d : Dec) (n : Nat) : (d.finish n).budget = d.budget := rfl
@[simp] theorem Dec.finish_cnt (d : Dec) (n : Nat) : (d.finish n).cnt = d.cnt := rfl
@[simp] theorem Dec.finish_emitted (d : Dec) (n : Nat) : (d.finish n).emitted = d.emitted := rfl
@[simp] theorem Dec.finish_outq (d : Dec) (n : Nat) : (d.finish n).outq = d.outq := rfl
@[simp] theorem Dec.finish_cfg (d : Dec) (n : Nat) : (d.finish n).cfg = d.cfg := rfl
@[simp] theorem Dec.finish_fault (d : Dec) (n : Nat) : (d.finish n).fault = d.fault := rfl
@[simp] theorem Dec.finish_br (d : Dec) (n : Nat) : (d.finish n).br = d.br := rfl
@[simp] theorem Dec.advance_L (d : Dec) (used : Nat) : (d.advance used).L = d.L := rfl
@[simp] theorem Dec.advance_sv (d : Dec) (used : Nat) : (d.advance used).sv = d.sv := rfl
@[simp] theorem Dec.advance_slz (d : Dec) (used : Nat) : (d.advance used).slz = d.slz := rfl
@[simp] theorem Dec.advance_stz (d : Dec) (used : Nat) : (d.advance used).stz = d.stz := rfl
@[simp] theorem Dec.advance_win (d : Dec) (used : Nat) : (d.advance used).win = d.win := rfl
@[simp] theorem Dec.advance_cur (d : Dec) (used : Nat) : (d.advance used).cur = d.cur := rfl
@[simp] theorem Dec.advance_first (d : Dec) (used : Nat) : (d.advance used).first = d.first := rfl
@[simp] theorem Dec.advance_eos (d : Dec) (used : Nat) : (d.advance used).eos = d.eos := rfl
@[simp] theorem Dec.advance_budget (d : Dec) (used : Nat) : (d.advance used).budget = d.budget := rfl
@[simp] theorem Dec.advance_cnt (d : Dec) (used : Nat) : (d.advance used).cnt = d.cnt := rfl
@[simp] theorem Dec.advance_emitted (d : Dec) (used : Nat) : (d.advance used).emitted = d.emitted := rfl
@[simp] theorem Dec.advance_outq (d : Dec) (used : Nat) : (d.advance used).outq = d.outq := rfl
@[simp] theorem Dec.advance_cfg (d : Dec) (used : Nat) : (d.advance used).cfg = d.cfg := rfl
@[simp] theorem Dec.advance_fault (d : Dec) (used : Nat) : (d.advance used).fault = d.fault := rfl
@[simp] theorem Dec.advance_br (d : Dec) (used : Nat) : (d.advance used).br = { d.br with pos := d.br.pos + used } := rfl

/-! ### The host's fills -/

@[simp] theorem Br.fill_len (r : Br) (n base : Nat) (bytes : List Byte) : (r.fill n base bytes).len = r.len := rfl
@[simp] theorem Br.fill_pos (r : Br) (n base : Nat) (bytes : List Byte) : (r.fill n base bytes).pos = r.pos := rfl
@[simp] theorem Br.fill_cfg (r : Br) (n base : Nat) (bytes : List Byte) : (r.fill n base bytes).cfg = r.cfg := rfl
@[simp] theorem Br.fill_fault (r : Br) (n base : Nat) (bytes : List Byte) : (r.fill n base bytes).fault = r.fault := rfl
@[simp] theorem Br.fill_inp (r : Br) (n base : Nat) (bytes : List Byte) :
    (r.fill n base bytes).inp = r.inp.writeBytes base bytes := rfl

end Sys2Proof.Machine
end

