-- ==== Sys2Proof/Laws/Writer.lean ====
section
/-! SUPPORT. The writer's primitive: `emit` either appends its bits and nothing else, or overruns. -/

namespace Sys2Proof.Machine

/-- A freshly constructed writer's registers agree (R130). -/
theorem Bw.init_inv (w : Bw) (cap : Nat) (h : w.out.wf = true) : (w.init cap).Inv where
  free_pos := by simp
  free_le := by simp
  total_eq := by simp
  within := by simp
  slots_clear := by simp
  out_wf := h

theorem Bw.Inv.nbytes_eq {w : Bw} (h : w.Inv) : w.nbytes = w.total / 8 := by
  have := h.free_pos; have := h.free_le; have := h.total_eq; omega

theorem Bw.Inv.free_eq {w : Bw} (h : w.Inv) : w.free = 8 - w.total % 8 := by
  have := h.free_pos; have := h.free_le; have := h.total_eq; omega

/-- A writer appended to agrees with itself again. -/
theorem Bw.Appends.inv {w w' : Bw} {bs : Bits} (h : w.Appends w' bs) (hroom : w.HasRoom bs.length)
    (hwf : w'.out.wf = true) : w'.Inv where
  free_pos := by have := h.free_eq; omega
  free_le := by have := h.free_eq; omega
  total_eq := by have := h.free_eq; have := h.nbytes_eq; have := h.total_eq; omega
  within := by rw [h.nbytes_eq, h.cap_eq]; exact hroom
  slots_clear := h.slots_clear
  out_wf := hwf

theorem Bw.Appends.refl {w : Bw} (h : w.Inv) : w.Appends w [] where
  cap_eq := rfl
  cfg_eq := rfl
  fault_eq := rfl
  total_eq := rfl
  nbytes_eq := h.nbytes_eq
  free_eq := h.free_eq
  slots_clear := h.slots_clear
  old_bits := fun _ _ => rfl
  new_bits := by simp
  other_bytes := fun _ _ => rfl

theorem Bw.Appends.trans {w w₁ w₂ : Bw} {as bs : Bits} (hw : w.Inv) (h₁ : w.Appends w₁ as)
    (h₂ : w₁.Appends w₂ bs) : w.Appends w₂ (as ++ bs) where
  cap_eq := h₂.cap_eq.trans h₁.cap_eq
  cfg_eq := h₂.cfg_eq.trans h₁.cfg_eq
  fault_eq := h₂.fault_eq.trans h₁.fault_eq
  total_eq := by rw [h₂.total_eq, h₁.total_eq, List.length_append, Nat.add_assoc]
  nbytes_eq := by rw [h₂.nbytes_eq, h₁.total_eq, List.length_append, Nat.add_assoc]
  free_eq := by rw [h₂.free_eq, h₁.total_eq, List.length_append, Nat.add_assoc]
  slots_clear := h₂.slots_clear
  old_bits := fun k hk => by rw [h₂.old_bits k (by rw [h₁.total_eq]; omega), h₁.old_bits k hk]
  new_bits := fun j hj => by
    rw [List.length_append] at hj
    by_cases h : j < as.length
    · rw [h₂.old_bits _ (by rw [h₁.total_eq]; omega), h₁.new_bits j h, List.getD_append _ _ _ _ h]
    · have := h₂.new_bits (j - as.length) (by omega)
      rw [List.getD_append_right _ _ _ _ (by omega), ← this, h₁.total_eq]
      congr 1; omega
  other_bytes := fun a ha => by
    have e₀ := hw.nbytes_eq
    have e₁ := h₁.nbytes_eq
    have e₂ := h₂.nbytes_eq
    rw [h₁.total_eq] at e₂
    rw [h₂.other_bytes a (by omega), h₁.other_bytes a (by omega)]

/-- One turn of the loop (R131): the bit is appended, unless it completes a byte beyond the capacity. -/
theorem Bw.pushBit_spec {w : Bw} (h : w.Inv) (b : Bool) :
    (w.HasRoom 1 → ∃ w', w.pushBit b = .ok w' ∧ w.Appends w' [b] ∧ w'.out.wf = true) ∧
    (¬ w.HasRoom 1 → w.pushBit b = .error .outputOverrun) := by
  obtain ⟨hf1, hf8, ht, hin, hsl, hwf⟩ := h
  have hacc : ∀ i < 8, (w.acc ||| (if b then 1#8 <<< (w.free - 1) else 0#8)).getLsbD i =
      (w.acc.getLsbD i || (b && decide (i = w.free - 1))) := by
    intro i hi
    cases b
    · simp
    · simp only [if_true, BitVec.getLsbD_or, BitVec.getLsbD_shiftLeft, BitVec.getLsbD_one, Bool.true_and]
      congr 1
      by_cases h1 : i = w.free - 1
      · subst h1; simp [hi]
      · have : ¬ (w.free - 1 ≤ i ∧ i - (w.free - 1) = 0) := by omega
        simp only [not_and] at this
        by_cases h2 : i < w.free - 1
        · simp [h2, h1]
        · simp [h1, this (by omega)]
  unfold Bw.HasRoom
  by_cases hf : w.free - 1 = 0
  · have hf : w.free = 1 := by omega
    by_cases hc : w.cap ≤ w.nbytes
    · exact ⟨fun hr => absurd hr (by omega), fun _ => by simp [Bw.pushBit, hf, hc]⟩
    · have e : w.pushBit b =
          .ok { w with out := w.out.write w.nbytes (w.acc ||| (if b then 1#8 <<< 0 else 0#8)),
                       nbytes := w.nbytes + 1, acc := 0, free := 8, total := w.total + 1 } := by
        simp [Bw.pushBit, hf, hc]
      refine ⟨fun _ => ⟨_, e, ?_, Memory.wf_write hwf _ _⟩,
        fun hr => absurd (show (w.total + 1) / 8 ≤ w.cap by omega) hr⟩
      rw [hf] at hacc ht
      have hbit : ∀ k, k / 8 = w.nbytes →
          Memory.bit (w.out.write w.nbytes (w.acc ||| (if b then 1#8 <<< 0 else 0#8))) k =
            (w.acc.getLsbD (7 - k % 8) || (b && decide (7 - k % 8 = 0))) := fun k hk => by
        rw [Memory.bit, Memory.read_write hwf, if_pos hk]
        simpa using hacc (7 - k % 8) (by omega)
      constructor
      · rfl
      · rfl
      · rfl
      · rfl
      · simp only [List.length_singleton]; omega
      · simp only [List.length_singleton]; omega
      · intro i hi; simp
      · intro k hk
        simp only [Bw.streamBit]
        rw [if_pos (by omega)]
        by_cases hk8 : k < 8 * w.nbytes
        · rw [if_pos hk8, Memory.bit, Memory.bit, Memory.read_write_ne _ _ (by omega)]
        · rw [if_neg hk8, hbit k (by omega)]
          have : ¬ 7 - k % 8 = 0 := by omega
          simp [this]
      · intro j hj
        obtain rfl : j = 0 := by simpa using hj
        simp only [Bw.streamBit]
        rw [if_pos (by omega), hbit _ (by omega), hsl _ (by omega)]
        have : 7 - w.total % 8 = 0 := by omega
        simp [this]
      · intro a ha
        simp only at ha
        exact Memory.read_write_ne _ _ (by omega)
  · have e : w.pushBit b =
        .ok { w with acc := w.acc ||| (if b then 1#8 <<< (w.free - 1) else 0#8), free := w.free - 1,
                     total := w.total + 1 } := by
      simp [Bw.pushBit, hf]
    refine ⟨fun _ => ⟨_, e, ?_, hwf⟩,
      fun hr => absurd (show (w.total + 1) / 8 ≤ w.cap by omega) hr⟩
    constructor
    · rfl
    · rfl
    · rfl
    · rfl
    · simp only [List.length_singleton]; omega
    · simp only [List.length_singleton]; omega
    · intro i hi
      simp only at hi ⊢
      rw [hacc i (by omega), hsl i (by omega)]
      have : ¬ i = w.free - 1 := by omega
      simp [this]
    · intro k hk
      simp only [Bw.streamBit]
      by_cases hk8 : k < 8 * w.nbytes
      · rw [if_pos hk8, if_pos hk8]
      · rw [if_neg hk8, if_neg hk8, hacc _ (by omega)]
        have : ¬ 7 - k % 8 = w.free - 1 := by omega
        simp [this]
    · intro j hj
      obtain rfl : j = 0 := by simpa using hj
      simp only [Bw.streamBit]
      rw [if_neg (by omega), hacc _ (by omega), hsl _ (by omega)]
      have : 7 - w.total % 8 = w.free - 1 := by omega
      simp [this]
    · exact fun _ _ => rfl

/-- All that `emit` can do (R131): with room it appends exactly its bits, without room it overruns. -/
theorem Bw.emit_spec {w : Bw} (h : w.Inv) (bs : Bits) :
    (w.HasRoom bs.length → ∃ w', w.emit bs = .ok w' ∧ w.Appends w' bs ∧ w'.Inv) ∧
    (¬ w.HasRoom bs.length → w.emit bs = .error .outputOverrun) := by
  induction bs generalizing w with
  | nil =>
    refine ⟨fun _ => ⟨w, rfl, .refl h, h⟩, fun hr => absurd ?_ hr⟩
    have := h.within; have := h.nbytes_eq
    simp only [Bw.HasRoom, List.length_nil]; omega
  | cons b bs ih =>
    have hsp := Bw.pushBit_spec h b
    simp only [Bw.emit]
    by_cases h1 : w.HasRoom 1
    · obtain ⟨w₁, e₁, a₁, wf₁⟩ := hsp.1 h1
      have i₁ := a₁.inv h1 wf₁
      have ht := a₁.total_eq
      have hcap := a₁.cap_eq
      rw [e₁]
      have hiff : w.HasRoom (b :: bs).length ↔ w₁.HasRoom bs.length := by
        simp only [Bw.HasRoom, List.length_cons, List.length_nil] at *
        rw [ht, hcap]
        constructor <;> intro hh <;> omega
      refine ⟨fun hr => ?_, fun hr => (ih i₁).2 (hiff.not.mp hr)⟩
      obtain ⟨w₂, e₂, a₂, i₂⟩ := (ih i₁).1 (hiff.mp hr)
      exact ⟨w₂, e₂, a₁.trans h a₂, i₂⟩
    · rw [hsp.2 h1]
      refine ⟨fun hr => absurd ?_ h1, fun _ => rfl⟩
      simp only [Bw.HasRoom, List.length_cons] at *
      omega

/-- `emit` of nothing answers, and what `emit` answers it has appended. -/
theorem Bw.emit_ok {w w' : Bw} {bs : Bits} (h : w.Inv) (he : w.emit bs = .ok w') :
    w.HasRoom bs.length ∧ w.Appends w' bs ∧ w'.Inv := by
  by_cases hr : w.HasRoom bs.length
  · obtain ⟨w₂, e₂, a₂, i₂⟩ := (Bw.emit_spec h bs).1 hr
    obtain rfl : w₂ = w' := by rw [e₂] at he; exact Except.ok.inj he
    exact ⟨hr, a₂, i₂⟩
  · rw [(Bw.emit_spec h bs).2 hr] at he; cases he

/-- The only fault of `emit` is the overrun, in any state. -/
theorem Bw.emit_error {w : Bw} {bs : Bits} {f : FaultCode} (he : w.emit bs = .error f) : f = .outputOverrun := by
  induction bs generalizing w with
  | nil => cases he
  | cons b bs ih =>
    simp only [Bw.emit] at he
    cases hp : w.pushBit b with
    | ok w₁ => rw [hp] at he; exact ih he
    | error e =>
      rw [hp] at he
      rw [← Except.error.inj he]
      unfold Bw.pushBit at hp
      dsimp only at hp
      split_ifs at hp
      cases hp
      rfl

theorem Bw.emit_append (w : Bw) (as bs : Bits) :
    w.emit (as ++ bs) = match w.emit as with
      | .error f => .error f
      | .ok w => w.emit bs := by
  induction as generalizing w with
  | nil => rfl
  | cons b as ih =>
    simp only [List.cons_append, Bw.emit]
    cases w.pushBit b with
    | error f => rfl
    | ok w => exact ih w

/-- The writer's counters agree with each other, whatever its space holds. -/
structure Bw.Counts (w : Bw) : Prop where
  free_pos : 1 ≤ w.free
  free_le : w.free ≤ 8
  total_eq : w.total = 8 * w.nbytes + (8 - w.free)
  within : w.nbytes ≤ w.cap

theorem Bw.Inv.counts {w : Bw} (h : w.Inv) : w.Counts := ⟨h.free_pos, h.free_le, h.total_eq, h.within⟩

theorem Bw.init_counts (w : Bw) (cap : Nat) : (w.init cap).Counts := ⟨by simp, by simp, by simp, by simp⟩

theorem Bw.pushBit_counts {w : Bw} (h : w.Counts) (b : Bool) (hr : w.HasRoom 1) :
    ∃ w', w.pushBit b = .ok w' ∧ w'.Counts ∧ w'.total = w.total + 1 ∧ w'.cap = w.cap := by
  obtain ⟨h1, h2, h3, h4⟩ := h
  unfold Bw.HasRoom at hr
  unfold Bw.pushBit
  dsimp only
  by_cases hf : w.free - 1 = 0
  · rw [if_pos hf, if_neg (show ¬ w.cap ≤ w.nbytes by omega)]
    refine ⟨_, rfl, ⟨?_, ?_, ?_, ?_⟩, rfl, rfl⟩ <;> dsimp only <;> omega
  · rw [if_neg hf]
    refine ⟨_, rfl, ⟨?_, ?_, ?_, ?_⟩, rfl, rfl⟩ <;> dsimp only <;> omega

/-- Whether `emit` fits depends on the counters alone. -/
theorem Bw.emit_counts {w : Bw} (h : w.Counts) (bs : Bits) (hr : w.HasRoom bs.length) :
    ∃ w', w.emit bs = .ok w' ∧ w'.Counts ∧ w'.total = w.total + bs.length ∧ w'.cap = w.cap := by
  induction bs generalizing w with
  | nil => exact ⟨w, rfl, h, rfl, rfl⟩
  | cons b bs ih =>
    simp only [Bw.HasRoom, List.length_cons] at hr
    obtain ⟨w₁, e₁, c₁, t₁, k₁⟩ := Bw.pushBit_counts h b (by unfold Bw.HasRoom; omega)
    obtain ⟨w₂, e₂, c₂, t₂, k₂⟩ := ih c₁ (by unfold Bw.HasRoom; rw [t₁, k₁]; omega)
    refine ⟨w₂, by simp only [Bw.emit, e₁, e₂], c₂, ?_, k₂.trans k₁⟩
    rw [t₂, t₁, List.length_cons]; omega

/-! ### The writing commands -/

theorem State.writeBits_refused {s : State} {bits : Bits} (h : s.bw.ready = false) : s.writeBits bits = s.refuse .bw := by
  simp [State.writeBits, h]

theorem State.writeBits_ok {s : State} {bits : Bits} {w : Bw} (h : s.bw.ready = true) (he : s.bw.emit bits = .ok w) :
    s.writeBits bits = { s with bw := w }.respond .bw .ok (BitVec.ofNat 64 bits.length) := by
  simp [State.writeBits, h, he]

theorem State.writeBits_error {s : State} {bits : Bits} {f : FaultCode} (h : s.bw.ready = true)
    (he : s.bw.emit bits = .error f) : s.writeBits bits = s.raise .bw f := by
  simp [State.writeBits, h, he]

end Sys2Proof.Machine
end

