-- ==== Sys2Proof/Laws/Compressor.lean ====
section
/-! SUPPORT. The compressor's shared operations: what storing a value, compressing a value and closing can do. -/

namespace Sys2Proof.Machine

/-! ### Storing a value -/

@[simp] theorem Cmp.store_L (c : Cmp) (v : Value) : (c.store v).L = c.L := by unfold Cmp.store; split <;> rfl
@[simp] theorem Cmp.store_first (c : Cmp) (v : Value) : (c.store v).first = false := by
  unfold Cmp.store; split
  · rfl
  · simp_all
@[simp] theorem Cmp.store_slz (c : Cmp) (v : Value) : (c.store v).slz = c.slz := by unfold Cmp.store; split <;> rfl
@[simp] theorem Cmp.store_size (c : Cmp) (v : Value) : (c.store v).size = c.size := by unfold Cmp.store; split <;> rfl
@[simp] theorem Cmp.store_closed (c : Cmp) (v : Value) : (c.store v).closed = c.closed := by
  unfold Cmp.store; split <;> rfl
@[simp] theorem Cmp.store_cfg (c : Cmp) (v : Value) : (c.store v).cfg = c.cfg := by unfold Cmp.store; split <;> rfl
@[simp] theorem Cmp.store_fault (c : Cmp) (v : Value) : (c.store v).fault = c.fault := by
  unfold Cmp.store; split <;> rfl
@[simp] theorem Cmp.store_bw (c : Cmp) (v : Value) : (c.store v).bw = c.bw := by unfold Cmp.store; split <;> rfl

/-- The first value goes to slot 0 and position 0 (R173). -/
theorem Cmp.store_of_first {c : Cmp} (h : c.first = true) (v : Value) :
    c.store v = { c with first := false, win := c.win.write 0 v, tab := c.tab.write (keyOf c.L v) 0 } := by
  simp [Cmp.store, h]

/-- A later value goes to the next slot and position (R187). -/
theorem Cmp.store_of_later {c : Cmp} (h : c.first = false) (v : Value) :
    c.store v =
      { c with
        cur := (c.cur + 1) % windowSize c.L, win := c.win.write ((c.cur + 1) % windowSize c.L) v
        gidx := c.gidx + 1, tab := c.tab.write (keyOf c.L v) (c.gidx + 1) } := by
  simp [Cmp.store, h]

/-! ### The value step -/

/-- All that the value step can do (R197): with room for the code of the value it appends the code, counts its bits,
updates the stored bucket and stores the value; without, it overruns. -/
theorem Cmp.compressValue_spec {c : Cmp} (h : c.bw.Inv) (v : Value) :
    (c.bw.HasRoom (encodeCode c.codeCtx (c.codeOf v)).length →
      ∃ w, c.bw.Appends w (encodeCode c.codeCtx (c.codeOf v)) ∧ w.Inv ∧
        c.compressValue v =
          .ok ({ c with bw := w, size := c.size + (encodeCode c.codeCtx (c.codeOf v)).length,
                        slz := slzAfter c.slz (c.codeOf v) }.store v)) ∧
    (¬ c.bw.HasRoom (encodeCode c.codeCtx (c.codeOf v)).length → c.compressValue v = .error .outputOverrun) := by
  have hs := Bw.emit_spec h (encodeCode c.codeCtx (c.codeOf v))
  refine ⟨fun hr => ?_, fun hr => ?_⟩
  · obtain ⟨w, e, ha, hi⟩ := hs.1 hr
    exact ⟨w, ha, hi, by simp [Cmp.compressValue, e]⟩
  · simp [Cmp.compressValue, hs.2 hr]

/-- The result of a value step that answers, in any state. -/
theorem Cmp.compressValue_ok {c c' : Cmp} {v : Value} (h : c.compressValue v = .ok c') :
    ∃ w, c.bw.emit (encodeCode c.codeCtx (c.codeOf v)) = .ok w ∧
      c' = { c with bw := w, size := c.size + (encodeCode c.codeCtx (c.codeOf v)).length,
                    slz := slzAfter c.slz (c.codeOf v) }.store v := by
  unfold Cmp.compressValue at h
  cases he : c.bw.emit (encodeCode c.codeCtx (c.codeOf v)) with
  | error f => simp [he] at h
  | ok w => simp only [he] at h; exact ⟨w, rfl, (Except.ok.inj h).symm⟩

/-- The only fault of the value step is the overrun. -/
theorem Cmp.compressValue_error {c : Cmp} {v : Value} {f : FaultCode} (h : c.compressValue v = .error f) :
    f = .outputOverrun := by
  unfold Cmp.compressValue at h
  cases he : c.bw.emit (encodeCode c.codeCtx (c.codeOf v)) with
  | error e => simp only [he] at h; exact (Except.error.inj h) ▸ Bw.emit_error he
  | ok w => simp [he] at h

@[simp] theorem Cmp.addAll_nil (c : Cmp) : c.addAll [] = .ok c := rfl

/-- Adding values one by one and then others is adding them all. -/
theorem Cmp.addAll_append (c : Cmp) (us vs : List Value) :
    c.addAll (us ++ vs) = match c.addAll us with
      | .error f => .error f
      | .ok c => c.addAll vs := by
  induction us generalizing c with
  | nil => rfl
  | cons u us ih =>
    simp only [List.cons_append, Cmp.addAll]
    cases c.compressValue u with
    | error f => rfl
    | ok c => exact ih c

/-- The trailer is the zero bit and the padding to the byte boundary (R97, R191). -/
theorem Cmp.trailer_eq (c : Cmp) : c.trailer = List.replicate (1 + padBits (c.bw.total + 1)) false := by
  have h : (BitVec.ofNat 3 (padBits (c.bw.total + 1))).toNat = padBits (c.bw.total + 1) := by
    simp [Nat.mod_eq_of_lt (padBits_lt (c.bw.total + 1))]
  simp [Cmp.trailer, encodeCode, h]

/-- What closing answers (R191): the value step on the sentinel, then the trailer, then the flag. -/
theorem Cmp.close_ok {c c' : Cmp} (h : c.close = .ok c') :
    ∃ c₁ w, c.compressValue sentinel = .ok c₁ ∧ c₁.bw.emit c₁.trailer = .ok w ∧
      c' = { c₁ with bw := w, closed := true } := by
  unfold Cmp.close at h
  cases h₁ : c.compressValue sentinel with
  | error f => simp [h₁] at h
  | ok c₁ =>
    simp only [h₁] at h
    cases h₂ : c₁.bw.emit c₁.trailer with
    | error f => simp [h₂] at h
    | ok w => simp only [h₂] at h; exact ⟨c₁, w, rfl, h₂, (Except.ok.inj h).symm⟩

/-- The only fault of closing is the overrun. -/
theorem Cmp.close_error {c : Cmp} {f : FaultCode} (h : c.close = .error f) : f = .outputOverrun := by
  unfold Cmp.close at h
  cases h₁ : c.compressValue sentinel with
  | error e => simp only [h₁] at h; exact (Except.error.inj h) ▸ Cmp.compressValue_error h₁
  | ok c₁ =>
    simp only [h₁] at h
    cases h₂ : c₁.bw.emit c₁.trailer with
    | error e => simp only [h₂] at h; exact (Except.error.inj h) ▸ Bw.emit_error h₂
    | ok w => simp [h₂] at h

/-! ### The commands that add to the stream -/

theorem State.compressorStep_refused {s : State} {body : Except FaultCode Cmp} (h : s.cmp.accepts = false) :
    s.compressorStep body = s.refuse .cmp := by
  simp [State.compressorStep, h]

theorem State.compressorStep_ok {s : State} {c : Cmp} (h : s.cmp.accepts = true) :
    s.compressorStep (.ok c) = { s with cmp := c }.respond .cmp .ok 0 := by
  simp [State.compressorStep, h]

theorem State.compressorStep_error {s : State} {f : FaultCode} (h : s.cmp.accepts = true) :
    s.compressorStep (.error f) = s.raise .cmp f := by
  simp [State.compressorStep, h]

/-- What an accepting compressor is (R174, R176). -/
theorem Cmp.accepts_iff (c : Cmp) :
    c.accepts = true ↔ c.cfg = true ∧ c.fault = .none ∧ c.closed = false ∧ (c.first = true ∨ c.gidx < lastPosition) := by
  cases h : c.first <;> simp [Cmp.accepts, Cmp.ready, Cmp.atLimit, h, and_assoc]

end Sys2Proof.Machine
end

