-- ==== Sys2Proof/Laws/Reader.lean ====
section
/-! SUPPORT. The reader's primitive: the bits it sees, and all that `take` can do. -/

namespace Sys2Proof.Machine

theorem Br.byteAt_of_empty {r : Br} (h : r.held = []) (a : Nat) : r.byteAt a = r.inp.read a := by
  simp [Br.byteAt, h]

/-- A freshly constructed reader sees its space (R150, R302). -/
@[simp] theorem Br.byteAt_init (r : Br) (len a : Nat) : (r.init len).byteAt a = r.inp.read a :=
  Br.byteAt_of_empty rfl a

/-- Moving the cursor changes no byte the reader sees. -/
theorem Br.byteAt_pos (r : Br) (p a : Nat) : ({ r with pos := p } : Br).byteAt a = r.byteAt a := rfl

theorem Br.bitAt_pos (r : Br) (p k : Nat) : ({ r with pos := p } : Br).bitAt k = r.bitAt k := rfl

@[simp] theorem Br.bitsFrom_length (r : Br) (k n : Nat) : (r.bitsFrom k n).length = n := by
  induction n generalizing k with
  | zero => rfl
  | succ n ih => simp [Br.bitsFrom, ih]

theorem Br.bitsFrom_getD (r : Br) (k n j : Nat) (h : j < n) : (r.bitsFrom k n).getD j false = r.bitAt (k + j) := by
  induction n generalizing k j with
  | zero => omega
  | succ n ih =>
    cases j with
    | zero => simp [Br.bitsFrom]
    | succ j =>
      simp only [Br.bitsFrom, List.getD_cons_succ]
      rw [ih (k + 1) j (by omega)]
      congr 1; omega

theorem Br.bitsFrom_append (r : Br) (k m n : Nat) :
    r.bitsFrom k (m + n) = r.bitsFrom k m ++ r.bitsFrom (k + m) n := by
  induction m generalizing k with
  | zero => simp [Br.bitsFrom]
  | succ m ih =>
    rw [Nat.succ_add]
    simp only [Br.bitsFrom, List.cons_append, ih]
    congr 3; omega

theorem Br.bitsFrom_pos (r : Br) (p k n : Nat) : ({ r with pos := p } : Br).bitsFrom k n = r.bitsFrom k n := by
  induction n generalizing k with
  | zero => rfl
  | succ n ih => simp [Br.bitsFrom, ih, Br.bitAt_pos]

/-- Two bit strings of one length that agree bit by bit are one. -/
theorem bits_ext {as bs : Bits} (hl : as.length = bs.length)
    (h : ∀ j < bs.length, as.getD j false = bs.getD j false) : as = bs := by
  apply List.ext_getElem hl
  intro j h1 h2
  have := h j h2
  rwa [List.getD_eq_getElem _ _ h1, List.getD_eq_getElem _ _ h2] at this

/-- The bits of a field as the statements write them are the bits the encoder writes (R63). -/
theorem fieldBits_eq_natBits (v n : Nat) : fieldBits v n = natBits v n := by
  refine bits_ext (by simp [fieldBits]) fun j hj => ?_
  have hj : j < n := by simpa [fieldBits] using hj
  rw [natBits_getD v n j hj]
  simp [fieldBits, List.getD_eq_getElem?_getD, hj]

/-- A reader that faces some bits reads them. -/
theorem Br.Faces.bitsFrom_eq {r : Br} {bs : Bits} (h : r.Faces bs) : r.bitsFrom r.pos bs.length = bs :=
  bits_ext (by simp) fun j hj => by rw [Br.bitsFrom_getD _ _ _ _ hj, h.2 j hj]

/-- All that `take` can do (R151). -/
theorem Br.take_spec (r : Br) (n : Nat) :
    (r.pos + n ≤ 8 * r.len → r.take n = .ok (bitsNat (r.bitsFrom r.pos n), { r with pos := r.pos + n })) ∧
    (8 * r.len < r.pos + n → r.take n = .error .inputExhausted) := by
  unfold Br.take
  exact ⟨fun h => if_neg (by omega), fun h => if_pos h⟩

/-- The number of `n` bits is made of those bits (R63, R111). -/
theorem Br.reads_bitsNat (r : Br) (k n : Nat) (hn : n ≤ 64) : r.Reads k n (BitVec.ofNat 64 (bitsNat (r.bitsFrom k n))) := by
  have hlt : bitsNat (r.bitsFrom k n) < 2 ^ n := by simpa using bitsNat_lt (r.bitsFrom k n)
  constructor
  · intro j hj
    rw [BitVec.getLsbD_ofNat, testBit_bitsNat _ _ (by simp; omega), Br.bitsFrom_length]
    have e : n - 1 - (n - 1 - j) = j := by omega
    have h64 : n - 1 - j < 64 := by omega
    rw [e, Br.bitsFrom_getD _ _ _ _ hj]
    simp [h64]
  · intro i hi
    rw [BitVec.getLsbD_ofNat, Nat.testBit_lt_two_pow (hlt.trans_le (Nat.pow_le_pow_right (by omega) hi)), Bool.and_false]

/-! ### The reading commands -/

theorem State.readBits_refused {s : State} {n : Nat} (h : s.br.ready = false) : s.readBits n = s.refuse .br := by
  simp [State.readBits, h]

theorem State.readBits_ok {s : State} {n : Nat} (h : s.br.ready = true) (hn : s.br.pos + n ≤ 8 * s.br.len) :
    s.readBits n = { s with br := { s.br with pos := s.br.pos + n } }.respond .br .ok
      (BitVec.ofNat 64 (bitsNat (s.br.bitsFrom s.br.pos n))) := by
  simp [State.readBits, h, (Br.take_spec s.br n).1 hn]

theorem State.readBits_error {s : State} {n : Nat} (h : s.br.ready = true) (hn : 8 * s.br.len < s.br.pos + n) :
    s.readBits n = s.raise .br .inputExhausted := by
  simp [State.readBits, h, (Br.take_spec s.br n).2 hn]

/-! ### The lookahead -/

/-- Only addresses whose first bit is within the lookahead are held anew (R30, R72). -/
theorem Br.lookahead_near {r : Br} {a : Nat} (h : a ∈ r.lookahead) : 8 * a < r.pos + 31 := by
  simp only [Br.lookahead, List.mem_filter, Bool.and_eq_true, decide_eq_true_eq] at h
  exact h.2.1

theorem lookup_map_self {α β : Type} [DecidableEq α] (l : List α) (f : α → β) (a : α) :
    (l.map fun x => (x, f x)).lookup a = if a ∈ l then some (f a) else none := by
  induction l with
  | nil => rfl
  | cons x l ih =>
    simp only [List.map_cons, List.lookup_cons, ih, List.mem_cons]
    by_cases h : a = x
    · subst h; simp
    · have : (a == x) = false := by simpa using h
      simp [this, h]

/-- What a byte reads after the host has stored over it: the old byte or the stored one (R80, U9). -/
theorem Br.byteAt_fill (r : Br) (n base : Nat) (bytes : List Byte) (a : Nat) :
    (r.fill n base bytes).byteAt a = r.byteAt a ∨
      (r.fill n base bytes).byteAt a = (r.inp.writeBytes base bytes).read a := by
  have key : ∀ held : List Host.Cell, held = r.held ∨ held = r.held ++ r.newlyHeld n base bytes.length →
      (held.lookup a).getD ((r.inp.writeBytes base bytes).read a) = r.byteAt a ∨
      (held.lookup a).getD ((r.inp.writeBytes base bytes).read a) = (r.inp.writeBytes base bytes).read a := by
    rintro held (rfl | rfl)
    · cases h : r.held.lookup a with
      | none => right; rfl
      | some b => left; simp [Br.byteAt, h]
    · rw [List.lookup_append]
      cases h : r.held.lookup a with
      | some b => left; simp [Br.byteAt, h]
      | none =>
        rw [Br.newlyHeld, lookup_map_self]
        split_ifs
        exacts [.inl (by simp), .inr (by simp)]
  unfold Br.fill
  rw [Br.byteAt]
  dsimp only
  split_ifs
  exacts [key _ (.inr rfl), key _ (.inl rfl)]

/-! ### Stores by the host -/

/-- Storing a run of bytes is what the host asked for (R60). -/
theorem Memory.stores_writeBytes (m : Memory) (base : Nat) (bytes : List Byte) :
    m.Stores (m.writeBytes base bytes) base bytes :=
  ⟨rfl, fun h a => Memory.read_writeBytes h base a bytes⟩

/-- All that a host store into a reader's space does to the reader (R72, R80, R312). -/
theorem Br.receives_fill (r : Br) (n base : Nat) (bytes : List Byte) :
    r.Receives (r.fill n base bytes) base bytes := by
  refine ⟨⟨_, _, rfl⟩, r.inp.stores_writeBytes base bytes, fun a ha hl => ?_, fun a => r.byteAt_fill n base bytes a⟩
  have far : (r.newlyHeld n base bytes.length).lookup a = none := by
    rw [Br.newlyHeld, lookup_map_self, if_neg]
    intro hm
    have := Br.lookahead_near (List.mem_of_mem_filter hm)
    omega
  have none_held : (r.fill n base bytes).held.lookup a = none := by
    unfold Br.fill
    dsimp only
    split_ifs
    · rw [List.lookup_append, hl, far]; rfl
    · exact hl
  rw [Br.byteAt, none_held]
  rfl

end Sys2Proof.Machine
end

