-- ==== Sys2Proof/Laws/Decompressor.lean ====
section
/-! SUPPORT. The decompressor's shared operations: fetching a code, its effect, the value step and the delivery loop. -/

namespace Sys2Proof.Machine

/-- A decoding error is never reported as no fault. -/
theorem codeFault_eq (e : CodeError) :
    codeFault e = if e = .exhausted then .inputExhausted else .malformedStream := by
  cases e <;> simp [codeFault]

/-- The effect of a code can only fail as malformed (R274). -/
theorem Dec.takeCode_error {d : Dec} {n : Nat} {c : Code} {f : FaultCode} (h : d.takeCode n c = .error f) :
    f = .malformedStream := by
  cases c <;>
    simp only [Dec.takeCode, Dec.takeRep, Dec.takeIdx, Dec.takeSame] at h <;>
    (try split_ifs at h) <;> cases h <;> rfl

/-- What no code changes: the window size, the budget, the deliveries and the reader. -/
structure Dec.SameStream (d d' : Dec) : Prop where
  L_eq : d'.L = d.L
  budget_eq : d'.budget = d.budget
  emitted_eq : d'.emitted = d.emitted
  outq_eq : d'.outq = d.outq
  cfg_eq : d'.cfg = d.cfg
  fault_eq : d'.fault = d.fault
  br_eq : d'.br = d.br

theorem Dec.deliver_sameStream (d : Dec) (n : Nat) (v : Value) : d.SameStream (d.deliver n v) := by
  unfold Dec.deliver; split <;> exact ⟨rfl, rfl, rfl, rfl, rfl, rfl, rfl⟩

/-- The effect of a code stays inside the window, the last value and the flags (R212 to R217). -/
theorem Dec.takeCode_sameStream {d d' : Dec} {n : Nat} {c : Code} (h : d.takeCode n c = .ok d') : d.SameStream d' := by
  cases c with
  | raw64 v =>
    obtain rfl := Except.ok.inj h
    unfold Dec.takeRaw; dsimp only; split <;> exact ⟨rfl, rfl, rfl, rfl, rfl, rfl, rfl⟩
  | rep slot =>
    simp only [Dec.takeCode, Dec.takeRep] at h
    split_ifs at h
    obtain rfl := Except.ok.inj h
    exact ⟨rfl, rfl, rfl, rfl, rfl, rfl, rfl⟩
  | idx slot lzc sig payload =>
    simp only [Dec.takeCode, Dec.takeIdx] at h
    split_ifs at h
    obtain rfl := Except.ok.inj h
    obtain ⟨h1, h2, h3, h4, h5, h6, h7⟩ := Dec.deliver_sameStream
      { d with slz := unset, stz := 64 - sigWidth sig - bucket lzc } n
      (d.win.read slot.toNat ^^^ payload <<< (64 - sigWidth sig - bucket lzc))
    exact ⟨h1, h2, h3, h4, h5, h6, h7⟩
  | same payload =>
    simp only [Dec.takeCode, Dec.takeSame] at h
    split_ifs at h
    obtain rfl := Except.ok.inj h
    exact Dec.deliver_sameStream _ _ _
  | new lzc payload =>
    obtain rfl := Except.ok.inj h
    obtain ⟨h1, h2, h3, h4, h5, h6, h7⟩ :=
      Dec.deliver_sameStream { d with slz := bucket lzc } n (d.sv ^^^ payload)
    exact ⟨h1, h2, h3, h4, h5, h6, h7⟩
  | term pad =>
    obtain rfl := Except.ok.inj h
    exact ⟨rfl, rfl, rfl, rfl, rfl, rfl, rfl⟩

@[simp] theorem Dec.upcoming_length (d : Dec) : d.upcoming.length = min (d.L + 75) (8 * d.br.len - d.br.pos) := by
  simp [Dec.upcoming]

/-- What a decoder that faces some bits is given starts with them; what follows is all it may still look at (R99). -/
theorem Dec.upcoming_of_faces {d : Dec} {bs : Bits} (h : d.br.Faces bs) (hl : bs.length ≤ d.L + 75) :
    ∃ rest, d.upcoming = bs ++ rest ∧ bs.length + rest.length = min (d.L + 75) (8 * d.br.len - d.br.pos) := by
  have hend := h.1
  obtain ⟨k, hk⟩ : ∃ k, min (d.L + 75) (8 * d.br.len - d.br.pos) = bs.length + k :=
    ⟨min (d.L + 75) (8 * d.br.len - d.br.pos) - bs.length, by omega⟩
  refine ⟨d.br.bitsFrom (d.br.pos + bs.length) k, ?_, by simp [hk]⟩
  rw [Dec.upcoming, hk, Br.bitsFrom_append, h.bitsFrom_eq]

/-- A decoder is given only bits of the bytes inside its buffer (R71): two readers that see the same bytes there, at the
same place, are given the same bits. -/
theorem Dec.upcoming_congr {d d' : Dec} (hL : d'.L = d.L) (hlen : d'.br.len = d.br.len) (hpos : d'.br.pos = d.br.pos)
    (h : ∀ a < d.br.len, d'.br.byteAt a = d.br.byteAt a) : d'.upcoming = d.upcoming := by
  refine bits_ext (by simp [Dec.upcoming_length, hL, hlen, hpos]) fun j hj => ?_
  have hj' := hj
  rw [Dec.upcoming_length] at hj'
  rw [Dec.upcoming, Dec.upcoming, Br.bitsFrom_getD _ _ _ _ (by rw [hL, hlen, hpos]; exact hj'),
    Br.bitsFrom_getD _ _ _ _ hj', Br.bitAt, Br.bitAt, hpos, h _ (by omega)]

theorem Dec.fetch_of_eos {d : Dec} (h : d.eos = true) :
    d.fetch = .ok (.term (BitVec.ofNat 3 (padBits (d.br.pos + 1))), 0) := by
  simp [Dec.fetch, h]

theorem Dec.fetch_ok {d : Dec} {c : Code} {more : Bits} (h : d.eos = false)
    (hd : decodeCode d.codeCtx d.upcoming = .ok (c, more)) :
    d.fetch = .ok (c, d.upcoming.length - more.length) := by
  simp [Dec.fetch, h, hd]

theorem Dec.fetch_error {d : Dec} {e : CodeError} (h : d.eos = false)
    (hd : decodeCode d.codeCtx d.upcoming = .error e) : d.fetch = .error (codeFault e) := by
  simp [Dec.fetch, h, hd]

/-- A code never uses bits past the buffer (R71). -/
theorem Dec.fetch_used_le {d : Dec} {c : Code} {used : Nat} (h : d.fetch = .ok (c, used)) :
    used ≤ 8 * d.br.len - d.br.pos := by
  unfold Dec.fetch at h
  split_ifs at h
  · obtain ⟨-, rfl⟩ := Prod.mk.inj (Except.ok.inj h); omega
  · cases hd : decodeCode d.codeCtx d.upcoming with
    | error e => simp [hd] at h
    | ok p =>
      simp only [hd] at h
      obtain ⟨-, rfl⟩ := Prod.mk.inj (Except.ok.inj h)
      have := d.upcoming_length
      omega

theorem Dec.nextValue_ok {d : Dec} {n : Nat} {c : Code} {used : Nat} (h : d.fetch = .ok (c, used)) :
    d.nextValue n = (d.advance used).takeCode n c := by
  simp [Dec.nextValue, h]

theorem Dec.nextValue_error {d : Dec} {n : Nat} {f : FaultCode} (h : d.fetch = .error f) :
    d.nextValue n = .error f := by
  simp [Dec.nextValue, h]

/-- After the end of the stream the value step changes nothing (R222). -/
theorem Dec.nextValue_of_eos {d : Dec} (n : Nat) (h : d.eos = true) : d.nextValue n = .ok d := by
  rw [Dec.nextValue_ok (Dec.fetch_of_eos h)]; rfl

/-- A failing value step is exhausted or malformed (R274). -/
theorem Dec.nextValue_fault {d : Dec} {n : Nat} {f : FaultCode} (h : d.nextValue n = .error f) :
    f = .inputExhausted ∨ f = .malformedStream := by
  cases hf : d.fetch with
  | ok p =>
    rw [Dec.nextValue_ok (c := p.1) (used := p.2) hf] at h
    exact .inr (Dec.takeCode_error h)
  | error e =>
    rw [Dec.nextValue_error hf] at h
    obtain rfl := Except.error.inj h
    unfold Dec.fetch at hf
    split_ifs at hf
    cases hd : decodeCode d.codeCtx d.upcoming with
    | ok p => simp [hd] at hf
    | error e =>
      simp only [hd] at hf
      rw [← Except.error.inj hf, codeFault_eq]
      split <;> simp

/-- What a value step that answers keeps: all but the window, the last value, the flags and the cursor. -/
theorem Dec.nextValue_keeps {d d' : Dec} {n : Nat} (h : d.nextValue n = .ok d') :
    d'.L = d.L ∧ d'.budget = d.budget ∧ d'.emitted = d.emitted ∧ d'.outq = d.outq ∧ d'.cfg = d.cfg ∧
      d'.fault = d.fault ∧ ∃ used, used ≤ 8 * d.br.len - d.br.pos ∧ d'.br = { d.br with pos := d.br.pos + used } := by
  cases hf : d.fetch with
  | error e => rw [Dec.nextValue_error hf] at h; cases h
  | ok p =>
    rw [Dec.nextValue_ok (c := p.1) (used := p.2) hf] at h
    obtain ⟨h1, h2, h3, h4, h5, h6, h7⟩ := Dec.takeCode_sameStream h
    exact ⟨h1, h2, h3, h4, h5, h6, p.2, Dec.fetch_used_le hf, h7⟩

/-! ### The delivery loop -/

theorem Dec.getValues_of_spent {d : Dec} (n : Nat) (h : d.budget ≤ d.emitted) : d.getValues n = .ok d := by
  have : d.budget - d.emitted = 0 := by omega
  simp [Dec.getValues, this, Dec.deliverValues]

/-- One turn of the loop (R221). -/
theorem Dec.getValues_step {d : Dec} (n : Nat) (h : d.emitted < d.budget) :
    d.getValues n = match d.nextValue n with
      | .error f => .error f
      | .ok d' =>
        if d'.eos then .ok d'
        else Dec.getValues { d' with outq := d'.outq ++ [d'.sv], emitted := d'.emitted + 1 } n := by
  obtain ⟨k, hk⟩ : ∃ k, d.budget - d.emitted = k + 1 := ⟨d.budget - d.emitted - 1, by omega⟩
  unfold Dec.getValues
  rw [hk]
  simp only [Dec.deliverValues]
  cases hn : d.nextValue n with
  | error f => rfl
  | ok d' =>
    obtain ⟨-, hb, he, -⟩ := Dec.nextValue_keeps hn
    have : d'.budget - (d'.emitted + 1) = k := by omega
    simp [this]

/-! ### The decoding commands -/

theorem State.decompressorStep_refused {s : State} {body : Except FaultCode Dec} {data : Dec → BitVec 64}
    (h : s.dec.ready = false) : s.decompressorStep body data = s.refuse .dec := by
  simp [State.decompressorStep, h]

theorem State.decompressorStep_ok {s : State} {d : Dec} {data : Dec → BitVec 64} (h : s.dec.ready = true) :
    s.decompressorStep (.ok d) data = { s with dec := d }.respond .dec .ok (data d) := by
  simp [State.decompressorStep, h]

theorem State.decompressorStep_error {s : State} {f : FaultCode} {data : Dec → BitVec 64} (h : s.dec.ready = true) :
    s.decompressorStep (.error f) data = s.raise .dec f := by
  simp [State.decompressorStep, h]

@[simp] theorem State.afterCode_ok (s : State) (d : Dec) : s.afterCode (.ok d) = { s with dec := d } := rfl

@[simp] theorem State.afterCode_error (s : State) (f : FaultCode) : s.afterCode (.error f) = s.raise .dec f := rfl

end Sys2Proof.Machine
end

