-- ==== Sys2Proof/Laws/Step.lean ====
section
/-! SUPPORT. What a step does with each event of the host: one lemma per event, so that no proof unfolds `step`. -/

namespace Sys2Proof.Machine

@[simp] theorem tickOutcome_next (s : State) : tickOutcome (.next s) = .next s.tick := rfl

theorem step_of_idle {s : State} (h : s.inbox = []) : step s = .next s := by
  simp [step, State.fetch, h]

theorem step_of_command {s : State} {w : CommandWord} {rest : List Event} {i : Instr}
    (h : s.inbox = .command w :: rest) (hd : decodeCommand w = .ok i) :
    step s = tickOutcome (exec i { s with inbox := rest }) := by
  simp [step, State.fetch, State.fetchCommand, h, hd]

theorem step_of_reserved {s : State} {w : CommandWord} {rest : List Event} {op : BitVec 8}
    (h : s.inbox = .command w :: rest) (hd : decodeCommand w = .error (.reservedOp op)) :
    step s = .next ({ s with inbox := rest }.refuseOp op).tick := by
  simp [step, State.fetch, State.fetchCommand, h, hd]

theorem step_of_fill {s : State} {space : Space} {base : BitVec 32} {bytes : List Byte} {rest : List Event}
    (h : s.inbox = .fill space base bytes :: rest) (hb : base.toNat + bytes.length ≤ 2 ^ 32) :
    step s = .next ({ s with inbox := rest }.fillSpace space base.toNat bytes).tick := by
  simp only [step, State.fetch, State.fetchFill, h, if_neg (Nat.not_lt.mpr hb)]

theorem step_of_fill_fault {s : State} {space : Space} {base : BitVec 32} {bytes : List Byte} {rest : List Event}
    (h : s.inbox = .fill space base bytes :: rest) (hb : 2 ^ 32 < base.toNat + bytes.length) :
    step s = .fault .noSuchAddress := by
  simp only [step, State.fetch, State.fetchFill, h, if_pos hb]

theorem step_of_hardwareReset {s : State} {rest : List Event} (h : s.inbox = .hardwareReset :: rest) :
    step s = .next ({ s with inbox := rest }.hardwareReset).tick := by
  simp [step, State.fetch, h]

theorem step_of_code_notReady {s : State} {rest : List Event} (h : s.inbox = .code :: rest)
    (hr : s.dec.ready = false) : step s = .next { s with inbox := rest }.tick := by
  simp [step, State.fetch, State.fetchCode, h, hr]

theorem step_of_code {s : State} {rest : List Event} {c : Code} {used : Nat} (h : s.inbox = .code :: rest)
    (hr : s.dec.ready = true) (hf : s.dec.fetch = .ok (c, used)) :
    step s = tickOutcome (exec c.toInstr { s with inbox := rest, dec := s.dec.advance used }) := by
  simp [step, State.fetch, State.fetchCode, h, hr, hf]

theorem step_of_code_error {s : State} {rest : List Event} {f : FaultCode} (h : s.inbox = .code :: rest)
    (hr : s.dec.ready = true) (hf : s.dec.fetch = .error f) :
    step s = .next (State.raise { s with inbox := rest } .dec f).tick := by
  simp [step, State.fetch, State.fetchCode, h, hr, hf]

/-- Every step that answers is one of these. -/
theorem step_cases {s t : State} (h : step s = .next t) :
    (s.inbox = [] ∧ t = s) ∨
    (∃ w rest i u, s.inbox = .command w :: rest ∧ decodeCommand w = .ok i ∧
      exec i { s with inbox := rest } = .next u ∧ t = u.tick) ∨
    (∃ w rest op, s.inbox = .command w :: rest ∧ decodeCommand w = .error (.reservedOp op) ∧
      t = ({ s with inbox := rest }.refuseOp op).tick) ∨
    (∃ space base bytes rest, s.inbox = .fill space base bytes :: rest ∧ base.toNat + bytes.length ≤ 2 ^ 32 ∧
      t = ({ s with inbox := rest }.fillSpace space base.toNat bytes).tick) ∨
    (∃ rest, s.inbox = .hardwareReset :: rest ∧ t = ({ s with inbox := rest }.hardwareReset).tick) ∨
    (∃ rest, s.inbox = .code :: rest ∧ s.dec.ready = false ∧ t = { s with inbox := rest }.tick) ∨
    (∃ rest f, s.inbox = .code :: rest ∧ s.dec.ready = true ∧ s.dec.fetch = .error f ∧
      t = (State.raise { s with inbox := rest } .dec f).tick) ∨
    (∃ rest c used u, s.inbox = .code :: rest ∧ s.dec.ready = true ∧ s.dec.fetch = .ok (c, used) ∧
      exec c.toInstr { s with inbox := rest, dec := s.dec.advance used } = .next u ∧ t = u.tick) := by
  have ran : ∀ {i : Instr} {s' : State}, tickOutcome (exec i s') = .next t → ∃ u, exec i s' = .next u ∧ t = u.tick := by
    intro i s' hx
    cases he : exec i s' with
    | next u => rw [he] at hx; exact ⟨u, rfl, by simpa using hx.symm⟩
    | fault f => rw [he] at hx; cases hx
    | refused r => rw [he] at hx; cases hx
  match hi : s.inbox with
  | [] => rw [step_of_idle hi] at h; exact .inl ⟨rfl, by simpa using h.symm⟩
  | .command w :: rest =>
    match hd : decodeCommand w with
    | .ok i =>
      rw [step_of_command hi hd] at h
      obtain ⟨u, hu, rfl⟩ := ran h
      exact .inr (.inl ⟨w, rest, i, u, rfl, hd, hu, rfl⟩)
    | .error (.reservedOp op) =>
      rw [step_of_reserved hi hd] at h
      exact .inr (.inr (.inl ⟨w, rest, op, rfl, hd, by simpa using h.symm⟩))
  | .fill space base bytes :: rest =>
    by_cases hb : base.toNat + bytes.length ≤ 2 ^ 32
    · rw [step_of_fill hi hb] at h
      exact .inr (.inr (.inr (.inl ⟨space, base, bytes, rest, rfl, hb, (Host.Outcome.next.inj h).symm⟩)))
    · rw [step_of_fill_fault hi (by omega)] at h; cases h
  | .hardwareReset :: rest =>
    rw [step_of_hardwareReset hi] at h
    exact .inr (.inr (.inr (.inr (.inl ⟨rest, rfl, (Host.Outcome.next.inj h).symm⟩))))
  | .code :: rest =>
    by_cases hr : s.dec.ready = true
    · match hf : s.dec.fetch with
      | .ok (c, used) =>
        rw [step_of_code hi hr hf] at h
        obtain ⟨u, hu, rfl⟩ := ran h
        exact .inr (.inr (.inr (.inr (.inr (.inr (.inr ⟨rest, c, used, u, rfl, hr, rfl, hu, rfl⟩))))))
      | .error f =>
        rw [step_of_code_error hi hr hf] at h
        exact .inr (.inr (.inr (.inr (.inr (.inr (.inl ⟨rest, f, rfl, hr, rfl, (Host.Outcome.next.inj h).symm⟩))))))
    · have hr : s.dec.ready = false := by simpa using hr
      rw [step_of_code_notReady hi hr] at h
      exact .inr (.inr (.inr (.inr (.inr (.inl ⟨rest, rfl, hr, (Host.Outcome.next.inj h).symm⟩)))))

end Sys2Proof.Machine
end

