-- ==== Sys2Proof/Laws/Commands.lean ====
section
/-! SUPPORT. All that a command of each unit can come to: refused, done, or faulted. One lemma per shared operation. -/

namespace Sys2Proof.Machine

/-- A writing command is refused, done, or overrun. -/
theorem State.writeBits_cases (s : State) (bits : Bits) :
    (s.bw.ready = false ∧ s.writeBits bits = s.refuse .bw) ∨
    (s.bw.ready = true ∧ ∃ w, s.bw.emit bits = .ok w ∧
      s.writeBits bits = { s with bw := w }.respond .bw .ok (BitVec.ofNat 64 bits.length)) ∨
    (s.bw.ready = true ∧ s.bw.emit bits = .error .outputOverrun ∧ s.writeBits bits = s.raise .bw .outputOverrun) := by
  by_cases h : s.bw.ready = true
  · cases he : s.bw.emit bits with
    | ok w => exact .inr (.inl ⟨h, w, rfl, State.writeBits_ok h he⟩)
    | error f =>
      obtain rfl := Bw.emit_error he
      exact .inr (.inr ⟨h, rfl, State.writeBits_error h he⟩)
  · have h : s.bw.ready = false := by simpa using h
    exact .inl ⟨h, State.writeBits_refused h⟩

/-- A reading command is refused, done, or exhausted. -/
theorem State.readBits_cases (s : State) (n : Nat) :
    (s.br.ready = false ∧ s.readBits n = s.refuse .br) ∨
    (s.br.ready = true ∧ s.br.pos + n ≤ 8 * s.br.len ∧
      s.readBits n = { s with br := { s.br with pos := s.br.pos + n } }.respond .br .ok
        (BitVec.ofNat 64 (bitsNat (s.br.bitsFrom s.br.pos n)))) ∨
    (s.br.ready = true ∧ 8 * s.br.len < s.br.pos + n ∧ s.readBits n = s.raise .br .inputExhausted) := by
  by_cases h : s.br.ready = true
  · by_cases hn : s.br.pos + n ≤ 8 * s.br.len
    · exact .inr (.inl ⟨h, hn, State.readBits_ok h hn⟩)
    · exact .inr (.inr ⟨h, by omega, State.readBits_error h (by omega)⟩)
  · have h : s.br.ready = false := by simpa using h
    exact .inl ⟨h, State.readBits_refused h⟩

/-- A command on the compressor's stream is refused, done, or faulted as its body says. -/
theorem State.compressorStep_cases (s : State) (body : Except FaultCode Cmp) :
    (s.cmp.accepts = false ∧ s.compressorStep body = s.refuse .cmp) ∨
    (s.cmp.accepts = true ∧ ∃ c, body = .ok c ∧ s.compressorStep body = { s with cmp := c }.respond .cmp .ok 0) ∨
    (s.cmp.accepts = true ∧ ∃ f, body = .error f ∧ s.compressorStep body = s.raise .cmp f) := by
  by_cases h : s.cmp.accepts = true
  · cases body with
    | ok c => exact .inr (.inl ⟨h, c, rfl, State.compressorStep_ok h⟩)
    | error f => exact .inr (.inr ⟨h, f, rfl, State.compressorStep_error h⟩)
  · have h : s.cmp.accepts = false := by simpa using h
    exact .inl ⟨h, State.compressorStep_refused h⟩

/-- A decoding command is refused, done, or faulted as its body says. -/
theorem State.decompressorStep_cases (s : State) (body : Except FaultCode Dec) (data : Dec → BitVec 64) :
    (s.dec.ready = false ∧ s.decompressorStep body data = s.refuse .dec) ∨
    (s.dec.ready = true ∧ ∃ d, body = .ok d ∧
      s.decompressorStep body data = { s with dec := d }.respond .dec .ok (data d)) ∨
    (s.dec.ready = true ∧ ∃ f, body = .error f ∧ s.decompressorStep body data = s.raise .dec f) := by
  by_cases h : s.dec.ready = true
  · cases body with
    | ok d => exact .inr (.inl ⟨h, d, rfl, State.decompressorStep_ok h⟩)
    | error f => exact .inr (.inr ⟨h, f, rfl, State.decompressorStep_error h⟩)
  · have h : s.dec.ready = false := by simpa using h
    exact .inl ⟨h, State.decompressorStep_refused h⟩

/-- A failing delivery loop is exhausted or malformed (R274). -/
theorem Dec.getValues_fault {d : Dec} {n : Nat} {f : FaultCode} (h : d.getValues n = .error f) :
    f = .inputExhausted ∨ f = .malformedStream := by
  unfold Dec.getValues at h
  generalize d.budget - d.emitted = k at h
  induction k generalizing d with
  | zero => cases h
  | succ k ih =>
    simp only [Dec.deliverValues] at h
    cases hn : d.nextValue n with
    | error e => rw [hn] at h; cases h; exact Dec.nextValue_fault hn
    | ok d' =>
      simp only [hn] at h
      split at h
      · cases h
      · exact ih h

end Sys2Proof.Machine
end

