-- ==== Sys2Proof/Laws/Encoding.lean ====
section
/-! SUPPORT. The fields of a packed command word. -/

namespace Sys2Proof

theorem packCommand_toNat (op arg : BitVec 8) (data : BitVec 64) :
    (packCommand op arg data).toNat = (op.toNat * 2 ^ 8 + arg.toNat) * 2 ^ 64 + data.toNat := by
  have h : ∀ {m n : Nat} (x : BitVec m) (y : BitVec n), (x ++ y).toNat = x.toNat * 2 ^ n + y.toNat := by
    intro m n x y
    rw [BitVec.toNat_append, ← Nat.shiftLeft_add_eq_or_of_lt y.isLt, Nat.shiftLeft_eq]
  rw [← h op arg]
  exact h (op ++ arg) data

@[simp] theorem opField_packCommand (op arg : BitVec 8) (data : BitVec 64) : opField (packCommand op arg data) = op := by
  apply BitVec.eq_of_toNat_eq
  have := op.isLt; have := arg.isLt; have := data.isLt
  simp only [opField, BitVec.extractLsb'_toNat, packCommand_toNat, Nat.shiftRight_eq_div_pow]
  omega

@[simp] theorem argField_packCommand (op arg : BitVec 8) (data : BitVec 64) :
    argField (packCommand op arg data) = arg := by
  apply BitVec.eq_of_toNat_eq
  have := op.isLt; have := arg.isLt; have := data.isLt
  simp only [argField, BitVec.extractLsb'_toNat, packCommand_toNat, Nat.shiftRight_eq_div_pow]
  omega

@[simp] theorem dataField_packCommand (op arg : BitVec 8) (data : BitVec 64) :
    dataField (packCommand op arg data) = data := by
  apply BitVec.eq_of_toNat_eq
  have := op.isLt; have := arg.isLt; have := data.isLt
  simp only [dataField, BitVec.extractLsb'_toNat, packCommand_toNat, Nat.shiftRight_eq_div_pow]
  omega

theorem halves_toNat (hi lo : BitVec 32) : (hi ++ lo : BitVec 64).toNat = hi.toNat * 2 ^ 32 + lo.toNat := by
  have : (hi ++ lo).toNat = hi.toNat * 2 ^ 32 + lo.toNat := by
    rw [BitVec.toNat_append, ← Nat.shiftLeft_add_eq_or_of_lt lo.isLt, Nat.shiftLeft_eq]
  exact this

/-- The two halves of a data word (R109). -/
@[simp] theorem lowHalf_append (hi lo : BitVec 32) : lowHalf (hi ++ lo) = lo := by
  apply BitVec.eq_of_toNat_eq
  have := hi.isLt; have := lo.isLt
  simp only [lowHalf, BitVec.extractLsb'_toNat, halves_toNat, Nat.shiftRight_eq_div_pow]
  omega

@[simp] theorem highHalf_append (hi lo : BitVec 32) : highHalf (hi ++ lo) = hi := by
  apply BitVec.eq_of_toNat_eq
  have := hi.isLt; have := lo.isLt
  simp only [highHalf, BitVec.extractLsb'_toNat, halves_toNat, Nat.shiftRight_eq_div_pow]
  omega

@[simp] theorem lowBit_append (b : BitVec 1) : lowBit (0#63 ++ b) = b := by revert b; decide

end Sys2Proof
end

