-- ==== Sys2Proof/Laws/Invariants.lean ====
section
/-! SUPPORT. The value steps keep a compressor's and a decompressor's registers in agreement. -/

namespace Sys2Proof.Machine

theorem slzAfter_legal {slz : Nat} (h : SlzLegal slz) (c : Code) : SlzLegal (slzAfter slz c) := by
  cases c <;> simp only [slzAfter] <;> first | exact h | exact .inl rfl | exact .inr ⟨_, rfl⟩

theorem windowSize_pos (L : Nat) : 0 < windowSize L := by unfold windowSize; positivity

/-- Positions less than a window apart have different slots. -/
theorem slot_ne {g p W : Nat} (h1 : p ≤ g) (h2 : g + 1 - p < W) : p % W ≠ (g + 1) % W := by
  intro he
  have h := Nat.sub_mod_eq_zero_of_mod_eq he.symm
  rw [Nat.mod_eq_of_lt h2] at h
  omega

/-! ### The compressor -/

/-- Storing a value keeps the table and the window in agreement (R173, R179, R187). -/
theorem Cmp.store_inv {c : Cmp} (h : c.Inv) (v : Value) {w : Bw} (hw : w.Inv) (hr : w.ready = true) {slz n : Nat}
    (hz : SlzLegal slz) (hn : c.size + n = w.total) :
    ({ c with bw := w, size := c.size + n, slz := slz }.store v).Inv := by
  by_cases hf : c.first = true
  · obtain ⟨g0, c0, -, -, t0⟩ := h.fresh hf
    rw [Cmp.store_of_first (c := { c with bw := w, size := c.size + n, slz := slz }) hf]
    have htab : ∀ k, Table.read (c.tab.write (keyOf c.L v) 0) k = 0 := by
      intro k; rw [Table.read_write h.tab_wf]; split <;> simp [t0]
    refine { L_le := h.L_le, writer_ready := hr, writer := hw, win_wf := Window.wf_write h.win_wf _ _
             tab_wf := Table.wf_write h.tab_wf _ _, slz_legal := hz, size_open := fun _ => hn, size_le := hn.le
             fresh := fun hh => ?_, cur_eq := h.cur_eq, entries_le := fun k => ?_, live_entries := fun _ p hp => ?_
             entries_live := fun _ k _ hk => absurd (htab k) hk }
    · cases hh
    · rw [htab k]; exact Nat.zero_le _
    · have : p = 0 := by have := hp.1; simp [g0] at this; exact this
      rw [this]; exact Nat.zero_le _
  · have hf : c.first = false := by simpa using hf
    rw [Cmp.store_of_later (c := { c with bw := w, size := c.size + n, slz := slz }) hf]
    have hcur : (c.cur + 1) % windowSize c.L = (c.gidx + 1) % windowSize c.L := by rw [h.cur_eq]; simp
    refine { L_le := h.L_le, writer_ready := hr, writer := hw, win_wf := Window.wf_write h.win_wf _ _
             tab_wf := Table.wf_write h.tab_wf _ _, slz_legal := hz, size_open := fun _ => hn, size_le := hn.le
             fresh := fun hh => ?_, cur_eq := hcur, entries_le := fun k => ?_, live_entries := fun _ p hp => ?_
             entries_live := fun _ k hk1 hk2 => ?_ }
    · simp [hf] at hh
    · dsimp only
      rw [Table.read_write h.tab_wf]
      split
      exacts [le_rfl, (h.entries_le k).trans (by omega)]
    · obtain ⟨hp1, hp2⟩ := hp
      dsimp only at hp1 hp2
      simp only [Cmp.at]
      rw [Table.read_write h.tab_wf, Window.read_write h.win_wf, hcur]
      by_cases hpe : p = c.gidx + 1
      · subst hpe; simp
      · rw [if_neg (slot_ne (by omega) hp2)]
        split
        exacts [hp1, h.live_entries hf p ⟨by omega, by omega⟩]
    · dsimp only at hk1 hk2
      simp only [Cmp.at]
      rw [Window.read_write h.win_wf, hcur]
      rw [Table.read_write h.tab_wf] at hk1 hk2 ⊢
      by_cases hke : k = keyOf c.L v
      · simp [hke]
      · rw [if_neg hke] at hk1 hk2 ⊢
        rw [if_neg (slot_ne (h.entries_le k) hk1)]
        exact h.entries_live hf k (by omega) hk2

theorem Bw.Appends.ready_eq {w w' : Bw} {bs : Bits} (h : w.Appends w' bs) : w'.ready = w.ready := by
  simp [Bw.ready, h.cfg_eq, h.fault_eq]

/-- A value step that answers keeps the compressor in agreement (R197). -/
theorem Cmp.compressValue_inv {c c' : Cmp} {v : Value} (h : c.Inv) (ho : c.closed = false)
    (he : c.compressValue v = .ok c') : c'.Inv := by
  obtain ⟨w, e, rfl⟩ := Cmp.compressValue_ok he
  obtain ⟨_, a, i⟩ := Bw.emit_ok h.writer e
  exact Cmp.store_inv h v i (a.ready_eq.trans h.writer_ready) (slzAfter_legal h.slz_legal _)
    (by rw [a.total_eq, h.size_open ho])

/-- Closing keeps the compressor in agreement (R191). -/
theorem Cmp.close_inv {c c' : Cmp} (h : c.Inv) (ho : c.closed = false) (he : c.close = .ok c') : c'.Inv := by
  obtain ⟨c₁, w, e₁, e₂, rfl⟩ := Cmp.close_ok he
  have i₁ := Cmp.compressValue_inv h ho e₁
  obtain ⟨_, a, i⟩ := Bw.emit_ok i₁.writer e₂
  have hs : c₁.size ≤ w.total := by rw [a.total_eq]; exact i₁.size_le.trans (by omega)
  have hf : c₁.first = false := by
    obtain ⟨_, _, rfl⟩ := Cmp.compressValue_ok e₁
    simp
  exact { L_le := i₁.L_le, writer_ready := a.ready_eq.trans i₁.writer_ready, writer := i, win_wf := i₁.win_wf
          tab_wf := i₁.tab_wf, slz_legal := i₁.slz_legal, size_open := fun hh => (nomatch hh), size_le := hs
          fresh := fun hh => absurd (hf.symm.trans hh) (by decide), cur_eq := i₁.cur_eq, entries_le := i₁.entries_le, live_entries := i₁.live_entries
          entries_live := i₁.entries_live }

/-! ### The decompressor -/

theorem Dec.push_inv {d : Dec} (h : d.Inv) (hp : d.first = false) (v : Value) {slz stz : Nat} {br : Br}
    (hz : SlzLegal slz) (ht : stz ≤ 64) (hb : br.Inv) (hr : br.ready = true) :
    ({ d with slz := slz, stz := stz, br := br }.push v).Inv where
  L_le := h.L_le
  reader_ready := hr
  reader := hb
  win_wf := Window.wf_write h.win_wf _ _
  slz_legal := hz
  stz_le := ht
  cur_lt := Nat.mod_lt _ (windowSize_pos d.L)
  cnt_le := Nat.min_le_right _ _
  cnt_first := fun hh => by simp [hp] at hh
  cnt_later := fun _ => by
    have := windowSize_pos d.L
    simp only [Dec.push_cnt]; omega
  emitted_le := h.emitted_le
  outq_length := h.outq_length

theorem Dec.finish_inv {d : Dec} (h : d.Inv) (n : Nat) {slz stz : Nat} {br : Br} (hz : SlzLegal slz) (ht : stz ≤ 64)
    (hb : br.Inv) (hr : br.ready = true) : ({ d with slz := slz, stz := stz, br := br }.finish n).Inv where
  L_le := h.L_le
  reader_ready := hr
  reader := hb
  win_wf := h.win_wf
  slz_legal := hz
  stz_le := ht
  cur_lt := h.cur_lt
  cnt_le := h.cnt_le
  cnt_first := h.cnt_first
  cnt_later := h.cnt_later
  emitted_le := h.emitted_le
  outq_length := h.outq_length

/-- The raw code is the first of its stream and no other is (R91, R99, R213). -/
theorem Dec.fetch_place {d : Dec} {c : Code} {used : Nat} (hf : d.fetch = .ok (c, used)) :
    (∃ pad, c = .term pad) ∨ (d.first = true ∧ ∃ v, c = .raw64 v) ∨ (d.first = false ∧ ∀ v, c ≠ .raw64 v) := by
  unfold Dec.fetch at hf
  split_ifs at hf with he
  · obtain ⟨rfl, -⟩ := Prod.mk.inj (Except.ok.inj hf)
    exact .inl ⟨_, rfl⟩
  · cases hd : decodeCode d.codeCtx d.upcoming with
    | error e => simp [hd] at hf
    | ok p =>
      obtain ⟨c', more⟩ := p
      simp only [hd] at hf
      obtain ⟨rfl, -⟩ := Prod.mk.inj (Except.ok.inj hf)
      cases hfi : d.first with
      | true =>
        refine .inr (.inl ⟨rfl, ?_⟩)
        simp only [decodeCode, Dec.codeCtx, he, hfi] at hd
        simp at hd
        split at hd <;> cases hd
        exact ⟨_, rfl⟩
      | false =>
        refine .inr (.inr ⟨rfl, ?_⟩)
        rintro v rfl
        simp only [decodeCode, Dec.codeCtx, he, hfi] at hd
        simp at hd
        unfold decodeNew decodeSame decodeIdx decodeRep at hd
        dsimp only at hd
        repeat' (first | cases hd | split at hd)

/-- A value step that answers keeps the decompressor in agreement (R211). -/
theorem Dec.nextValue_inv {d d' : Dec} {n : Nat} (h : d.Inv) (he : d.nextValue n = .ok d') : d'.Inv := by
  cases hf : d.fetch with
  | error e => rw [Dec.nextValue_error hf] at he; cases he
  | ok p =>
    obtain ⟨c, used⟩ := p
    rw [Dec.nextValue_ok hf] at he
    have hu := Dec.fetch_used_le hf
    have hb : ({ d.br with pos := d.br.pos + used } : Br).Inv := by
      have : d.br.pos ≤ 8 * d.br.len := h.reader
      show d.br.pos + used ≤ 8 * d.br.len
      omega
    have hr : ({ d.br with pos := d.br.pos + used } : Br).ready = true := h.reader_ready
    have W := windowSize_pos d.L
    rcases Dec.fetch_place hf with ⟨pad, rfl⟩ | ⟨h1, v, rfl⟩ | ⟨h1, hnr⟩
    · cases he
      exact { h with reader_ready := hr, reader := hb }
    · cases he
      simp only [Dec.takeRaw]
      split <;>
        exact { L_le := h.L_le, reader_ready := hr, reader := hb, win_wf := Window.wf_write h.win_wf _ _
                slz_legal := h.slz_legal, stz_le := h.stz_le, cur_lt := h.cur_lt, cnt_le := W
                cnt_first := fun hh => (nomatch hh), cnt_later := fun _ => le_rfl, emitted_le := h.emitted_le
                outq_length := h.outq_length }
    · have deliver : ∀ slz stz v, SlzLegal slz → stz ≤ 64 →
          (Dec.deliver { d with slz := slz, stz := stz, br := { d.br with pos := d.br.pos + used } } n v).Inv := by
        intro slz stz v hz ht
        unfold Dec.deliver
        split
        exacts [Dec.finish_inv h n hz ht hb hr, Dec.push_inv h h1 v hz ht hb hr]
      cases c with
      | raw64 v => exact absurd rfl (hnr v)
      | rep slot =>
        simp only [Dec.takeCode, Dec.takeRep] at he
        split_ifs at he
        cases he
        exact Dec.push_inv h h1 _ (.inl rfl) h.stz_le hb hr
      | idx slot lzc sig payload =>
        simp only [Dec.takeCode, Dec.takeIdx] at he
        split_ifs at he
        cases he
        exact deliver _ _ _ (.inl rfl) (by omega)
      | same payload =>
        simp only [Dec.takeCode, Dec.takeSame] at he
        split_ifs at he
        cases he
        exact deliver _ _ _ h.slz_legal h.stz_le
      | new lzc payload =>
        cases he
        exact deliver _ _ _ (.inr ⟨lzc, rfl⟩) h.stz_le
      | term pad => cases he; exact { h with reader_ready := hr, reader := hb }

/-- The delivery loop keeps the decompressor in agreement (R221). -/
theorem Dec.getValues_inv {d d' : Dec} {n : Nat} (h : d.Inv) (he : d.getValues n = .ok d') : d'.Inv := by
  unfold Dec.getValues at he
  generalize hk : d.budget - d.emitted = k at he
  induction k generalizing d with
  | zero => cases he; exact h
  | succ k ih =>
    simp only [Dec.deliverValues] at he
    cases hn : d.nextValue n with
    | error e => simp [hn] at he
    | ok d₁ =>
      simp only [hn] at he
      have i₁ := Dec.nextValue_inv h hn
      obtain ⟨-, hb, hem, -⟩ := Dec.nextValue_keeps hn
      split at he
      · cases he; exact i₁
      · refine ih (d := { d₁ with outq := d₁.outq ++ [d₁.sv], emitted := d₁.emitted + 1 }) ?_ ?_ he
        · exact { i₁ with emitted_le := by simp only; omega, outq_length := by simp [i₁.outq_length] }
        · simp only; omega

end Sys2Proof.Machine
end

