-- ==== Sys2Proof/Laws/PerInstr.lean ====
section
/-! SUPPORT. Lemmas per instruction: the length of every encoding (spec/30_encoding.md R90, R101, R108). -/

namespace Sys2Proof.Laws

/-- The bits an instruction takes where it stands: 80 for a command word, the format's length for a code. -/
def width (ctx : CodeCtx) : Instr → Nat
  | .bwInit _ => 80
  | .bwWriteBit _ => 80
  | .bwWriteBits _ _ => 80
  | .bwWriteBits64 _ _ => 80
  | .bwAlign => 80
  | .bwFlush => 80
  | .brInit _ => 80
  | .brReadBit => 80
  | .brReadBits _ => 80
  | .brReadBits64 _ => 80
  | .brAlign => 80
  | .cmpInit _ _ => 80
  | .cmpAddU64 _ => 80
  | .cmpAddF64 _ => 80
  | .cmpClose => 80
  | .cmpGetOutput => 80
  | .cmpGetSize => 80
  | .decInit _ _ _ => 80
  | .decNext => 80
  | .decReadValue => 80
  | .decGetValues => 80
  | .frmCompress _ _ => 80
  | .frmDecompress _ _ => 80
  | .raw64 _ => 64
  | .rep _ => ctx.L + 2
  | .idx _ _ sig _ => ctx.L + 11 + sigWidth sig
  | .same _ => 2 + (64 - ctx.slz)
  | .new lzc _ => 5 + (64 - bucket lzc)
  | .term _ => 1 + padBits (ctx.pos + 1)

/-- A well-formed instruction is encoded in as many bits as its format has. -/
def EncodedLength.Statement (i : Instr) : Prop :=
  ∀ ctx : CodeCtx, i.wf ctx = true → (encode ctx i).length = width ctx i

theorem EncodedLength.bwInit (cap : BitVec 32) : EncodedLength.Statement (.bwInit cap) := fun _ _ => natBits_length _ _

theorem EncodedLength.bwWriteBit (bit : BitVec 1) : EncodedLength.Statement (.bwWriteBit bit) := fun _ _ => natBits_length _ _

theorem EncodedLength.bwWriteBits (len : BitVec 8) (value : Value) : EncodedLength.Statement (.bwWriteBits len value) := fun _ _ => natBits_length _ _

theorem EncodedLength.bwWriteBits64 (len : BitVec 8) (value : Value) : EncodedLength.Statement (.bwWriteBits64 len value) := fun _ _ => natBits_length _ _

theorem EncodedLength.bwAlign : EncodedLength.Statement .bwAlign := fun _ _ => natBits_length _ _

theorem EncodedLength.bwFlush : EncodedLength.Statement .bwFlush := fun _ _ => natBits_length _ _

theorem EncodedLength.brInit (len : BitVec 32) : EncodedLength.Statement (.brInit len) := fun _ _ => natBits_length _ _

theorem EncodedLength.brReadBit : EncodedLength.Statement .brReadBit := fun _ _ => natBits_length _ _

theorem EncodedLength.brReadBits (len : BitVec 8) : EncodedLength.Statement (.brReadBits len) := fun _ _ => natBits_length _ _

theorem EncodedLength.brReadBits64 (len : BitVec 8) : EncodedLength.Statement (.brReadBits64 len) := fun _ _ => natBits_length _ _

theorem EncodedLength.brAlign : EncodedLength.Statement .brAlign := fun _ _ => natBits_length _ _

theorem EncodedLength.cmpInit (l : BitVec 8) (cap : BitVec 32) : EncodedLength.Statement (.cmpInit l cap) := fun _ _ => natBits_length _ _

theorem EncodedLength.cmpAddU64 (value : Value) : EncodedLength.Statement (.cmpAddU64 value) := fun _ _ => natBits_length _ _

theorem EncodedLength.cmpAddF64 (value : Value) : EncodedLength.Statement (.cmpAddF64 value) := fun _ _ => natBits_length _ _

theorem EncodedLength.cmpClose : EncodedLength.Statement .cmpClose := fun _ _ => natBits_length _ _

theorem EncodedLength.cmpGetOutput : EncodedLength.Statement .cmpGetOutput := fun _ _ => natBits_length _ _

theorem EncodedLength.cmpGetSize : EncodedLength.Statement .cmpGetSize := fun _ _ => natBits_length _ _

theorem EncodedLength.decInit (l : BitVec 8) (len : BitVec 32) (budget : BitVec 32) : EncodedLength.Statement (.decInit l len budget) := fun _ _ => natBits_length _ _

theorem EncodedLength.decNext : EncodedLength.Statement .decNext := fun _ _ => natBits_length _ _

theorem EncodedLength.decReadValue : EncodedLength.Statement .decReadValue := fun _ _ => natBits_length _ _

theorem EncodedLength.decGetValues : EncodedLength.Statement .decGetValues := fun _ _ => natBits_length _ _

theorem EncodedLength.frmCompress (sourceLen : BitVec 32) (destCapacity : BitVec 32) : EncodedLength.Statement (.frmCompress sourceLen destCapacity) := fun _ _ => natBits_length _ _

theorem EncodedLength.frmDecompress (sourceLen : BitVec 32) (destCapacity : BitVec 32) : EncodedLength.Statement (.frmDecompress sourceLen destCapacity) := fun _ _ => natBits_length _ _

theorem EncodedLength.raw64 (value : Value) : EncodedLength.Statement (.raw64 value) := fun _ _ => by
  simp [encode, Instr.code?, encodeCode, width]

theorem EncodedLength.rep (slot : Slot) : EncodedLength.Statement (.rep slot) := fun _ _ => by
  simp [encode, Instr.code?, encodeCode, width]

theorem EncodedLength.idx (slot : Slot) (lzc : BitVec 3) (sig : BitVec 6) (payload : Value) : EncodedLength.Statement (.idx slot lzc sig payload) := fun _ _ => by
  simp [encode, Instr.code?, encodeCode, width]

theorem EncodedLength.same (payload : Value) : EncodedLength.Statement (.same payload) := fun _ _ => by
  simp [encode, Instr.code?, encodeCode, width]

theorem EncodedLength.new (lzc : BitVec 3) (payload : Value) : EncodedLength.Statement (.new lzc payload) := fun _ _ => by
  simp [encode, Instr.code?, encodeCode, width]

theorem EncodedLength.term (pad : BitVec 3) : EncodedLength.Statement (.term pad) := by
  intro ctx h
  have h : pad.toNat = padBits (ctx.pos + 1) := by simp [Instr.wf, Instr.code?, Code.wf] at h; exact h.2
  simp [encode, Instr.code?, encodeCode, width, h]

end Sys2Proof.Laws
end

