-- ==== Sys2Proof/Tests/Slice0.lean ====
section
/-! SUPPORT. Tests: decoding of words written out from the encoding tables, the checks of WellFormed, vectors of
spec/95_test_vectors.md of one step each, and for every statement with hypotheses a witness that meets them. -/

namespace Sys2Proof.Tests

set_option Elab.async false

open Sys2Proof Sys2Proof.Machine

/-! ### Decoding of command words (spec/30_encoding.md R109) -/

theorem test_decode_bw_init : decodeCommand 0x1000DEADBEEF00000010#80 = .ok (.bwInit 0x10) := by decide
theorem test_decode_bw_write_bit : decodeCommand 0x11000000000000000003#80 = .ok (.bwWriteBit 1) := by decide
theorem test_decode_bw_write_bits : decodeCommand 0x12030000000000000005#80 = .ok (.bwWriteBits 3 5) := by decide
theorem test_decode_bw_write_bits64 :
    decodeCommand 0x13408000000000000001#80 = .ok (.bwWriteBits64 64 0x8000000000000001) := by decide
theorem test_decode_bw_align : decodeCommand 0x14FFFFFFFFFFFFFFFFFF#80 = .ok .bwAlign := by decide
theorem test_decode_bw_flush : decodeCommand 0x15000000000000000000#80 = .ok .bwFlush := by decide
theorem test_decode_br_init : decodeCommand 0x20000000000100000018#80 = .ok (.brInit 0x18) := by decide
theorem test_decode_br_read_bit : decodeCommand 0x21000000000000000000#80 = .ok .brReadBit := by decide
theorem test_decode_br_read_bits : decodeCommand 0x221F0000000000000000#80 = .ok (.brReadBits 31) := by decide
theorem test_decode_br_read_bits64 : decodeCommand 0x23210000000000000000#80 = .ok (.brReadBits64 33) := by decide
theorem test_decode_br_align : decodeCommand 0x24000000000000000000#80 = .ok .brAlign := by decide
theorem test_decode_cmp_init : decodeCommand 0x30070000000000000040#80 = .ok (.cmpInit 7 64) := by decide
theorem test_decode_cmp_add_u64 :
    decodeCommand 0x31000123456789ABCDEF#80 = .ok (.cmpAddU64 0x0123456789ABCDEF) := by decide
theorem test_decode_cmp_add_f64 :
    decodeCommand 0x32003FF0000000000000#80 = .ok (.cmpAddF64 0x3FF0000000000000) := by decide
theorem test_decode_cmp_close : decodeCommand 0x33000000000000000000#80 = .ok .cmpClose := by decide
theorem test_decode_cmp_get_output : decodeCommand 0x34000000000000000000#80 = .ok .cmpGetOutput := by decide
theorem test_decode_cmp_get_size : decodeCommand 0x35000000000000000000#80 = .ok .cmpGetSize := by decide
theorem test_decode_dec_init : decodeCommand 0x40070000000400000012#80 = .ok (.decInit 7 18 4) := by decide
theorem test_decode_dec_next : decodeCommand 0x41000000000000000000#80 = .ok .decNext := by decide
theorem test_decode_dec_read_value : decodeCommand 0x42000000000000000000#80 = .ok .decReadValue := by decide
theorem test_decode_dec_get_values : decodeCommand 0x43000000000000000000#80 = .ok .decGetValues := by decide
theorem test_decode_frm_compress : decodeCommand 0x50000000004000000020#80 = .ok (.frmCompress 32 64) := by decide
theorem test_decode_frm_decompress : decodeCommand 0x51000000002000000016#80 = .ok (.frmDecompress 22 32) := by decide

/-- V-X2: ops outside the table are reserved. -/
theorem test_decode_reserved :
    ([0x00, 0x16, 0x25, 0x36, 0x44, 0x52, 0xFF] : List (BitVec 8)).all
      (fun op => decide (decodeCommand (packCommand op 0 0) = .error (.reservedOp op))) = true := by decide

/-! ### Decoding of stream codes (R92 to R97), bits as 0 and 1 -/

/-- A bit string from its digits. -/
def digits (ds : List Nat) : Bits := ds.map (fun x => decide (x = 1))

/-- The place of a later code in a full window of 128 slots. -/
def later (slz : Nat) : CodeCtx := { L := 7, slz := slz, cnt := 128, pos := 64, place := .later }

/-- `1.0` is sign 0, exponent 01111111111, fraction 0. -/
theorem test_decode_raw64 :
    decodeCode { later 65 with place := .first, cnt := 0, pos := 0 }
        (digits [0, 0, 1, 1, 1, 1, 1, 1, 1, 1, 1, 1] ++ List.replicate 52 false ++ [true]) =
      .ok (.raw64 0x3FF0000000000000, [true]) := by decide

/-- `00` and a slot of 7 bits. -/
theorem test_decode_rep : decodeCode (later 65) (digits [0, 0, 1, 0, 0, 0, 0, 0, 1, 1]) = .ok (.rep 65, [true]) := by
  decide

/-- V-C1's fourth code: `01 0000010 000 001100 011111111111`. -/
theorem test_decode_idx :
    decodeCode (later 65)
        (digits [0, 1, 0, 0, 0, 0, 0, 1, 0, 0, 0, 0, 0, 0, 1, 1, 0, 0, 0, 1, 1, 1, 1, 1, 1, 1, 1, 1, 1, 1]) =
      .ok (.idx 2 0 12 0x7FF, []) := by decide +kernel

/-- `10` and a payload of `64 - 24` bits. -/
theorem test_decode_same :
    decodeCode (later 24) (digits [1, 0, 1] ++ List.replicate 38 false ++ digits [1, 0]) =
      .ok (.same 0x8000000001, [false]) := by decide

/-- `11`, bucket index `111` and a payload of `64 - 24` bits. -/
theorem test_decode_new :
    decodeCode (later 65) (digits [1, 1, 1, 1, 1, 1] ++ List.replicate 38 false ++ digits [1, 0]) =
      .ok (.new 7 0x8000000001, [false]) := by decide

/-- The zero bit at cursor 131 and 4 zero bits to the boundary at 136. -/
theorem test_decode_term :
    decodeCode { later 65 with place := .afterSentinel, pos := 131 } (digits [0, 0, 0, 0, 0, 1]) =
      .ok (.term 4, [true]) := by decide

/-- The rows of the table that are stream codes, as their patterns with all variable bits 0. -/
theorem test_decode_table_codes :
    decodeTableWord 64 0 = some (.raw64 0) ∧ decodeTableWord 16 0 = some (.rep 0) ∧
    decodeTableWord 24 0x10000 = some (.idx 0 0 0 0) ∧ decodeTableWord 8 2 = some (.same 0) ∧
    decodeTableWord 8 0x18 = some (.new 0 0) ∧ decodeTableWord 8 0 = some (.term 7) := by decide +kernel

theorem test_decode_table_command : decodeTableWord 80 0x30070000000000000040 = some (.cmpInit 7 64) := by decide

/-! ### Codes that are none (R103) -/

theorem test_decode_same_unset : decodeCode (later 65) (digits [1, 0]) = .error .sameUnset := by decide
theorem test_decode_rep_empty_slot :
    decodeCode { later 65 with cnt := 1 } (digits [0, 0, 0, 0, 0, 0, 0, 0, 1]) = .error .slotEmpty := by decide
theorem test_decode_idx_too_wide :
    decodeCode (later 65) (digits [0, 1, 0, 0, 0, 0, 0, 0, 0, 0, 0, 1, 1, 1, 1, 1, 0, 1]) = .error .sigTooWide := by
  decide +kernel
theorem test_decode_exhausted : decodeCode (later 65) (digits [1]) = .error .exhausted := by decide
theorem test_decode_not_term :
    decodeCode { later 65 with place := .afterSentinel, pos := 131 } (digits [0, 0, 0, 0, 1]) = .error .notTerm := by
  decide

/-! ### WellFormed refuses what is ill formed, one term for each check -/

theorem test_wf_raw64_place : Code.wf (later 65) (.raw64 0) = false := by decide
theorem test_wf_rep_place : Code.wf { later 65 with place := .first } (.rep 0) = false := by decide
theorem test_wf_rep_window : Code.wf { later 65 with cnt := 200 } (.rep 128) = false := by decide
theorem test_wf_rep_filled : Code.wf { later 65 with cnt := 5 } (.rep 5) = false := by decide
theorem test_wf_idx_place : Code.wf { later 65 with place := .first } (.idx 0 0 1 1) = false := by decide
theorem test_wf_idx_window : Code.wf { later 65 with cnt := 200 } (.idx 128 0 1 1) = false := by decide
theorem test_wf_idx_filled : Code.wf { later 65 with cnt := 5 } (.idx 5 0 1 1) = false := by decide
theorem test_wf_idx_width : Code.wf (later 65) (.idx 0 1 57 0) = false := by decide
theorem test_wf_idx_payload : Code.wf (later 65) (.idx 0 0 1 2) = false := by decide
theorem test_wf_same_place : Code.wf { later 24 with place := .first } (.same 0) = false := by decide
theorem test_wf_same_unset : Code.wf (later 65) (.same 0) = false := by decide
theorem test_wf_same_payload : Code.wf (later 24) (.same 0x10000000000) = false := by decide
theorem test_wf_new_place : Code.wf { later 65 with place := .first } (.new 0 0) = false := by decide
theorem test_wf_new_payload : Code.wf (later 65) (.new 7 0x10000000000) = false := by decide
theorem test_wf_term_place : Code.wf (later 65) (.term 7) = false := by decide
theorem test_wf_term_pad : Code.wf { later 65 with place := .afterSentinel } (.term 6) = false := by decide
theorem test_wf_instr : Instr.wf (later 65) (.term 7) = false := by decide
theorem test_operands_bw_write_bits : Instr.operandsLegal (.bwWriteBits 33 0) = false := by decide
theorem test_operands_bw_write_bits64 : Instr.operandsLegal (.bwWriteBits64 65 0) = false := by decide
theorem test_operands_br_read_bits : Instr.operandsLegal (.brReadBits 33) = false := by decide
theorem test_operands_br_read_bits64 : Instr.operandsLegal (.brReadBits64 65) = false := by decide
theorem test_operands_cmp_init : Instr.operandsLegal (.cmpInit 22 0) = false := by decide
theorem test_operands_dec_init : Instr.operandsLegal (.decInit 22 0 0) = false := by decide
theorem test_operands_frm_compress : Instr.operandsLegal (.frmCompress 12 64) = false := by decide

/-! ### One step on a small state -/

/-- The state after one event. -/
def run (s : State) (e : Event) : State :=
  match step { s with inbox := [e] } with
  | .next t => t
  | .fault _ => s
  | .refused _ => s

/-- A command word from its fields. -/
def cmd (op arg : BitVec 8) (data : BitVec 64) : Event := .command (packCommand op arg data)

/-- The result of a fallible operation, where it must not fail. -/
def okOr {α : Type} (d : α) (e : Except FaultCode α) : α := e.toOption.getD d

/-- A writer of capacity `cap` that has written these bits. -/
def writing (cap : Nat) (bits : Bits) : State :=
  { State.reset with bw := okOr .reset ((Bw.reset.init cap).emit bits) }

/-- A reader over these bytes at a cursor. -/
def reading (bytes : List Byte) (pos : Nat) : State :=
  { State.reset with br := { (Br.reset.init bytes.length) with inp := Memory.writeBytes [] 0 bytes, pos := pos } }

/-- A compressor that has taken these values. -/
def compressing (L cap : Nat) (vs : List Value) : State :=
  { State.reset with cmp := okOr .reset ((Cmp.reset.init L cap).addAll vs) }

/-- A decompressor over these bytes. -/
def decoding (L budget : Nat) (bytes : List Byte) : State :=
  { State.reset with
    dec := ({ Dec.reset with br := { Br.reset with inp := Memory.writeBytes [] 0 bytes } } : Dec).init L
      bytes.length budget }

/-- A framing layer with these source bytes. -/
def framing (bytes : List Byte) : State :=
  { State.reset with frm := { Framer.reset with src := Memory.writeBytes [] 0 bytes } }

/-- V-W10's last command: construction is the way out of a fault. -/
theorem test_bw_init : (run { State.reset with bw := { Bw.reset with cfg := true, fault := .outputOverrun } }
    (cmd 0x10 0 1)).bw = Bw.reset.init 1 := by decide

/-- V-W1. -/
theorem test_bw_write_bit :
    (run (writing 16 []) (cmd 0x11 0 1)).bw.acc = 0x80 ∧ (run (writing 16 []) (cmd 0x11 0 1)).resp.bw = ⟨.ok, 1⟩ := by
  decide

/-- V-W11: the eighth bit completes a byte beyond capacity 0. -/
theorem test_bw_write_bit_overrun :
    (run (writing 0 (natBits 0x7F 7)) (cmd 0x11 0 1)).resp.bw = ⟨.outputOverrun, 0⟩ ∧
    (run (writing 0 (natBits 0x7F 7)) (cmd 0x11 0 1)).bw.fault = .outputOverrun := by decide +kernel

/-- V-W5: the high bits of the value are ignored. -/
theorem test_bw_write_bits :
    (run (writing 16 []) (cmd 0x12 4 0xFFFFFFF5)).bw.acc = 0x50 ∧
    (run (writing 16 []) (cmd 0x12 4 0xFFFFFFF5)).bw.free = 4 := by decide +kernel

/-- V-W12: refused, nothing written. -/
theorem test_bw_write_bits_refused :
    (run (writing 16 []) (cmd 0x12 33 1)).resp.bw = ⟨.illegalCommand, 0⟩ ∧
    (run (writing 16 []) (cmd 0x12 33 1)).bw = (writing 16 []).bw := by decide +kernel

/-- V-W4's second command. -/
theorem test_bw_write_bits64 :
    (run (writing 16 [false]) (cmd 0x13 64 0xFFFFFFFFFFFFFFFF)).bw.out.readBytes 0 8 =
      [0x7F, 0xFF, 0xFF, 0xFF, 0xFF, 0xFF, 0xFF, 0xFF] ∧
    (run (writing 16 [false]) (cmd 0x13 64 0xFFFFFFFFFFFFFFFF)).bw.acc = 0x80 := by decide +kernel

/-- V-W4's third command, after 65 bits. -/
theorem test_bw_align :
    (run (writing 16 (natBits 0 65)) (cmd 0x14 0 0)).resp.bw = ⟨.ok, 7⟩ ∧
    (run (writing 16 (natBits 0 65)) (cmd 0x14 0 0)).bw.total = 72 := by decide +kernel

/-- V-W7. -/
theorem test_bw_flush :
    (run (writing 16 (natBits 5 3)) (cmd 0x15 0 0)).resp.bw = ⟨.ok, 5⟩ ∧
    (run (writing 16 (natBits 5 3)) (cmd 0x15 0 0)).bw.out.readBytes 0 1 = [0xA0] := by decide +kernel

theorem test_br_init : (run (reading [0xA5] 3) (cmd 0x20 0 5)).br.pos = 0 ∧
    (run (reading [0xA5] 3) (cmd 0x20 0 5)).br.len = 5 := by decide

/-- V-R1. -/
theorem test_br_read_bit : (run (reading [0xA5, 0x3C] 0) (cmd 0x21 0 0)).resp.br = ⟨.ok, 1⟩ ∧
    (run (reading [0xA5, 0x3C] 0) (cmd 0x21 0 0)).br.pos = 1 := by decide

/-- V-R9's second command. -/
theorem test_br_read_bit_exhausted : (run (reading [0xA5] 8) (cmd 0x21 0 0)).resp.br = ⟨.inputExhausted, 0⟩ ∧
    (run (reading [0xA5] 8) (cmd 0x21 0 0)).br.fault = .inputExhausted := by decide

/-- V-R3. -/
theorem test_br_read_bits : (run (reading [0xA5, 0x3C] 4) (cmd 0x22 8 0)).resp.br = ⟨.ok, 0x53⟩ := by decide +kernel

/-- V-R14. -/
theorem test_br_read_bits64 :
    (run (reading [0x12, 0x34, 0x56, 0x78, 0x9A, 0xBC, 0xDE, 0xF0] 0) (cmd 0x23 64 0)).resp.br =
      ⟨.ok, 0x123456789ABCDEF0⟩ := by decide +kernel

/-- V-R4. -/
theorem test_br_align : (run (reading [0xA5, 0x3C] 12) (cmd 0x24 0 0)).resp.br = ⟨.ok, 4⟩ ∧
    (run (reading [0xA5, 0x3C] 12) (cmd 0x24 0 0)).br.pos = 16 := by decide

/-- V-C16: `L = 22` is refused and keeps the unit. -/
theorem test_cmp_init : (run (compressing 7 64 []) (cmd 0x30 22 64)).resp.cmp = ⟨.illegalCommand, 0⟩ ∧
    (run (compressing 7 64 []) (cmd 0x30 22 64)).cmp = (compressing 7 64 []).cmp := by decide

/-- V-C8's fifth value: the window edge is still in the window, `REP 0` of 4 bits. -/
theorem test_cmp_add_u64 :
    let s := run (compressing 2 64 [0x1000000000000001, 0x2000000000000002, 0x3000000000000003, 0x4000000000000004])
      (cmd 0x31 0 0x1000000000000001)
    s.cmp.size = 269 ∧ s.cmp.slz = 65 := by decide +kernel

/-- Program P2, row 5: `IDX 2, 0, 12, 0x7FF`. -/
theorem test_cmp_add_f64 :
    let s := run (compressing 7 64 [0x3FF0000000000000, 0x3FF0000000000000, 0x3FF0000000000000])
      (cmd 0x32 0 0x4000000000000000)
    s.cmp.bw.out.readBytes 8 6 = [0x00, 0x00, 0x50, 0x40, 0xC7, 0xFF] ∧ s.cmp.tab.read 0 = 3 := by decide +kernel

/-- V-C7's third value, `SAME`, and fourth, `NEW` with another bucket. -/
theorem test_cmp_add_same_new :
    (run (compressing 7 64 [0x3FB999999999999A, 0x3FD3333333333333]) (cmd 0x31 0 0x3FE6666666666666)).cmp.size = 183 ∧
    (run (compressing 7 64 [0x3FB999999999999A, 0x3FD3333333333333, 0x3FE6666666666666])
      (cmd 0x31 0 0x3FECCCCCCCCCCCCD)).cmp.slz = 12 := by decide +kernel

/-- V-C15: the ninth bit after a full capacity overruns. -/
theorem test_cmp_overrun :
    (run (compressing 7 8 [0x3FF0000000000000]) (cmd 0x32 0 0x3FF0000000000000)).resp.cmp = ⟨.outputOverrun, 0⟩ := by
  decide +kernel

/-- V-C2: two equal values closed. -/
theorem test_cmp_close :
    let s := run (compressing 7 64 [0x3FF0000000000000, 0x3FF0000000000000]) (cmd 0x33 0 0)
    s.cmp.bw.out.readBytes 8 6 = [0x00, 0x20, 0x41, 0xA8, 0x01, 0x00] ∧ s.cmp.size = 104 := by decide +kernel

/-- V-C3: the empty stream. -/
theorem test_cmp_close_empty :
    (run (compressing 7 64 []) (cmd 0x33 0 0)).cmp.bw.out.readBytes 0 9 = [0x7F, 0xF8, 0, 0, 0, 0, 0, 0, 0] := by
  decide +kernel

/-- V-C17. -/
theorem test_cmp_get_output :
    (run (compressing 7 64 [0x3FF0000000000000, 0x3FF0000000000000]) (cmd 0x34 0 0)).resp.cmp = ⟨.ok, 9⟩ := by
  decide +kernel

/-- V-C17. -/
theorem test_cmp_get_size :
    (run (compressing 7 64 [0x3FF0000000000000, 0x3FF0000000000000]) (cmd 0x35 0 0)).resp.cmp = ⟨.ok, 73⟩ := by
  decide +kernel

/-- The bytes of V-C1. -/
def bytesC1 : List Byte :=
  [0x3F, 0xF0, 0, 0, 0, 0, 0, 0, 0, 0, 0x50, 0x40, 0xC7, 0xFF, 0x41, 0x83, 0x4F, 0xFE]

/-- The bytes of `RAW64 1.0`, called `R` in V-D13 to V-D22. -/
def bytesR : List Byte := [0x3F, 0xF0, 0, 0, 0, 0, 0, 0]

/-- V-D24. -/
theorem test_dec_init : (run (decoding 7 4 bytesC1) (cmd 0x40 22 0x0000000400000012)).resp.dec = ⟨.illegalCommand, 0⟩ ∧
    (run .reset (cmd 0x40 7 0x0000000400000012)).dec.budget = 4 := by decide

/-- `DEC_NEXT` on the first value: cursor 64, one slot filled (R212). -/
theorem test_dec_next : (run (decoding 7 4 bytesC1) (cmd 0x41 0 0)).dec.br.pos = 64 ∧
    (run (decoding 7 4 bytesC1) (cmd 0x41 0 0)).dec.cnt = 1 := by decide +kernel

/-- V-D23's first command. -/
theorem test_dec_read_value :
    (run (decoding 7 0 bytesC1) (cmd 0x42 0 0)).resp.dec = ⟨.ok, 0x3FF0000000000000⟩ := by decide +kernel

/-- V-D8: the empty stream ends at once, and `DEC_READ_VALUE` answers `-1.0`. -/
theorem test_dec_read_value_end :
    (run (decoding 7 3 [0x7F, 0xF8, 0, 0, 0, 0, 0, 0, 0]) (cmd 0x42 0 0)).resp.dec = ⟨.ok, 0xBFF0000000000000⟩ := by
  decide +kernel

/-- V-D1. -/
theorem test_dec_get_values :
    let s := run (decoding 7 4 bytesC1) (cmd 0x43 0 0)
    s.dec.outq = [0x3FF0000000000000, 0x3FF0000000000000, 0x3FF0000000000000, 0x4000000000000000] ∧
      s.dec.br.pos = 112 := by decide +kernel

/-- V-D13 to V-D17: malformed and truncated input. -/
theorem test_dec_get_values_faults :
    ([(bytesR ++ [0x80, 0, 0, 0, 0, 0, 0, 0, 0], .malformedStream), (bytesR ++ [0x02, 0x80], .malformedStream),
      (bytesR ++ [0x41, 0x80, 0x60], .malformedStream),
      (bytesR ++ [0x40, 0x1F, 0, 0, 0, 0, 0, 0, 0, 0x04], .malformedStream),
      (bytesR ++ [0, 0], .inputExhausted)] : List (List Byte × Status)).all
        (fun p => decide ((run (decoding 7 5 p.1) (cmd 0x43 0 0)).resp.dec = ⟨p.2, 0⟩)) = true := by decide +kernel

/-- V-F3: 13 of the compressor's 14 bytes fit a destination of 17. -/
theorem test_frm_compress :
    let s := run (framing [0, 0, 0, 0, 0, 0, 0xF0, 0x3F, 0, 0, 0, 0, 0, 0, 0xF0, 0x3F]) (cmd 0x50 0 0x0000001100000010)
    s.resp.frm = ⟨.ok, 17⟩ ∧
      s.frm.dst.readBytes 0 18 = [2, 0, 0, 0, 0x3F, 0xF0, 0, 0, 0, 0, 0, 0, 0, 0x20, 0x41, 0xA8, 0x01, 0] := by
  decide +kernel

/-- V-F8 and V-F9's first command. -/
theorem test_frm_compress_refused :
    (run (framing []) (cmd 0x50 0 0x000000400000000C)).resp.frm = ⟨.illegalCommand, 0⟩ ∧
    (run (framing []) (cmd 0x50 0 0x0000000300000020)).resp.frm = ⟨.bufferTooSmall, 0⟩ := by decide

/-- V-F4. -/
theorem test_frm_decompress :
    let s := run (framing [2, 0, 0, 0, 0x3F, 0xF0, 0, 0, 0, 0, 0, 0, 0, 0x20, 0x41, 0xA8, 0x01])
      (cmd 0x51 0 0x0000001000000011)
    s.resp.frm = ⟨.ok, 16⟩ ∧
      s.frm.dst.readBytes 0 16 = [0, 0, 0, 0, 0, 0, 0xF0, 0x3F, 0, 0, 0, 0, 0, 0, 0xF0, 0x3F] := by decide +kernel

/-- V-F13, V-F14 and V-F15. -/
theorem test_frm_decompress_faults :
    (run (framing ([5, 0, 0, 0] ++ bytesR ++ [0, 0x20, 0x41])) (cmd 0x51 0 0x000000280000000F)).resp.frm =
      ⟨.inputExhausted, 0⟩ ∧
    (run (framing [4, 0, 0]) (cmd 0x51 0 0x0000004000000003)).resp.frm = ⟨.malformedStream, 0⟩ ∧
    (run (framing [0xFF, 0xFF, 0xFF, 0xFF]) (cmd 0x51 0 0xFFFFFFFF00000008)).resp.frm = ⟨.bufferOverflow, 0⟩ := by
  decide +kernel

/-- `RAW64` at the cursor of V-C1's stream. -/
theorem test_raw64 : (run (decoding 7 4 bytesC1) .code).dec.win = [(0, 0x3FF0000000000000)] := by decide +kernel

/-- A decompressor over these bytes after `n` values. -/
def decodedOf (bytes : List Byte) (n : Nat) : State :=
  { decoding 7 4 bytes with
    dec := { okOr .reset (({ (decoding 7 4 bytes).dec with budget := n } : Dec).getValues 0) with budget := 4 } }

/-- A decompressor in V-C1's stream after `n` values. -/
def decoded (n : Nat) : State := decodedOf bytesC1 n

/-- `REP 0` at cursor 64. -/
theorem test_rep : (run (decoded 1) .code).dec.br.pos = 73 ∧ (run (decoded 1) .code).dec.sv = 0x3FF0000000000000 := by
  decide +kernel

/-- `IDX 2, 0, 12, 0x7FF` at cursor 82. -/
theorem test_idx : (run (decoded 3) .code).dec.sv = 0x4000000000000000 ∧ (run (decoded 3) .code).dec.stz = 52 := by
  decide +kernel

/-- The state a meaning answers. -/
def result (o : Host.Outcome State Fault Refusal) : Option State :=
  match o with
  | .next t => some t
  | .fault _ => none
  | .refused _ => none

/-- `SAME` is the last value xor its payload (R215). -/
theorem test_same :
    result (exec (.same 3) { State.reset with dec := { Dec.reset with slz := 24, sv := 6, cnt := 1 } }) =
      some { State.reset with dec := { Dec.reset with slz := 24, sv := 5, cnt := 1, win := [(0, 5)] } } := by decide

/-- `NEW` stores its bucket (R214). -/
theorem test_new :
    result (exec (.new 7 3) { State.reset with dec := { Dec.reset with slz := 65, sv := 6, cnt := 1 } }) =
      some { State.reset with dec := { Dec.reset with slz := 24, sv := 5, cnt := 1, win := [(0, 5)] } } := by decide

/-- `TERM` is met only after the end of the stream and moves nothing (R222). -/
theorem test_term :
    (run { State.reset with dec := { Dec.reset with cfg := true, eos := true } } .code).dec =
      { Dec.reset with cfg := true, eos := true } := by decide

/-- A fill whose last byte would need a 33-bit address stops. -/
theorem test_fill_past_end :
    (match step { State.reset with inbox := [.fill .src 0xFFFFFFFF [1, 2]] } with
      | .fault .noSuchAddress => true
      | _ => false) = true ∧
    (run State.reset (.fill .src 0xFFFFFFFF [1])).frm.src = [(4294967295, 1)] := by decide +kernel

/-- The word placed where the machine fetches is the one it runs. -/
theorem test_with_fetch_word :
    (match step (State.reset.withFetchWord 80 0x30070000000000000040) with
      | .next t => t.cmp.L
      | _ => 0) = 7 ∧
    (match step (State.reset.withFetchWord 16 0) with
      | .next t => t.dec.br.pos
      | _ => 0) = 9 := by decide +kernel

/-! ### Witnesses: for each statement with hypotheses, states and operands that meet them -/

/-- `1.0`. -/
def one : Value := 0x3FF0000000000000

theorem writing_inv {cap : Nat} {bits : Bits} (h : bits.length / 8 ≤ cap) : (writing cap bits).bw.Inv := by
  obtain ⟨w, e, _, i⟩ := (Bw.emit_spec (Bw.init_inv .reset cap rfl) bits).1 (by simpa [Bw.HasRoom] using h)
  simpa [writing, okOr, e, Except.toOption] using i

/-- A compressor with window 128 and capacity `cap` that has taken the value `1.0`, with a stored bucket. -/
def holding (cap slz : Nat) : State :=
  { State.reset with
    cmp := { L := 7, first := false, win := [(0, one)], cur := 0, gidx := 0, tab := [], slz := slz, size := 64,
             closed := false, cfg := true, fault := .none, bw := (writing cap (natBits one.toNat 64)).bw } }

theorem holding_inv {cap slz : Nat} (hc : 8 ≤ cap) (hs : SlzLegal slz) : (holding cap slz).cmp.Inv where
  L_le := (by decide : 7 ≤ maxL)
  writer_ready := by
    obtain ⟨_, ha, _⟩ := Bw.emit_ok (w' := (writing cap (natBits one.toNat 64)).bw) (Bw.init_inv .reset cap rfl)
      (bs := natBits one.toNat 64) (by
        obtain ⟨w, e, _, _⟩ := (Bw.emit_spec (Bw.init_inv .reset cap rfl) (natBits one.toNat 64)).1
          (by simpa [Bw.HasRoom] using hc)
        simp [writing, okOr, e, Except.toOption])
    simp [holding, Bw.ready, ha.cfg_eq, ha.fault_eq]
  writer := writing_inv (by simpa using hc)
  win_wf := (by decide : Window.wf [(0, one)] = true)
  tab_wf := rfl
  slz_legal := hs
  size_open := fun _ => by
    obtain ⟨w, e, a, _⟩ := (Bw.emit_spec (Bw.init_inv .reset cap rfl) (natBits one.toNat 64)).1
      (by simpa [Bw.HasRoom] using hc)
    simp [holding, writing, okOr, e, Except.toOption, a.total_eq]
  size_le := by
    obtain ⟨w, e, a, _⟩ := (Bw.emit_spec (Bw.init_inv .reset cap rfl) (natBits one.toNat 64)).1
      (by simpa [Bw.HasRoom] using hc)
    simp [holding, writing, okOr, e, Except.toOption, a.total_eq]
  fresh := fun h => by cases h
  cur_eq := rfl
  entries_le := fun _ => Nat.le_refl 0
  live_entries := fun _ p hp => hp.1
  entries_live := fun _ k _ hk => absurd rfl hk

/-- A freshly constructed compressor. -/
theorem fresh_cmp_inv (L cap : Nat) (h : L ≤ maxL) : (Cmp.reset.init L cap).Inv where
  L_le := h
  writer_ready := rfl
  writer := Bw.init_inv .reset cap rfl
  win_wf := rfl
  tab_wf := rfl
  slz_legal := .inl rfl
  size_open := fun _ => rfl
  size_le := Nat.le_refl 0
  fresh := fun _ => ⟨rfl, rfl, rfl, rfl, fun _ => rfl⟩
  cur_eq := (Nat.zero_mod _).symm
  entries_le := fun _ => Nat.le_refl 0
  live_entries := fun h => by cases h
  entries_live := fun h => by cases h

/-- A freshly constructed decompressor. -/
theorem fresh_dec_inv (L len budget : Nat) (h : L ≤ maxL) (d : Dec) : (d.init L len budget).Inv where
  L_le := h
  reader_ready := rfl
  reader := Nat.zero_le _
  win_wf := rfl
  slz_legal := .inl rfl
  stz_le := Nat.zero_le _
  cur_lt := by simp [windowSize]
  cnt_le := Nat.zero_le _
  cnt_first := fun _ => rfl
  cnt_later := fun h => by cases h
  emitted_le := Nat.zero_le _
  outq_length := rfl

/-- A machine with all four units constructed and one event to take. -/
def allUnits (e : Event) : State :=
  { State.reset with
    bw := Bw.reset.init 16, br := Br.reset.init 4, cmp := Cmp.reset.init 7 64, dec := Dec.reset.init 7 4 2
    inbox := [e] }

theorem allUnits_canonical (e : Event) : (allUnits e).Canonical := by constructor <;> rfl

theorem allUnits_inv (e : Event) : (allUnits e).UnitsInv where
  bw := fun _ => Bw.init_inv .reset 16 rfl
  br := fun _ => Nat.zero_le _
  cmp := fun _ => fresh_cmp_inv 7 64 (by decide)
  dec := fun _ => fresh_dec_inv 7 4 2 (by decide) .reset
  frm_cmp := fun h => by cases h
  frm_dec := fun h => by cases h

theorem allUnits_code_fit : (allUnits .code).RegistersFit where
  bw := by constructor <;> decide
  br := by constructor <;> decide
  cmp := ⟨by decide, by decide, by decide, fun _ => (by decide : 0 < 2 ^ 32), by decide, by decide,
    by constructor <;> decide⟩
  dec := ⟨by decide, by decide, by decide, by decide, by decide, by decide, by decide, by constructor <;> decide⟩
  frm_cmp := ⟨by decide, by decide, by decide, fun _ => (by decide : 0 < 2 ^ 32), by decide, by decide,
    by constructor <;> decide⟩
  frm_dec := ⟨by decide, by decide, by decide, by decide, by decide, by decide, by decide, by constructor <;> decide⟩

theorem allUnits_fit (e : Event) : (allUnits e).RegistersFit :=
  have h := allUnits_code_fit
  ⟨h.bw, h.br, h.cmp, h.dec, h.frm_cmp, h.frm_dec⟩

/-- One well-formed instruction of every shape, at the ends of its fields. -/
theorem witness_InstructionEncodingRoundTrip :
    Instr.wf (later 65) .bwAlign = true ∧ Instr.wf { later 65 with place := .first } (.raw64 0xFFFFFFFFFFFFFFFF) = true ∧
    Instr.wf (later 65) (.rep 127) = true ∧ Instr.wf (later 65) (.idx 127 7 40 0xFFFFFFFFFF) = true ∧
    Instr.wf (later 65) (.idx 0 0 0 0xFFFFFFFFFFFFFFFF) = true ∧ Instr.wf (later 24) (.same 0xFFFFFFFFFF) = true ∧
    Instr.wf (later 65) (.new 7 0xFFFFFFFFFF) = true ∧
    Instr.wf { later 65 with place := .afterSentinel, pos := 64 } (.term 7) = true := by decide

theorem witness_DecodedCodeReencodes :
    ∃ (ctx : CodeCtx) (bs : Bits), ctx.L ≤ maxL ∧ decodeCode ctx bs = .ok (.rep 3, []) :=
  ⟨{ later 65 with L := 21 }, List.replicate 21 false ++ [true, true], by decide, by decide +kernel⟩

theorem witness_ReservedOpChangesOnlyResponse :
    (allUnits (cmd 0x16 0 0)).inbox = [cmd 0x16 0 0] ∧ opField (packCommand 0x16 0 0) = 0x16 ∧
    (allUnits (cmd 0x51 0 0)).inbox = [cmd 0x51 0 0] ∧ opField (packCommand 0x51 0 0) = 0x51 := by decide

theorem witness_BucketRoundsDown : bucket 7 ≤ 64 ∧ bucket 1 ≤ 8 ∧ bucket 0 ≤ 0 := by decide

theorem witness_ZeroCountsDelimitTheOnes :
    (1 : Value) ≠ 0 ∧ (0x8000000000000000 : Value) ≠ 0 ∧ clz64 1 = 63 ∧ ctz64 0x8000000000000000 = 63 := by
  decide +kernel

theorem witness_IdxFieldLayout : 127 < windowSize 7 ∧ 7 < 8 ∧ 63 < 64 ∧ 0 < windowSize 0 := by decide

theorem witness_NoLaterCodeExceeds69Bits : (holding 64 65).cmp.L ≤ maxL ∧ (holding 64 65).cmp.first = false ∧
    (encodeCode (holding 64 65).cmp.codeCtx ((holding 64 65).cmp.codeOf 0x8000000000000001)).length = 69 := by
  decide +kernel

theorem witness_StepRunsCommand : (allUnits (cmd 0x41 0 0)).inbox = [.command (packCommand 0x41 0 0)] ∧
    decodeCommand (packCommand 0x41 0 0) = .ok .decNext := by decide

theorem witness_StepRunsCodeAtCursor :
    (decoding 7 4 bytesC1).dec.ready = true ∧ (decoding 7 4 bytesC1).dec.eos = false ∧
    (decodeCode (decoding 7 4 bytesC1).dec.codeCtx (decoding 7 4 bytesC1).dec.upcoming).toOption.map Prod.fst =
      some (.raw64 one) ∧
    ({ (decoding 7 4 bytesC1).dec with eos := true } : Dec).ready = true := by decide +kernel

theorem witness_HardwareResetUnconfiguresUnits :
    State.reset.inbox = [] ∧ (allUnits .hardwareReset).inbox = [.hardwareReset] := by decide

/-- One case of each kind: unready, operand out of range, closed, at the length limit, and none. -/
theorem witness_RefusalsChangeOnlyResponse :
    refusalCase .brAlign .br State.reset = true ∧ refusalCase (.bwWriteBits 33 0) .bw (writing 4 []) = true ∧
    refusalCase .cmpClose .cmp { holding 64 65 with cmp := { (holding 64 65).cmp with closed := true } } = true ∧
    refusalCase .cmpClose .cmp { holding 64 65 with cmp := { (holding 64 65).cmp with gidx := 4294967295 } } = true ∧
    refusalCase .cmpClose .cmp { holding 64 65 with cmp := { (holding 64 65).cmp with gidx := 4294967294 } } = false ∧
    refusalCase (.bwWriteBits 32 0) .bw (writing 4 []) = false ∧
    (exec (.bwWriteBits 32 0) (writing 4 []) matches .next _) = true := by decide +kernel

theorem witness_CommandStatusesAreListed : unitOf (.bwInit 1) = some .bw ∧ unitOf (.frmDecompress 0 0) = some .frm := by
  decide

theorem witness_FaultedUnitRefusesUntilInit :
    unitOf (.bwWriteBit 1) = some .bw ∧ FaultCode.outputOverrun ≠ .none ∧
    ∃ t, exec (.bwWriteBit 1) (writing 0 (natBits 0 7)) = .next t ∧
      (t.resp.of .bw).status = FaultCode.outputOverrun.status ∧ unitOf .bwAlign = some .bw ∧ isInit .bwAlign = false :=
  ⟨by decide, by decide, _, rfl, by decide +kernel, by decide, by decide⟩

theorem witness_CommandsOfDifferentUnitsCommute :
    unitOf (.bwInit 1) = some .bw ∧ unitOf (.brInit 1) = some .br ∧ UnitId.bw ≠ .br ∧
    (∃ a, exec (.bwInit 1) State.reset = .next a) ∧ ∃ b, exec (.brInit 1) State.reset = .next b :=
  ⟨by decide, by decide, by decide, ⟨_, rfl⟩, ⟨_, rfl⟩⟩

theorem witness_StepKeepsCanonicalForm :
    (allUnits (cmd 0x32 0 one)).Canonical ∧ ∃ t, step (allUnits (cmd 0x32 0 one)) = .next t :=
  ⟨allUnits_canonical _, _, rfl⟩

theorem witness_StepKeepsUnitInvariants :
    (allUnits (cmd 0x32 0 one)).Canonical ∧ (allUnits (cmd 0x32 0 one)).UnitsInv ∧
    ∃ t, step (allUnits (cmd 0x32 0 one)) = .next t :=
  ⟨allUnits_canonical _, allUnits_inv _, _, rfl⟩

theorem witness_StepKeepsRegisterWidths :
    (allUnits (cmd 0x32 0 one)).UnitsInv ∧ (allUnits (cmd 0x32 0 one)).RegistersFit ∧
    ∃ t, step (allUnits (cmd 0x32 0 one)) = .next t :=
  ⟨allUnits_inv _, allUnits_fit _, _, rfl⟩

/-- With room for the bit, and without. -/
theorem witness_BwWriteBitAppends :
    (writing 1 (natBits 0 7)).bw.ready = true ∧ (writing 1 (natBits 0 7)).bw.Inv ∧
    (writing 1 (natBits 0 7)).bw.HasRoom 1 ∧ (writing 0 (natBits 0 7)).bw.ready = true ∧
    (writing 0 (natBits 0 7)).bw.Inv ∧ ¬ (writing 0 (natBits 0 7)).bw.HasRoom 1 :=
  ⟨by decide +kernel, writing_inv (by decide), by unfold Bw.HasRoom; decide +kernel, by decide +kernel,
    writing_inv (by decide), by unfold Bw.HasRoom; decide +kernel⟩

/-- Lengths 0 and 32 in range, 33 out of it; with room and without. -/
theorem witness_BwWriteBitsAppends :
    (0 : BitVec 8).toNat ≤ 32 ∧ (32 : BitVec 8).toNat ≤ 32 ∧ 32 < (33 : BitVec 8).toNat ∧
    (writing 4 []).bw.ready = true ∧ (writing 4 []).bw.Inv ∧ (writing 4 []).bw.HasRoom 32 ∧
    (writing 3 []).bw.ready = true ∧ (writing 3 []).bw.Inv ∧ ¬ (writing 3 []).bw.HasRoom 32 :=
  ⟨by decide, by decide, by decide, by decide, writing_inv (by decide), by unfold Bw.HasRoom; decide, by decide,
    writing_inv (by decide), by unfold Bw.HasRoom; decide⟩

theorem witness_BwWriteBits64Appends :
    (64 : BitVec 8).toNat ≤ 64 ∧ 64 < (65 : BitVec 8).toNat ∧ (32 : BitVec 8).toNat ≤ 32 ∧
    (writing 8 []).bw.ready = true ∧ (writing 8 []).bw.Inv ∧ (writing 8 []).bw.HasRoom 64 ∧
    (writing 7 []).bw.ready = true ∧ (writing 7 []).bw.Inv ∧ ¬ (writing 7 []).bw.HasRoom 64 :=
  ⟨by decide, by decide, by decide, by decide, writing_inv (by decide), by unfold Bw.HasRoom; decide, by decide,
    writing_inv (by decide), by unfold Bw.HasRoom; decide⟩

theorem witness_BwAlignPadsToByte :
    (writing 1 [true]).bw.ready = true ∧ (writing 1 [true]).bw.Inv ∧ (writing 1 [true]).bw.HasRoom 7 ∧
    (writing 0 [true]).bw.ready = true ∧ (writing 0 [true]).bw.Inv ∧ ¬ (writing 0 [true]).bw.HasRoom 7 ∧
    ∃ t, exec .bwAlign (writing 1 [true]) = .next t ∧ t.bw.fault = .none :=
  ⟨by decide, writing_inv (by decide), by unfold Bw.HasRoom; decide, by decide, writing_inv (by decide),
    by unfold Bw.HasRoom; decide, _, rfl, by decide +kernel⟩

theorem witness_BytewiseWriterAgrees : (writing 16 [true]).bw.Inv ∧ 64 ≤ 64 := ⟨writing_inv (by decide), by decide⟩

/-- Up to the end of the buffer, and past it. -/
theorem witness_BrReadsNextBits :
    (reading bytesR 0).br.ready = true ∧ (reading bytesR 0).br.pos + 64 ≤ 8 * (reading bytesR 0).br.len ∧
    8 * (reading bytesR 1).br.len < (reading bytesR 1).br.pos + 64 ∧ 32 < (33 : BitVec 8).toNat ∧
    64 < (65 : BitVec 8).toNat ∧ (32 : BitVec 8).toNat ≤ 32 ∧ (64 : BitVec 8).toNat ≤ 64 := by decide

theorem witness_BrAlignDiscardsToByte : (reading bytesR 64).br.ready = true ∧ (reading bytesR 64).br.Inv := by
  unfold Br.Inv; decide

/-- A written byte and three bits, flushed, read from where the write began. -/
theorem witness_ReaderRecoversWrites :
    (writing 4 [true]).bw.Inv ∧
    ∃ a b, (writing 4 [true]).bw.emit (natBits 0x5A5 10) = .ok a ∧
      a.emit (natBits 0 (padBits a.total)) = .ok b ∧ b.nbytes ≤ 2 ∧
      (∀ k < b.nbytes, (reading [0xB4, 0xA0] 1).br.inp.read k = b.out.read k) ∧
      (reading [0xB4, 0xA0] 1).br.held = [] ∧ (reading [0xB4, 0xA0] 1).br.pos = (writing 4 [true]).bw.total :=
  ⟨writing_inv (by decide), (writing 4 (true :: natBits 0x5A5 10)).bw,
    (writing 4 (true :: natBits 0x5A5 10 ++ natBits 0 5)).bw, by decide +kernel, by decide +kernel, by decide +kernel,
    by decide +kernel, rfl, by decide⟩

/-- A fill of each space that ends at the last address, one that runs past it, and a byte beyond the lookahead. -/
theorem witness_HostFillReachesItsSpace :
    ([.inp, .decIn, .src, .dst, .out, .cmpOut] : List Space).all
      (fun sp => decide ((allUnits (.fill sp 0xFFFFFFFF [1])).inbox = [.fill sp 0xFFFFFFFF [1]])) = true ∧
    (0xFFFFFFFF : BitVec 32).toNat + [(1 : Byte)].length ≤ 2 ^ 32 ∧
    2 ^ 32 < (0xFFFFFFFF : BitVec 32).toNat + [(1 : Byte), 2].length ∧ (allUnits (.fill .inp 0 [1])).br.inp.wf = true ∧
    (allUnits (.fill .inp 0 [1])).br.pos + 31 ≤ 8 * 4 ∧ (allUnits (.fill .inp 0 [1])).br.held.lookup 4 = none := by
  decide

theorem witness_CmpInitConstructsCompressor : 21 < (22 : BitVec 8).toNat ∧ (21 : BitVec 8).toNat ≤ 21 := by decide

/-- Capacity 8 has room for the first value, capacity 7 has none. -/
theorem witness_CmpFirstValueIsRaw :
    AddsValue (.cmpAddF64 one) one ∧ (compressing 7 8 []).cmp.accepts = true ∧ (compressing 7 8 []).cmp.Inv ∧
    (compressing 7 8 []).cmp.first = true ∧ (compressing 7 8 []).cmp.bw.HasRoom 64 ∧
    (compressing 7 7 []).cmp.accepts = true ∧ (compressing 7 7 []).cmp.Inv ∧ (compressing 7 7 []).cmp.first = true ∧
    ¬ (compressing 7 7 []).cmp.bw.HasRoom 64 :=
  ⟨.inr rfl, by decide, fresh_cmp_inv 7 8 (by decide), by decide, by unfold Bw.HasRoom; decide, by decide,
    fresh_cmp_inv 7 7 (by decide), by decide, by unfold Bw.HasRoom; decide⟩

/-- `1.0` again, and a value of another key. -/
theorem witness_CmpRepeatIsRep :
    AddsValue (.cmpAddU64 one) one ∧ (holding 64 65).cmp.accepts = true ∧ (holding 64 65).cmp.Inv ∧
    (holding 64 65).cmp.first = false ∧ (holding 64 65).cmp.Indexed one ∧ (holding 64 65).cmp.entryDelta one = 0 ∧
    ¬ (holding 64 65).cmp.Indexed 1 :=
  ⟨.inl rfl, by decide +kernel, holding_inv (by decide) (.inl rfl), rfl, by unfold Cmp.Indexed; decide +kernel,
    by decide +kernel, by unfold Cmp.Indexed; decide +kernel⟩

/-- `2.0` after `1.0`: no leading zero, 52 trailing ones. -/
theorem witness_CmpIndexedDeltaIsIdx :
    AddsValue (.cmpAddF64 0x4000000000000000) 0x4000000000000000 ∧ (holding 64 65).cmp.accepts = true ∧
    (holding 64 65).cmp.Inv ∧ (holding 64 65).cmp.first = false ∧
    (holding 64 65).cmp.Indexed 0x4000000000000000 ∧ (holding 64 65).cmp.entryDelta 0x4000000000000000 ≠ 0 ∧
    0 = bucket (bucketIndex (clz64 ((holding 64 65).cmp.entryDelta 0x4000000000000000))) ∧
    52 = ctz64 ((holding 64 65).cmp.entryDelta 0x4000000000000000) :=
  ⟨.inr rfl, by decide +kernel, holding_inv (by decide) (.inl rfl), rfl, by unfold Cmp.Indexed; decide +kernel,
    by decide +kernel, by decide +kernel, by decide +kernel⟩

theorem witness_CmpStoredBucketIsSame :
    AddsValue (.cmpAddU64 0x8000000000000001) 0x8000000000000001 ∧ (holding 64 0).cmp.accepts = true ∧
    (holding 64 0).cmp.Inv ∧ (holding 64 0).cmp.first = false ∧ ¬ (holding 64 0).cmp.Indexed 0x8000000000000001 ∧
    (holding 64 0).cmp.lastDelta 0x8000000000000001 ≠ 0 ∧
    0 = bucket (bucketIndex (clz64 ((holding 64 0).cmp.lastDelta 0x8000000000000001))) ∧ 0 = (holding 64 0).cmp.slz :=
  ⟨.inl rfl, by decide +kernel, holding_inv (by decide) (.inr ⟨0, rfl⟩), rfl,
    by unfold Cmp.Indexed; decide +kernel, by decide +kernel, by decide +kernel, rfl⟩

theorem witness_CmpOtherBucketIsNew :
    AddsValue (.cmpAddU64 0x8000000000000001) 0x8000000000000001 ∧ (holding 64 65).cmp.accepts = true ∧
    (holding 64 65).cmp.Inv ∧ (holding 64 65).cmp.first = false ∧ ¬ (holding 64 65).cmp.Indexed 0x8000000000000001 ∧
    (holding 64 65).cmp.lastDelta 0x8000000000000001 ≠ 0 ∧
    0 = bucket (bucketIndex (clz64 ((holding 64 65).cmp.lastDelta 0x8000000000000001))) ∧
    0 ≠ (holding 64 65).cmp.slz :=
  ⟨.inl rfl, by decide +kernel, holding_inv (by decide) (.inl rfl), rfl,
    by unfold Cmp.Indexed; decide +kernel, by decide +kernel, by decide +kernel, by decide⟩

theorem witness_IndexedCandidateIsMostRecentKey :
    (holding 64 65).cmp.Inv ∧ (holding 64 65).cmp.first = false ∧ (holding 64 65).cmp.Indexed one ∧
    (holding 64 65).cmp.Live 0 :=
  ⟨holding_inv (by decide) (.inl rfl), rfl, by unfold Cmp.Indexed; decide +kernel, by unfold Cmp.Live; decide⟩

/-- Closing after `1.0` takes 64 + 31 + 1 bits, 12 bytes: capacity 12 holds them, capacity 11 does not. -/
theorem witness_CmpCloseEndsStream :
    (holding 12 65).cmp.accepts = true ∧ (holding 12 65).cmp.Inv ∧ (holding 11 65).cmp.accepts = true ∧
    (holding 11 65).cmp.Inv ∧
    ((holding 12 65).cmp.bw.total +
        (encodeCode (holding 12 65).cmp.codeCtx ((holding 12 65).cmp.codeOf sentinel)).length + 1 + 7) / 8 = 12 ∧
    ((holding 11 65).cmp.bw.total +
        (encodeCode (holding 11 65).cmp.codeCtx ((holding 11 65).cmp.codeOf sentinel)).length + 1 + 7) / 8 = 12 :=
  ⟨by decide +kernel, holding_inv (by decide) (.inl rfl), by decide +kernel, holding_inv (by decide) (.inl rfl),
    by decide +kernel, by decide +kernel⟩

theorem witness_EmptyStreamIsRawSentinel :
    (compressing 21 9 []).cmp.accepts = true ∧ (compressing 21 9 []).cmp.Inv ∧
    (compressing 21 9 []).cmp.first = true ∧ 9 ≤ (compressing 21 9 []).cmp.bw.cap :=
  ⟨by decide, fresh_cmp_inv 21 9 (by decide), rfl, by decide⟩

theorem witness_CmpReadoutChangesNothing : (compressing 7 8 []).cmp.ready = true := by decide

theorem witness_DecInitConstructsDecompressor : 21 < (22 : BitVec 8).toNat ∧ (21 : BitVec 8).toNat ≤ 21 := by decide

theorem witness_Raw64FillsSlotZero : one ≠ sentinel ∧ sentinel = 0x7FF8000000000000 := by decide

theorem witness_RepPushesSlot : (0 : Slot).toNat < (decoded 1).dec.cnt ∧ (decoded 1).dec.cnt ≤ (1 : Slot).toNat := by
  decide +kernel

/-- The widest field that fits, one that does not, and an empty slot. -/
theorem witness_IdxDeliversShiftedDelta :
    40 = (if (40 : BitVec 6) = 0 then 64 else (40 : BitVec 6).toNat) ∧ 40 + bucket 7 ≤ 64 ∧
    (0 : Slot).toNat < (decoded 1).dec.cnt ∧
    41 = (if (41 : BitVec 6) = 0 then 64 else (41 : BitVec 6).toNat) ∧ 64 < 41 + bucket 7 ∧
    (decoded 1).dec.cnt ≤ (1 : Slot).toNat := by decide +kernel

theorem witness_SameDeliversDelta : (decoded 1).dec.slz = 65 ∧ ({ (decoded 1).dec with slz := 24 } : Dec).slz ≠ 65 := by
  decide +kernel

theorem witness_DecNextTakesCodeAtCursor :
    (decoded 1).dec.ready = true ∧ (decoded 1).dec.eos = false ∧
    (decodeCode (decoded 1).dec.codeCtx (decoded 1).dec.upcoming).toOption.map Prod.fst = some (.rep 0) := by
  decide +kernel

/-- A value step that answers, and one that faults. -/
theorem witness_DecReadValueIsNextThenRead :
    (decoding 7 4 bytesC1).dec.ready = true ∧
    (∃ a, exec .decNext (decoding 7 4 bytesC1) = .next a ∧ a.resp.dec.status = .ok) ∧
    (decoding 7 3 [0x3F]).dec.ready = true ∧
    ∃ a, exec .decNext (decoding 7 3 [0x3F]) = .next a ∧ a.resp.dec.status ≠ .ok :=
  ⟨by decide, ⟨_, rfl, by decide +kernel⟩, by decide, ⟨_, rfl, by decide +kernel⟩⟩

/-- A decompressor with window 128, one slot filled and this stored bucket, over these bytes at a cursor. -/
def cursorAt (bytes : List Byte) (pos slz : Nat) : State :=
  { decoding 7 4 bytes with
    dec := { (decoding 7 4 bytes).dec with
             first := false, cnt := 1, slz := slz, br := { (decoding 7 4 bytes).dec.br with pos := pos } } }

theorem cursorAt_meets (bytes : List Byte) (pos slz : Nat) :
    (cursorAt bytes pos slz).dec.ready = true ∧ (cursorAt bytes pos slz).dec.eos = false ∧
    (cursorAt bytes pos slz).dec.first = false ∧
    (cursorAt bytes pos slz).dec.emitted < (cursorAt bytes pos slz).dec.budget :=
  ⟨rfl, rfl, rfl, (by decide : 0 < 4)⟩

/-- One bit too few of: the first value, a flag, a bucket index, a payload of `NEW` and one of `SAME`. -/
theorem witness_BadCodeStopsDecoding :
    ((decoding 7 3 (bytesR.take 7)).dec.ready = true ∧ (decoding 7 3 (bytesR.take 7)).dec.eos = false ∧
      (decoding 7 3 (bytesR.take 7)).dec.first = true ∧ (decoding 7 3 (bytesR.take 7)).dec.br.Short 64) ∧
    (cursorAt [0] 7 65).dec.br.Short 2 ∧
    ((cursorAt [0x0C] 4 65).dec.br.Faces (fieldBits 3 2) ∧ (cursorAt [0x0C] 4 65).dec.br.Short 5) ∧
    ((cursorAt [0x0F, 0x80, 0, 0, 0, 0] 4 65).dec.br.Faces (fieldBits 3 2 ++ fieldBits (7 : BitVec 3).toNat 3) ∧
      (cursorAt [0x0F, 0x80, 0, 0, 0, 0] 4 65).dec.br.Short (5 + (64 - bucket 7))) ∧
    (cursorAt [0x80] 0 65).dec.br.Faces (fieldBits 2 2) ∧
    ((cursorAt [1, 0, 0, 0, 0, 0] 7 24).dec.br.Faces (fieldBits 2 2) ∧
      (cursorAt [1, 0, 0, 0, 0, 0] 7 24).dec.br.Short (2 + (64 - 24))) := by
  unfold Br.Short Br.Faces
  decide +kernel

/-- The same for `IDX` and `REP`: one bit too few of the packed field, the payload and the slot; the width one too large
with no payload there, the first empty slot; and a code that is all there. -/
theorem witness_BadCodeStopsDecoding_slots :
    ((cursorAt [0, 0x80, 0] 7 65).dec.br.Faces (fieldBits 1 2) ∧ (cursorAt [0, 0x80, 0] 7 65).dec.br.Short (7 + 11)) ∧
    ((cursorAt [0x40, 0x7A, 0x40] 0 65).dec.br.Faces
        (fieldBits 1 2 ++ fieldBits 0 7 ++ fieldBits (7 : BitVec 3).toNat 3 ++ fieldBits (41 : BitVec 6).toNat 6) ∧
      64 < 41 + bucket 7) ∧
    ((cursorAt [0x40, 0x80, 0x40] 0 65).dec.br.Faces
        (fieldBits 1 2 ++ fieldBits 1 7 ++ fieldBits (0 : BitVec 3).toNat 3 ++ fieldBits (1 : BitVec 6).toNat 6) ∧
      (cursorAt [0x40, 0x80, 0x40] 0 65).dec.cnt ≤ 1) ∧
    ((cursorAt [0, 0x80, 0xF4, 0, 0, 0, 0, 0] 7 65).dec.br.Faces
        (fieldBits 1 2 ++ fieldBits 0 7 ++ fieldBits (7 : BitVec 3).toNat 3 ++ fieldBits (40 : BitVec 6).toNat 6) ∧
      40 + bucket 7 ≤ 64 ∧ (cursorAt [0, 0x80, 0xF4, 0, 0, 0, 0, 0] 7 65).dec.br.Short (7 + 11 + 40)) ∧
    ((cursorAt [0] 0 65).dec.br.Faces (fieldBits 0 2) ∧ (cursorAt [0] 0 65).dec.br.Short (2 + 7)) ∧
    (cursorAt [0, 0x80] 0 65).dec.br.Faces (fieldBits 0 2 ++ fieldBits 1 7) ∧
    (Code.wf (cursorAt [0, 0] 0 65).dec.codeCtx (.rep 0) = true ∧
      (cursorAt [0, 0] 0 65).dec.br.Faces (encodeCode (cursorAt [0, 0] 0 65).dec.codeCtx (.rep 0))) ∧
    decodeCode (cursorAt [0x80] 0 65).dec.codeCtx (cursorAt [0x80] 0 65).dec.upcoming = .error .sameUnset := by
  unfold Br.Short Br.Faces
  decide +kernel

theorem witness_AfterEndNothingIsRead :
    ({ (decoding 7 4 bytesC1).dec with eos := true } : Dec).ready = true ∧
    ({ (decoding 7 4 bytesC1).dec with eos := true } : Dec).eos = true := by decide

/-- Budget spent; budget left with a value at the cursor; budget left with the end at the cursor. -/
theorem witness_DecGetValuesDeliversOneByOne :
    (decoding 7 0 bytesC1).dec.ready = true ∧ (decoding 7 0 bytesC1).dec.budget ≤ (decoding 7 0 bytesC1).dec.emitted ∧
    (∃ a, exec .decNext (decoding 7 4 bytesC1) = .next a ∧ a.resp.dec.status = .ok ∧ a.dec.eos = false ∧
      (decoding 7 4 bytesC1).dec.emitted < (decoding 7 4 bytesC1).dec.budget) ∧
    ∃ a, exec .decNext (decoding 7 3 [0x7F, 0xF8, 0, 0, 0, 0, 0, 0, 0]) = .next a ∧ a.resp.dec.status = .ok ∧
      a.dec.eos = true :=
  ⟨by decide, by decide, ⟨_, rfl, by decide +kernel, by decide +kernel, by decide⟩,
    ⟨_, rfl, by decide +kernel, by decide +kernel⟩⟩

theorem witness_DecGetValuesDeliversLastValue :
    (decoding 7 1 bytesC1).dec.ready = true ∧ (decoding 7 1 bytesC1).dec.eos = false ∧
    (decoding 7 1 bytesC1).dec.budget = (decoding 7 1 bytesC1).dec.emitted + 1 ∧
    (decodeCode (decoding 7 1 bytesC1).dec.codeCtx (decoding 7 1 bytesC1).dec.upcoming).toOption.map Prod.fst =
      some (.raw64 one) := by decide +kernel

/-- Both freshly constructed, the reader over the eight bytes of the value's code; for `1.0` and for the sentinel. -/
theorem witness_DecoderFollowsCompressor :
    (Cmp.reset.init 7 64).Inv ∧ (decoding 7 4 bytesR).dec.Inv ∧
    InStep (Cmp.reset.init 7 64) (decoding 7 4 bytesR).dec ∧
    (Cmp.reset.init 7 64).compressValue one = .ok (compressing 7 64 [one]).cmp ∧
    (decoding 7 4 bytesR).dec.br.Faces
      (encodeCode (Cmp.reset.init 7 64).codeCtx ((Cmp.reset.init 7 64).codeOf one)) ∧
    one ≠ sentinel ∧ (Cmp.reset.init 7 64).compressValue sentinel = .ok (compressing 7 64 [sentinel]).cmp ∧
    (decoding 7 4 [0x7F, 0xF8, 0, 0, 0, 0, 0, 0]).dec.br.Faces
      (encodeCode (Cmp.reset.init 7 64).codeCtx ((Cmp.reset.init 7 64).codeOf sentinel)) ∧
    ∀ i < (decoding 7 4 [0x7F, 0xF8, 0, 0, 0, 0, 0, 0]).dec.cnt,
      (decoding 7 4 [0x7F, 0xF8, 0, 0, 0, 0, 0, 0]).dec.win.read i ≠ sentinel :=
  ⟨fresh_cmp_inv 7 64 (by decide), fresh_dec_inv 7 8 4 (by decide) _,
    ⟨rfl, rfl, rfl, rfl, rfl, fun h => (by cases h), fun _ => rfl, fun h => (by cases h), fun h => (by cases h),
      fun h => (by cases h)⟩,
    by decide +kernel, by unfold Br.Faces; decide +kernel, by decide, by decide +kernel, by unfold Br.Faces; decide +kernel,
    fun i hi => absurd hi (Nat.not_lt_zero i)⟩

/-- The stream of `1.0` alone, in 13 bytes of capacity. -/
def closedOne : State := (allUnits .code).after (.cmpInit 7 13 :: [.cmpAddF64 one] ++ [.cmpClose])

/-- A decompressor over that stream. -/
def facingOne : State :=
  { State.reset with dec := { Dec.reset with br := { Br.reset with inp := closedOne.cmp.bw.out } } }

/-- Decoded with its own budget and with a larger one. -/
theorem witness_DecompressionInvertsCompression :
    (allUnits .code).Canonical ∧ (7 : BitVec 8).toNat ≤ 21 ∧ sentinel ∉ [one] ∧
    List.Forall₂ AddsValue [.cmpAddF64 one] [one] ∧
    closedOne = (allUnits .code).after (.cmpInit 7 13 :: [.cmpAddF64 one] ++ [.cmpClose]) ∧
    closedOne.cmp.fault = .none ∧ (closedOne.cmp.size + 7) / 8 ≤ (12 : BitVec 32).toNat ∧
    (∀ a < (closedOne.cmp.size + 7) / 8, facingOne.dec.br.inp.read a = closedOne.cmp.bw.out.read a) ∧
    [one].length ≤ (1 : BitVec 32).toNat ∧ [one].length < (2 : BitVec 32).toNat :=
  ⟨allUnits_canonical _, by decide, by decide, .cons (.inr rfl) .nil, rfl, by decide +kernel, by decide +kernel,
    fun _ _ => rfl, by decide, by decide⟩

/-- A frame of one value that fits, one that does not, a destination below the header, a length no multiple of 8. -/
theorem witness_FrmCompressWritesFrame :
    (12 : BitVec 32).toNat % 8 ≠ 0 ∧ (8 : BitVec 32).toNat = 8 * 1 ∧ (3 : BitVec 32).toNat < 4 ∧
    4 ≤ (4 : BitVec 32).toNat ∧
    ∃ c, (framing (valueBytes [one])).frm.compressStream
        ((framing (valueBytes [one])).frm.src.readValues 1) = .ok c ∧
      4 + (c.size + 7) / 8 ≤ (16 : BitVec 32).toNat ∧ (15 : BitVec 32).toNat < 4 + (c.size + 7) / 8 ∧
      (framing (valueBytes [one])).Canonical ∧
      (∀ i < 1, ∀ j < 8, ([one].getD i 0).toNat / 256 ^ j % 256 =
        ((framing (valueBytes [one])).frm.src.read (8 * i + j)).toNat) ∧
      ∃ r : State, r.cmp = Cmp.reset.init 7 ((65 + 69 * 1 + 7) / 8) ∧
        (r.after ([one].map Instr.cmpAddU64 ++ [.cmpClose])).cmp = c :=
  ⟨by decide, by decide, by decide, by decide,
    okOr .reset ((framing (valueBytes [one])).frm.compressStream ((framing (valueBytes [one])).frm.src.readValues 1)),
    by decide +kernel, by decide +kernel, by decide +kernel, by constructor <;> decide +kernel, by decide +kernel,
    { State.reset with cmp := Cmp.reset.init 7 17 }, by decide, by decide +kernel⟩

/-- No header; a destination one byte too short; a stream that decodes; a stream that ends too early. -/
theorem witness_FrmDecompressWritesValues :
    (3 : BitVec 32).toNat < 4 ∧ 4 ≤ (12 : BitVec 32).toNat ∧
    1 = ((framing ([1, 0, 0, 0] ++ bytesR)).frm.src.read 0).toNat +
      256 * ((framing ([1, 0, 0, 0] ++ bytesR)).frm.src.read 1).toNat +
      256 ^ 2 * ((framing ([1, 0, 0, 0] ++ bytesR)).frm.src.read 2).toNat +
      256 ^ 3 * ((framing ([1, 0, 0, 0] ++ bytesR)).frm.src.read 3).toNat ∧ (7 : BitVec 32).toNat < 8 * 1 ∧
    8 * 1 ≤ (8 : BitVec 32).toNat ∧ (framing ([1, 0, 0, 0] ++ bytesR)).Canonical ∧
    (∃ d, (framing ([1, 0, 0, 0] ++ bytesR)).frm.decompressStream 0 12 = .ok d) ∧
    (∃ f, (framing ([1, 0, 0, 0] ++ bytesR)).frm.decompressStream 0 11 = .error f) ∧
    (∀ a < 8, (decoding 7 1 bytesR).dec.br.inp.read a = (framing ([1, 0, 0, 0] ++ bytesR)).frm.src.read (4 + a)) ∧
    (∃ b, exec .decGetValues (decoding 7 1 bytesR) = .next b ∧ b.resp.dec.status = .ok) ∧
    ∃ b, exec .decGetValues (decoding 7 1 (bytesR.take 7)) = .next b ∧ b.resp.dec.status ≠ .ok :=
  ⟨by decide, by decide, by decide +kernel, by decide, by decide, by constructor <;> decide +kernel,
    ⟨okOr .reset ((framing ([1, 0, 0, 0] ++ bytesR)).frm.decompressStream 0 12), by decide +kernel⟩,
    ⟨.inputExhausted, by decide +kernel⟩, by decide +kernel, ⟨_, rfl, by decide +kernel⟩, ⟨_, rfl, by decide +kernel⟩⟩

/-- One value through a frame of 16 bytes in the framing layers of two machines. -/
theorem witness_FrameRoundTrip :
    (framing (valueBytes [one])).Canonical ∧ sentinel ∉ [one] ∧ (8 : BitVec 32).toNat = 8 * [one].length ∧
    (framing (valueBytes [one])).frm.src.readValues [one].length = [one] ∧
    4 + (64 + 69 * [one].length + 7) / 8 ≤ (21 : BitVec 32).toNat ∧
    ∃ t, exec (.frmCompress 8 21) (framing (valueBytes [one])) = .next t ∧ t.resp.frm.data.toNat = 16 ∧
      (framing (t.frm.dst.readBytes 0 16)).Canonical ∧ 8 * [one].length ≤ (8 : BitVec 32).toNat ∧
      ∀ a < 16, (framing (t.frm.dst.readBytes 0 16)).frm.src.read a = t.frm.dst.read a :=
  ⟨by constructor <;> decide +kernel, by decide, by decide, by decide +kernel, by decide, _, rfl, by decide +kernel,
    by constructor <;> decide +kernel, by decide, by decide +kernel⟩

end Sys2Proof.Tests
end

/-! Proofs of the statements of spec/00_scope.md: the register widths (R14), the zero counts (R18) and the longest
later code (R16, R186). -/

/-! ### Zero counts and buckets -/

namespace Sys2Proof

/-- How many zero bits a bit string starts with. -/
def zeroRun (bs : Bits) : Nat := (bs.takeWhile (fun b => !b)).length

@[simp] theorem zeroRun_nil : zeroRun [] = 0 := rfl

@[simp] theorem zeroRun_true (bs : Bits) : zeroRun (true :: bs) = 0 := rfl

@[simp] theorem zeroRun_false (bs : Bits) : zeroRun (false :: bs) = zeroRun bs + 1 := rfl

theorem clz64_eq_zeroRun (x : Value) : clz64 x = zeroRun (natBits x.toNat 64) := rfl

theorem ctz64_eq_zeroRun (x : Value) : ctz64 x = zeroRun (natBits x.toNat 64).reverse := rfl

/-- The zeros at the front of a bit string end at the highest one bit of its number. -/
theorem zeroRun_spec {bs : Bits} (h : bitsNat bs ≠ 0) :
    zeroRun bs < bs.length ∧ 2 ^ (bs.length - 1 - zeroRun bs) ≤ bitsNat bs ∧
      bitsNat bs < 2 ^ (bs.length - zeroRun bs) := by
  induction bs with
  | nil => exact absurd bitsNat_nil h
  | cons b bs ih =>
    cases b with
    | true => exact ⟨by simp, by simp [bitsNat_cons], bitsNat_lt _⟩
    | false =>
      have hdrop : bitsNat (false :: bs) = bitsNat bs := by simp [bitsNat_cons]
      obtain ⟨hlen, hlow, hhigh⟩ := ih (hdrop ▸ h)
      have hexp : (false :: bs).length - 1 - zeroRun (false :: bs) = bs.length - 1 - zeroRun bs := by simp; omega
      rw [hdrop, hexp, zeroRun_false, List.length_cons, Nat.add_sub_add_right]
      exact ⟨by omega, hlow, hhigh⟩

/-- The zeros at the end of a bit string end at the lowest one bit of its number. -/
theorem zeroRun_reverse_spec (bs : Bits) :
    2 ^ zeroRun bs.reverse ∣ bitsNat bs ∧
      (zeroRun bs.reverse < bs.length → ¬ 2 ^ (zeroRun bs.reverse + 1) ∣ bitsNat bs) := by
  induction bs using List.reverseRecOn with
  | nil => simp
  | append_singleton bs b ih =>
    rw [List.reverse_append, List.reverse_singleton, List.singleton_append]
    cases b with
    | true =>
      have hodd : bitsNat (bs ++ [true]) = bitsNat bs * 2 + 1 := by simp [bitsNat_append, bitsNat_cons]
      rw [zeroRun_true, hodd]
      exact ⟨one_dvd _, fun _ hd => by omega⟩
    | false =>
      have heven : bitsNat (bs ++ [false]) = bitsNat bs * 2 := by simp [bitsNat_append, bitsNat_cons]
      have hdvd : ∀ k, 2 ^ (k + 1) ∣ bitsNat bs * 2 ↔ 2 ^ k ∣ bitsNat bs := fun k => by
        rw [pow_succ]
        exact Nat.mul_dvd_mul_iff_right (by decide)
      rw [zeroRun_false, heven, hdvd, hdvd, List.length_append, List.length_singleton, Nat.add_lt_add_iff_right]
      exact ih

theorem bitsNat_natBits_toNat (x : Value) : bitsNat (natBits x.toNat 64) = x.toNat := by
  rw [bitsNat_natBits, Nat.mod_eq_of_lt x.isLt]

theorem toNat_pos_of_ne_zero {x : Value} (hx : x ≠ 0) : 0 < x.toNat :=
  Nat.pos_of_ne_zero fun h => hx (BitVec.eq_of_toNat_eq h)

theorem clz64_spec {x : Value} (hx : x ≠ 0) :
    clz64 x ≤ 63 ∧ 2 ^ (63 - clz64 x) ≤ x.toNat ∧ x.toNat < 2 ^ (64 - clz64 x) := by
  have hne : bitsNat (natBits x.toNat 64) ≠ 0 := by
    rw [bitsNat_natBits_toNat]; exact (toNat_pos_of_ne_zero hx).ne'
  obtain ⟨hlen, hlow, hhigh⟩ := zeroRun_spec hne
  rw [bitsNat_natBits_toNat, natBits_length, ← clz64_eq_zeroRun] at hlow hhigh
  rw [natBits_length, ← clz64_eq_zeroRun] at hlen
  exact ⟨Nat.le_of_lt_succ hlen, hlow, hhigh⟩

theorem ctz64_spec {x : Value} (hx : x ≠ 0) :
    ctz64 x ≤ 63 ∧ 2 ^ ctz64 x ∣ x.toNat ∧ ¬ 2 ^ (ctz64 x + 1) ∣ x.toNat := by
  obtain ⟨hdvd, hnot⟩ := zeroRun_reverse_spec (natBits x.toNat 64)
  rw [bitsNat_natBits_toNat, ← ctz64_eq_zeroRun] at hdvd hnot
  rw [natBits_length] at hnot
  have hle : 2 ^ ctz64 x ≤ x.toNat := Nat.le_of_dvd (toNat_pos_of_ne_zero hx) hdvd
  have hlt : ctz64 x < 64 := (Nat.pow_lt_pow_iff_right one_lt_two).mp (hle.trans_lt x.isLt)
  exact ⟨Nat.le_of_lt_succ hlt, hdvd, hnot hlt⟩

/-- The lowest one bit is not above the highest: at least one bit is left between the zeros. -/
theorem clz64_add_ctz64_lt {x : Value} (hx : x ≠ 0) : clz64 x + ctz64 x < 64 := by
  obtain ⟨-, -, hhigh⟩ := clz64_spec hx
  obtain ⟨-, hdvd, -⟩ := ctz64_spec hx
  have hle : 2 ^ ctz64 x ≤ x.toNat := Nat.le_of_dvd (toNat_pos_of_ne_zero hx) hdvd
  have hlt : ctz64 x < 64 - clz64 x := (Nat.pow_lt_pow_iff_right one_lt_two).mp (hle.trans_lt hhigh)
  omega

/-- Settles O6: the zero counts are those of the 64-bit string. -/
theorem zeroCountsDelimitTheOnes : Obligations.ZeroCountsDelimitTheOnes :=
  fun _ hx => ⟨clz64_spec hx, ctz64_spec hx⟩

/-- The bucket picked for a count is not above the count (R96). -/
theorem bucket_bucketIndex_le (z : Nat) : bucket (bucketIndex z) ≤ z := by
  have bucket_values : bucket 0 = 0 ∧ bucket 1 = 8 ∧ bucket 2 = 12 ∧ bucket 3 = 16 ∧ bucket 4 = 18 ∧ bucket 5 = 20 ∧
      bucket 6 = 22 ∧ bucket 7 = 24 := by decide
  unfold bucketIndex
  split_ifs <;> omega

/-! ### The length of a later code -/

@[simp] theorem encodeCode_rep_length (ctx : CodeCtx) (slot : Slot) :
    (encodeCode ctx (.rep slot)).length = ctx.L + 2 := by
  simp [encodeCode]

@[simp] theorem encodeCode_idx_length (ctx : CodeCtx) (slot : Slot) (lzc : BitVec 3) (sig : BitVec 6) (p : Value) :
    (encodeCode ctx (.idx slot lzc sig p)).length = ctx.L + 11 + sigWidth sig := by
  simp [encodeCode]

@[simp] theorem encodeCode_same_length (ctx : CodeCtx) (p : Value) :
    (encodeCode ctx (.same p)).length = 2 + (64 - ctx.slz) := by
  simp [encodeCode]

@[simp] theorem encodeCode_new_length (ctx : CodeCtx) (lzc : BitVec 3) (p : Value) :
    (encodeCode ctx (.new lzc p)).length = 5 + (64 - bucket lzc) := by
  simp [encodeCode]

end Sys2Proof

namespace Sys2Proof.Machine

/-- The payload width of an `IDX` code, as its count field gives it back (R94, R183). -/
theorem sigWidth_idx {x : Value} (hx : x ≠ 0) :
    sigWidth (BitVec.ofNat 6 (64 - bucket (bucketIndex (clz64 x)) - ctz64 x)) =
      64 - bucket (bucketIndex (clz64 x)) - ctz64 x := by
  have hsum := clz64_add_ctz64_lt hx
  have hbucket := bucket_bucketIndex_le (clz64 x)
  exact sigWidth_ofNat (by omega) (by omega)

/-- A candidate is taken from the index table only if more than `THR` low bits agree (R177). -/
theorem Cmp.threshold_lt_of_indexed {c : Cmp} {v : Value} (h : (c.candidate v).indexed = true) :
    threshold c.L < ctz64 (c.candidate v).delta := by
  unfold Cmp.candidate at h ⊢
  dsimp only at h ⊢
  split_ifs at h ⊢ with hc
  exact hc.2

/-- The codes a compressor picks after its first value (R180 to R185). -/
theorem Cmp.codeOf_later_cases {c : Cmp} (hf : c.first = false) (v : Value) :
    (∃ slot, c.codeOf v = .rep slot) ∨
    (∃ slot delta, delta ≠ 0 ∧ threshold c.L < ctz64 delta ∧
      c.codeOf v = .idx slot (bucketIndex (clz64 delta))
        (BitVec.ofNat 6 (64 - bucket (bucketIndex (clz64 delta)) - ctz64 delta)) (delta >>> ctz64 delta)) ∨
    (∃ payload, c.codeOf v = .same payload) ∨
    (∃ lzc payload, c.codeOf v = .new lzc payload) := by
  unfold Cmp.codeOf
  dsimp only
  rw [if_neg (by simp [hf])]
  split_ifs with hrep hidx hsame
  · exact .inl ⟨_, rfl⟩
  · exact .inr (.inl ⟨_, _, hrep, Cmp.threshold_lt_of_indexed hidx, rfl⟩)
  · exact .inr (.inr (.inl ⟨_, rfl⟩))
  · exact .inr (.inr (.inr ⟨_, _, rfl⟩))

/-- Settles O8: `NEW` with an empty bucket is the longest code; the `L + 7` or more low bits that an indexed candidate
agrees in outweigh the slot number of `IDX`. -/
theorem noLaterCodeExceeds69Bits : Obligations.NoLaterCodeExceeds69Bits := by
  intro c v hL hf
  have hctx : c.codeCtx.L = c.L := rfl
  have hmax : maxL = 21 := rfl
  rcases Cmp.codeOf_later_cases hf v with ⟨slot, he⟩ | ⟨slot, delta, hne, hthr, he⟩ | ⟨payload, he⟩ | ⟨lzc, payload, he⟩
  · rw [he, encodeCode_rep_length]; omega
  · rw [he, encodeCode_idx_length, sigWidth_idx hne, hctx]
    unfold threshold at hthr
    have hsum := clz64_add_ctz64_lt hne
    have hbucket := bucket_bucketIndex_le (clz64 delta)
    omega
  · rw [he, encodeCode_same_length]; omega
  · rw [he, encodeCode_new_length]; omega

/-! ### The widths of one unit's registers -/

theorem windowSize_lt_of_lt {L : Nat} (h : L < 2 ^ 5) : windowSize L < 2 ^ 32 :=
  Nat.pow_lt_pow_right one_lt_two h

theorem SlzLegal.lt {slz : Nat} (h : SlzLegal slz) : slz < 2 ^ 7 := by
  rcases h with rfl | ⟨i, rfl⟩
  · decide
  · have := bucket_le i; omega

theorem Bw.unspecified_fits (n k capBits : Nat) (cfg : Bool) (f : FaultCode) (m : Memory) :
    (Bw.unspecified n k capBits cfg f m).Fits capBits :=
  ⟨freeNat_lt _ _ _, freeNat_lt _ _ _, freeNat_lt _ _ _, freeNat_lt _ _ _⟩

theorem Br.unspecified_fits (n k : Nat) (cfg : Bool) (f : FaultCode) (m : Memory) :
    (Br.unspecified n k cfg f m).Fits :=
  ⟨freeNat_lt _ _ _, freeNat_lt _ _ _⟩

theorem Cmp.unspecified_fits (n k capBits : Nat) (cfg : Bool) (f : FaultCode) (m : Memory) :
    (Cmp.unspecified n k capBits cfg f m).Fits capBits where
  L := freeNat_lt _ _ _
  cur := freeNat_lt _ _ _
  gidx := freeNat_lt _ _ _
  entries := freeTable_read_lt _ _ _
  slz := freeNat_lt _ _ _
  size := freeNat_lt _ _ _
  bw := Bw.unspecified_fits _ _ _ _ _ _

theorem Dec.unspecified_fits (n k : Nat) (cfg : Bool) (f : FaultCode) (m : Memory) :
    (Dec.unspecified n k cfg f m).Fits where
  L := freeNat_lt _ _ _
  slz := freeNat_lt _ _ _
  stz := freeNat_lt _ _ _
  cur := freeNat_lt _ _ _
  budget := freeNat_lt _ _ _
  cnt := freeNat_lt _ _ _
  emitted := freeNat_lt _ _ _
  br := Br.unspecified_fits _ _ _ _ _

/-! ### The writer -/

/-- Counters that agree with each other fit where the capacity does; 33 bits are the widest capacity (R251). -/
theorem Bw.Counts.fits {w : Bw} (h : w.Counts) {capBits : Nat} (hbits : capBits ≤ 33) (hcap : w.cap < 2 ^ capBits) :
    w.Fits capBits := by
  obtain ⟨hpos, hle, htotal, hwithin⟩ := h
  have hwide : 2 ^ capBits ≤ 2 ^ 33 := Nat.pow_le_pow_right (by omega) hbits
  exact ⟨hcap, by omega, by omega, by omega⟩

/-- What `emit` answers has agreeing counters again, whatever the space holds (R131). -/
theorem Bw.emit_ok_counts {w w' : Bw} {bs : Bits} (h : w.Counts) (he : w.emit bs = .ok w') :
    w'.Counts ∧ w'.total = w.total + bs.length ∧ w'.cap = w.cap := by
  induction bs generalizing w with
  | nil => cases he; exact ⟨h, rfl, rfl⟩
  | cons b bs ih =>
    simp only [Bw.emit] at he
    by_cases hroom : w.HasRoom 1
    · obtain ⟨w₁, e₁, counts₁, total₁, cap₁⟩ := Bw.pushBit_counts h b hroom
      rw [e₁] at he
      obtain ⟨counts, total, cap⟩ := ih counts₁ he
      exact ⟨counts, by rw [total, total₁, List.length_cons]; omega, cap.trans cap₁⟩
    · obtain ⟨hpos, hle, htotal, hwithin⟩ := h
      have hfull : w.pushBit b = .error .outputOverrun := by
        unfold Bw.HasRoom at hroom
        simp only [Bw.pushBit]
        rw [if_pos (by omega), if_pos (by omega)]
      rw [hfull] at he
      cases he

/-! ### The compressor -/

/-- The compressor's counters agree with each other, whatever its window and its output space hold. -/
structure Cmp.Counts (c : Cmp) : Prop where
  L_le : c.L ≤ maxL
  writer : c.bw.Counts
  tab_wf : c.tab.wf = true
  slz_legal : SlzLegal c.slz
  cur_lt : c.cur < windowSize c.L
  entries_le : ∀ k, c.tab.read k ≤ c.gidx
  size_le : c.size ≤ c.bw.total

theorem Cmp.Inv.counts {c : Cmp} (h : c.Inv) : c.Counts where
  L_le := h.L_le
  writer := h.writer.counts
  tab_wf := h.tab_wf
  slz_legal := h.slz_legal
  cur_lt := h.cur_eq ▸ Nat.mod_lt _ (windowSize_pos _)
  entries_le := h.entries_le
  size_le := h.size_le

theorem Cmp.init_counts (c : Cmp) {L : Nat} (hL : L ≤ maxL) (cap : Nat) : (c.init L cap).Counts where
  L_le := hL
  writer := Bw.init_counts _ _
  tab_wf := rfl
  slz_legal := .inl rfl
  cur_lt := windowSize_pos L
  entries_le := fun _ => le_rfl
  size_le := le_rfl

/-- Counters that agree with each other fit where the position and the capacity do. -/
theorem Cmp.Counts.fits {c : Cmp} (h : c.Counts) {capBits : Nat} (hbits : capBits ≤ 33)
    (hcap : c.bw.cap < 2 ^ capBits) (hgidx : c.gidx < 2 ^ 32) : c.Fits capBits where
  L := h.L_le.trans_lt (by decide)
  cur := h.cur_lt
  gidx := hgidx
  entries := fun k => (h.entries_le k).trans_lt hgidx
  slz := h.slz_legal.lt
  size := h.size_le.trans_lt (h.writer.fits hbits hcap).total
  bw := h.writer.fits hbits hcap

/-- The first value keeps the position, a later one advances it by one (R173, R187). -/
theorem Cmp.store_gidx (c : Cmp) (v : Value) : (c.store v).gidx = if c.first then c.gidx else c.gidx + 1 := by
  unfold Cmp.store; split <;> rfl

/-- Storing a value keeps the counters in agreement (R173, R187). -/
theorem Cmp.store_counts {c : Cmp} (h : c.Counts) (v : Value) : (c.store v).Counts := by
  cases hf : c.first with
  | true =>
    rw [Cmp.store_of_first hf]
    refine { h with tab_wf := Table.wf_write h.tab_wf _ _, entries_le := fun k => ?_ }
    rw [Table.read_write h.tab_wf]
    split
    exacts [Nat.zero_le _, h.entries_le k]
  | false =>
    rw [Cmp.store_of_later hf]
    refine { h with tab_wf := Table.wf_write h.tab_wf _ _, cur_lt := Nat.mod_lt _ (windowSize_pos _),
                    entries_le := fun k => ?_ }
    rw [Table.read_write h.tab_wf]
    split
    exacts [le_rfl, (h.entries_le k).trans (Nat.le_succ _)]

/-- A value step that answers keeps the counters in agreement, and the capacity (R197). -/
theorem Cmp.compressValue_counts {c c' : Cmp} {v : Value} (h : c.Counts) (he : c.compressValue v = .ok c') :
    c'.Counts ∧ c'.bw.cap = c.bw.cap ∧ c'.gidx = if c.first then c.gidx else c.gidx + 1 := by
  obtain ⟨w, hemit, rfl⟩ := Cmp.compressValue_ok he
  obtain ⟨counts, total, cap⟩ := Bw.emit_ok_counts h.writer hemit
  refine ⟨Cmp.store_counts ?_ v, by rw [Cmp.store_bw]; exact cap, Cmp.store_gidx _ v⟩
  exact { h with writer := counts, slz_legal := slzAfter_legal h.slz_legal _,
                 size_le := by rw [total]; exact Nat.add_le_add_right h.size_le _ }

/-- Several values advance the position by at most their number (R304). -/
theorem Cmp.addAll_counts {c c' : Cmp} {vs : List Value} (h : c.Counts) (he : c.addAll vs = .ok c') :
    c'.Counts ∧ c'.bw.cap = c.bw.cap ∧ c'.gidx ≤ c.gidx + vs.length := by
  induction vs generalizing c with
  | nil => cases he; exact ⟨h, rfl, le_rfl⟩
  | cons v vs ih =>
    simp only [Cmp.addAll] at he
    cases hv : c.compressValue v with
    | error f => rw [hv] at he; cases he
    | ok c₁ =>
      rw [hv] at he
      obtain ⟨counts₁, cap₁, gidx₁⟩ := Cmp.compressValue_counts h hv
      obtain ⟨counts, cap, gidx⟩ := ih counts₁ he
      refine ⟨counts, cap.trans cap₁, ?_⟩
      rw [List.length_cons]
      split at gidx₁ <;> omega

/-- Closing adds one value to the counters, the sentinel (R191). -/
theorem Cmp.close_counts {c c' : Cmp} (h : c.Counts) (he : c.close = .ok c') :
    c'.Counts ∧ c'.bw.cap = c.bw.cap ∧ c'.gidx = if c.first then c.gidx else c.gidx + 1 := by
  obtain ⟨c₁, w, hvalue, hemit, rfl⟩ := Cmp.close_ok he
  obtain ⟨counts₁, cap₁, gidx₁⟩ := Cmp.compressValue_counts h hvalue
  obtain ⟨counts, total, cap⟩ := Bw.emit_ok_counts counts₁.writer hemit
  refine ⟨{ counts₁ with writer := counts, size_le := ?_ }, cap.trans cap₁, gidx₁⟩
  rw [total]
  exact counts₁.size_le.trans (Nat.le_add_right _ _)

/-- The position of an accepting compressor has room for one more value (R176). -/
theorem Cmp.accepts_gidx_lt {c : Cmp} (ha : c.accepts = true) (hg : c.gidx < 2 ^ 32) :
    (if c.first then c.gidx else c.gidx + 1) < 2 ^ 32 := by
  obtain ⟨-, -, -, hroom⟩ := c.accepts_iff.mp ha
  split
  next => exact hg
  next hf =>
    have hlast : c.gidx < 2 ^ 32 - 1 := hroom.resolve_left hf
    omega

/-- The compressor of a frame has a capacity of 33 bits and a position of 32 (R251). -/
theorem Framer.compressStream_fits {f : Framer} {vs : List Value} {c : Cmp} (hn : vs.length < 2 ^ 29)
    (he : f.compressStream vs = .ok c) : c.Fits 33 := by
  unfold Framer.compressStream at he
  cases hadd : (f.cmp.init framingL (internalCap vs.length)).addAll vs with
  | error e => rw [hadd] at he; cases he
  | ok c₁ =>
    rw [hadd] at he
    obtain ⟨counts₁, cap₁, gidx₁⟩ := Cmp.addAll_counts (Cmp.init_counts f.cmp (by decide) _) hadd
    obtain ⟨counts, cap, gidx⟩ := Cmp.close_counts counts₁ he
    rw [Cmp.init_gidx] at gidx₁
    refine counts.fits le_rfl ?_ ?_
    · rw [cap, cap₁, Cmp.init_bw, Bw.init_cap, internalCap, ceilDiv_eight]; omega
    · rw [gidx]; split <;> omega

/-! ### The decompressor -/

theorem Dec.init_fits (d : Dec) {L len budget : Nat} (hL : L ≤ maxL) (hlen : len < 2 ^ 32) (hb : budget < 2 ^ 32) :
    (d.init L len budget).Fits where
  L := hL.trans_lt (by decide)
  slz := SlzLegal.lt (.inl rfl)
  stz := Nat.two_pow_pos _
  cur := windowSize_pos L
  budget := hb
  cnt := Nat.two_pow_pos _
  emitted := Nat.two_pow_pos _
  br := ⟨hlen, Nat.two_pow_pos _⟩

theorem Dec.push_fits {d : Dec} (h : d.Fits) (v : Value) : (d.push v).Fits :=
  { h with cur := Nat.mod_lt _ (windowSize_pos _)
           cnt := (Nat.min_le_right _ _).trans_lt (windowSize_lt_of_lt h.L) }

theorem Dec.finish_fits {d : Dec} (h : d.Fits) (n : Nat) : (d.finish n).Fits := { h with }

theorem Dec.deliver_fits {d : Dec} (h : d.Fits) (n : Nat) (v : Value) : (d.deliver n v).Fits := by
  unfold Dec.deliver
  split
  exacts [Dec.finish_fits h n, Dec.push_fits h v]

/-- The effect of a code keeps the widths, also in a decompressor that is not ready (R212 to R217). -/
theorem Dec.takeCode_fits {d d' : Dec} {n : Nat} {c : Code} (h : d.Fits) (he : d.takeCode n c = .ok d') : d'.Fits := by
  have unset_lt : unset < 2 ^ 7 := by decide
  cases c with
  | raw64 v =>
    cases he
    have hone : ({ d with first := false, sv := v, win := d.win.write 0 v, cnt := 1 } : Dec).Fits :=
      { h with cnt := Nat.one_lt_two_pow (by decide) }
    unfold Dec.takeRaw
    dsimp only
    split
    exacts [Dec.finish_fits hone n, hone]
  | rep slot =>
    simp only [Dec.takeCode, Dec.takeRep] at he
    split_ifs at he
    cases he
    exact Dec.push_fits (d := { d with slz := unset }) { h with slz := unset_lt } _
  | idx slot lzc sig payload =>
    simp only [Dec.takeCode, Dec.takeIdx] at he
    split_ifs at he
    cases he
    have stz_lt : 64 - sigWidth sig - bucket lzc < 2 ^ 7 := by omega
    exact Dec.deliver_fits (d := { d with slz := unset, stz := 64 - sigWidth sig - bucket lzc })
      { h with slz := unset_lt, stz := stz_lt } _ _
  | same payload =>
    simp only [Dec.takeCode, Dec.takeSame] at he
    split_ifs at he
    cases he
    exact Dec.deliver_fits h _ _
  | new lzc payload =>
    cases he
    exact Dec.deliver_fits (d := { d with slz := bucket lzc }) { h with slz := SlzLegal.lt (.inr ⟨lzc, rfl⟩) } _ _
  | term pad => cases he; exact h

/-- The cursor moved past a fetched code is inside the buffer or where it was (R44, R71). -/
theorem Dec.advance_fits {d : Dec} {c : Code} {used : Nat} (h : d.Fits) (hf : d.fetch = .ok (c, used)) :
    (d.advance used).Fits := by
  have hlen := h.br.len
  have hpos := h.br.pos
  have hused := Dec.fetch_used_le hf
  exact { h with br := ⟨hlen, show d.br.pos + used < 2 ^ 64 by omega⟩ }

theorem Dec.nextValue_fits {d d' : Dec} {n : Nat} (h : d.Fits) (he : d.nextValue n = .ok d') : d'.Fits := by
  cases hf : d.fetch with
  | error e => rw [Dec.nextValue_error hf] at he; cases he
  | ok p =>
    rw [Dec.nextValue_ok (c := p.1) (used := p.2) hf] at he
    exact Dec.takeCode_fits (Dec.advance_fits h hf) he

/-- The delivery loop counts no further than its budget (R221). -/
theorem Dec.getValues_fits {d d' : Dec} {n : Nat} (h : d.Fits) (he : d.getValues n = .ok d') : d'.Fits := by
  have hspan : d.emitted + (d.budget - d.emitted) < 2 ^ 32 := by have := h.emitted; have := h.budget; omega
  unfold Dec.getValues at he
  generalize d.budget - d.emitted = k at he hspan
  induction k generalizing d with
  | zero => cases he; exact h
  | succ k ih =>
    simp only [Dec.deliverValues] at he
    cases hn : d.nextValue n with
    | error e => rw [hn] at he; cases he
    | ok d₁ =>
      simp only [hn] at he
      have fits₁ := Dec.nextValue_fits h hn
      obtain ⟨-, -, emitted₁, -⟩ := Dec.nextValue_keeps hn
      split at he
      · cases he; exact fits₁
      · exact ih (d := { d₁ with outq := d₁.outq ++ [d₁.sv], emitted := d₁.emitted + 1 })
          { fits₁ with emitted := by dsimp only; omega } he (by dsimp only; omega)

/-- The count field of a frame has 32 bits (R104). -/
theorem Framer.count_lt (f : Framer) : f.count < 2 ^ 32 := by
  have := leNat_lt (f.src.readBytes 0 headerBytes)
  rwa [Memory.length_readBytes] at this

theorem Framer.loadedDec_fits (f : Framer) {sourceLen : Nat} (h : sourceLen < 2 ^ 32) :
    (f.loadedDec sourceLen).Fits :=
  Dec.init_fits _ (by decide) (by omega) f.count_lt

/-! ### One unit of the machine replaced -/

namespace State.RegistersFit

variable {s : State}

theorem respond (h : s.RegistersFit) (u : UnitId) (st : Status) (x : BitVec 64) : (s.respond u st x).RegistersFit :=
  { h with }

theorem refuse (h : s.RegistersFit) (u : UnitId) : (s.refuse u).RegistersFit := { h with }

/-- A command that tests an operand or a flag takes one of two ways. -/
theorem ite {p : Prop} [Decidable p] {a b : State} (ha : p → a.RegistersFit) (hb : b.RegistersFit) :
    (if p then a else b).RegistersFit := by
  split
  exacts [ha ‹p›, hb]

theorem tick (h : s.RegistersFit) : s.tick.RegistersFit := { h with }

/-- A faulted unit's registers are free within their widths (R280). -/
theorem raise (h : s.RegistersFit) (u : UnitId) (f : FaultCode) : (s.raise u f).RegistersFit := by
  cases u with
  | bw => exact { h with bw := Bw.unspecified_fits _ _ _ _ _ _ }
  | br => exact { h with br := Br.unspecified_fits _ _ _ _ _ }
  | cmp => exact { h with cmp := Cmp.unspecified_fits _ _ _ _ _ _ }
  | dec => exact { h with dec := Dec.unspecified_fits _ _ _ _ _ }
  | frm => exact h.respond _ _ _

theorem fillSpace (h : s.RegistersFit) (space : Space) (base : Nat) (bytes : List Byte) :
    (s.fillSpace space base bytes).RegistersFit := by
  cases space with
  | out => exact { h with bw := { h.bw with } }
  | inp => exact { h with br := { h.br with } }
  | cmpOut => exact { h with cmp := { h.cmp with bw := { h.cmp.bw with } } }
  | decIn => exact { h with dec := { h.dec with br := { h.dec.br with } } }
  | src => exact { h with }
  | dst => exact { h with }

/-- Power-on leaves every register free within its width (R301). -/
theorem hardwareReset (s : State) : s.hardwareReset.RegistersFit where
  bw := Bw.unspecified_fits _ _ _ _ _ _
  br := Br.unspecified_fits _ _ _ _ _
  cmp := Cmp.unspecified_fits _ _ _ _ _ _
  dec := Dec.unspecified_fits _ _ _ _ _
  frm_cmp := Cmp.unspecified_fits _ _ _ _ _ _
  frm_dec := Dec.unspecified_fits _ _ _ _ _

/-! ### The commands -/

theorem writeBits (h : s.RegistersFit) (hi : s.UnitsInv) (bits : Bits) : (s.writeBits bits).RegistersFit := by
  rcases s.writeBits_cases bits with ⟨-, he⟩ | ⟨hr, w, hemit, he⟩ | ⟨-, -, he⟩ <;> rw [he]
  · exact h.refuse _
  · obtain ⟨counts, -, cap⟩ := Bw.emit_ok_counts (hi.bw hr).counts hemit
    have hw : w.Fits 32 := counts.fits (by decide) (by rw [cap]; exact h.bw.cap)
    exact { h with bw := hw }
  · exact h.raise _ _

/-- A reader whose cursor is inside its buffer fits its widths (R28, R29). -/
theorem setBrPos (h : s.RegistersFit) {p : Nat} (hp : p ≤ 8 * s.br.len) :
    ({ s with br := { s.br with pos := p } } : State).RegistersFit :=
  { h with br := ⟨h.br.len, by have := h.br.len; dsimp only; omega⟩ }

theorem readBits (h : s.RegistersFit) (n : Nat) : (s.readBits n).RegistersFit := by
  rcases s.readBits_cases n with ⟨-, he⟩ | ⟨-, hn, he⟩ | ⟨-, -, he⟩ <;> rw [he]
  exacts [h.refuse _, (h.setBrPos hn).respond _ _ _, h.raise _ _]

theorem compressorStep (h : s.RegistersFit) (hi : s.UnitsInv) {body : Except FaultCode Cmp}
    (hbody : ∀ c, s.cmp.Counts → body = .ok c →
      c.Counts ∧ c.bw.cap = s.cmp.bw.cap ∧ c.gidx = if s.cmp.first then s.cmp.gidx else s.cmp.gidx + 1) :
    (s.compressorStep body).RegistersFit := by
  rcases s.compressorStep_cases body with ⟨-, he⟩ | ⟨ha, c, hc, he⟩ | ⟨-, f, -, he⟩ <;> rw [he]
  · exact h.refuse _
  · have hready : s.cmp.ready = true := by
      obtain ⟨hcfg, hfault, -⟩ := s.cmp.accepts_iff.mp ha
      simp [Cmp.ready, hcfg, hfault]
    obtain ⟨counts, cap, gidx⟩ := hbody c (hi.cmp hready).counts hc
    have hfits : c.Fits 32 := counts.fits (by decide) (by rw [cap]; exact h.cmp.bw.cap)
      (by rw [gidx]; exact Cmp.accepts_gidx_lt ha h.cmp.gidx)
    exact { h with cmp := hfits }
  · exact h.raise _ _

theorem decompressorStep (h : s.RegistersFit) {body : Except FaultCode Dec} {data : Dec → BitVec 64}
    (hbody : ∀ d, body = .ok d → d.Fits) : (s.decompressorStep body data).RegistersFit := by
  rcases s.decompressorStep_cases body data with ⟨-, he⟩ | ⟨-, d, hd, he⟩ | ⟨-, f, -, he⟩ <;> rw [he]
  exacts [h.refuse _, { h with dec := hbody d hd }, h.raise _ _]

theorem afterCode (h : s.RegistersFit) (n : Nat) (c : Code) :
    (s.afterCode (s.dec.takeCode n c)).RegistersFit := by
  cases he : s.dec.takeCode n c with
  | error f => exact h.raise .dec f
  | ok d => exact { h with dec := Dec.takeCode_fits h.dec he }

end State.RegistersFit

/-- A code run as an instruction has the effect it has inside a value step (R212 to R217). -/
theorem exec_toInstr (c : Code) (s : State) :
    exec c.toInstr s = .next (s.afterCode (s.dec.takeCode s.draws c)) := by
  cases c <;> rfl

theorem execBrAlign_fits {s : State} (hi : s.UnitsInv) (h : s.RegistersFit) :
    ∃ t, execBrAlign s = .next t ∧ t.RegistersFit := by
  refine ⟨_, rfl, .ite (fun hr => ?_) (h.refuse _)⟩
  have hpos : s.br.pos ≤ 8 * s.br.len := hi.br hr
  have hpad := add_padBits s.br.pos
  exact (h.setBrPos (by omega)).respond _ _ _

theorem execFrmCompress_fits {s : State} (h : s.RegistersFit) (sourceLen destCapacity : BitVec 32) :
    ∃ t, execFrmCompress sourceLen destCapacity s = .next t ∧ t.RegistersFit := by
  have hn : (s.frm.src.readValues (sourceLen.toNat / 8)).length < 2 ^ 29 := by
    have := sourceLen.isLt
    simp only [Memory.readValues, List.length_map, List.length_range]
    omega
  refine ⟨_, rfl, ?_⟩
  split_ifs
  · exact h.refuse _
  · exact h.respond _ _ _
  · cases hc : s.frm.compressStream (s.frm.src.readValues (sourceLen.toNat / 8)) with
    | error f => exact h.raise _ _
    | ok c =>
      have hfits := Framer.compressStream_fits hn hc
      dsimp only
      split_ifs <;> exact { h with frm_cmp := hfits }

theorem execFrmDecompress_fits {s : State} (h : s.RegistersFit) (sourceLen destCapacity : BitVec 32) :
    ∃ t, execFrmDecompress sourceLen destCapacity s = .next t ∧ t.RegistersFit := by
  refine ⟨_, rfl, ?_⟩
  split_ifs
  · exact h.raise _ _
  · exact h.respond _ _ _
  · cases hd : s.frm.decompressStream s.draws sourceLen.toNat with
    | error f => exact { h with frm_dec := Dec.unspecified_fits _ _ _ _ _ }
    | ok d => exact { h with frm_dec := Dec.getValues_fits (s.frm.loadedDec_fits sourceLen.isLt) hd }

/-- Every instruction answers a state whose registers fit their widths. -/
theorem exec_fits {s : State} (hi : s.UnitsInv) (h : s.RegistersFit) (i : Instr) :
    ∃ t, exec i s = .next t ∧ t.RegistersFit := by
  have code : ∀ c : Code, ∃ t, exec c.toInstr s = .next t ∧ t.RegistersFit :=
    fun c => ⟨_, exec_toInstr c s, h.afterCode _ c⟩
  cases i with
  | bwInit cap => exact ⟨_, rfl, { h with bw := (Bw.init_counts s.bw cap.toNat).fits (by decide) cap.isLt }⟩
  | bwWriteBit bit => exact ⟨_, rfl, h.writeBits hi _⟩
  | bwWriteBits len value => exact ⟨_, rfl, .ite (fun _ => h.writeBits hi _) (h.refuse _)⟩
  | bwWriteBits64 len value => exact ⟨_, rfl, .ite (fun _ => h.writeBits hi _) (h.refuse _)⟩
  | bwAlign => exact ⟨_, rfl, h.writeBits hi _⟩
  | bwFlush => exact ⟨_, rfl, h.writeBits hi _⟩
  | brInit len => exact ⟨_, rfl, { h with br := ⟨len.isLt, Nat.two_pow_pos _⟩ }⟩
  | brReadBit => exact ⟨_, rfl, h.readBits _⟩
  | brReadBits len => exact ⟨_, rfl, .ite (fun _ => h.readBits _) (h.refuse _)⟩
  | brReadBits64 len => exact ⟨_, rfl, .ite (fun _ => h.readBits _) (h.refuse _)⟩
  | brAlign => exact execBrAlign_fits hi h
  | cmpInit l cap =>
    refine ⟨_, rfl, .ite (fun hl => ?_) (h.refuse _)⟩
    have counts := Cmp.init_counts s.cmp (by simpa [windowFits] using hl) cap.toNat
    exact { h with cmp := counts.fits (by decide) cap.isLt (Nat.two_pow_pos _) }
  | cmpAddU64 value => exact ⟨_, rfl, h.compressorStep hi fun _ hc he => Cmp.compressValue_counts hc he⟩
  | cmpAddF64 value => exact ⟨_, rfl, h.compressorStep hi fun _ hc he => Cmp.compressValue_counts hc he⟩
  | cmpClose => exact ⟨_, rfl, h.compressorStep hi fun _ hc he => Cmp.close_counts hc he⟩
  | cmpGetOutput => exact ⟨_, rfl, .ite (fun _ => h.respond _ _ _) (h.refuse _)⟩
  | cmpGetSize => exact ⟨_, rfl, .ite (fun _ => h.respond _ _ _) (h.refuse _)⟩
  | decInit l len budget =>
    refine ⟨_, rfl, .ite (fun hl => ?_) (h.refuse _)⟩
    exact { h with dec := Dec.init_fits s.dec (by simpa [windowFits] using hl) len.isLt budget.isLt }
  | decNext => exact ⟨_, rfl, h.decompressorStep fun _ he => Dec.nextValue_fits h.dec he⟩
  | decReadValue => exact ⟨_, rfl, h.decompressorStep fun _ he => Dec.nextValue_fits h.dec he⟩
  | decGetValues => exact ⟨_, rfl, h.decompressorStep fun _ he => Dec.getValues_fits h.dec he⟩
  | frmCompress sourceLen destCapacity => exact execFrmCompress_fits h sourceLen destCapacity
  | frmDecompress sourceLen destCapacity => exact execFrmDecompress_fits h sourceLen destCapacity
  | raw64 value => exact code (.raw64 value)
  | rep slot => exact code (.rep slot)
  | idx slot lzc sig payload => exact code (.idx slot lzc sig payload)
  | same payload => exact code (.same payload)
  | new lzc payload => exact code (.new lzc payload)
  | term pad => exact code (.term pad)

/-- Settles O19, by cases on the host's event. A code event runs on a decompressor whose cursor has moved, which
`exec_toInstr` and `Dec.advance_fits` cover without its invariant. -/
theorem stepKeepsRegisterWidths : Obligations.StepKeepsRegisterWidths := by
  intro s t hi h hstep
  have taken : ∀ rest, ({ s with inbox := rest } : State).RegistersFit := fun _ => { h with }
  rcases step_cases hstep with ⟨-, rfl⟩ | ⟨w, rest, i, u, -, -, hu, rfl⟩ | ⟨w, rest, op, -, -, rfl⟩ |
    ⟨space, base, bytes, rest, -, -, rfl⟩ | ⟨rest, -, rfl⟩ | ⟨rest, -, -, rfl⟩ | ⟨rest, f, -, -, -, rfl⟩ |
    ⟨rest, c, used, u, -, -, hf, hu, rfl⟩
  · exact h
  · obtain ⟨u', hu', fits⟩ := exec_fits (s := { s with inbox := rest }) { hi with } (taken rest) i
    rw [hu'] at hu
    exact Host.Outcome.next.inj hu ▸ fits.tick
  · exact { h with }
  · exact ((taken rest).fillSpace space base.toNat bytes).tick
  · exact (State.RegistersFit.hardwareReset _).tick
  · exact (taken rest).tick
  · exact ((taken rest).raise _ _).tick
  · have moved : ({ s with inbox := rest, dec := s.dec.advance used } : State).RegistersFit :=
      { h with dec := Dec.advance_fits h.dec hf }
    rw [exec_toInstr] at hu
    exact Host.Outcome.next.inj hu ▸ (moved.afterCode _ c).tick

end Sys2Proof.Machine

/-! Proofs of the statements of spec/10_state.md: the registers of a constructed unit agree after every step (R22 to
R44), a command changes nothing outside its unit (R20), and the events of the decoder and of the power switch (R44,
R56). -/

namespace Sys2Proof

/-- No command word is a stream code (R109). -/
theorem code?_of_decodeCommand {w : CommandWord} {i : Instr} (h : decodeCommand w = .ok i) : i.code? = none := by
  unfold decodeCommand at h
  dsimp only at h
  split at h <;> cases h <;> rfl

end Sys2Proof

namespace Sys2Proof.Machine

/-! ### Units constructed and not faulted -/

theorem Bw.ready_iff (w : Bw) : w.ready = true ↔ w.cfg = true ∧ w.fault = .none := by simp [Bw.ready]

theorem Br.ready_iff (r : Br) : r.ready = true ↔ r.cfg = true ∧ r.fault = .none := by simp [Br.ready]

theorem Cmp.ready_iff (c : Cmp) : c.ready = true ↔ c.cfg = true ∧ c.fault = .none := by simp [Cmp.ready]

theorem Dec.ready_iff (d : Dec) : d.ready = true ↔ d.cfg = true ∧ d.fault = .none := by simp [Dec.ready]

/-- An accepting compressor is ready and not closed (R174). -/
theorem Cmp.ready_of_accepts {c : Cmp} (h : c.accepts = true) : c.ready = true ∧ c.closed = false := by
  obtain ⟨hcfg, hfault, hopen, -⟩ := c.accepts_iff.mp h
  exact ⟨c.ready_iff.mpr ⟨hcfg, hfault⟩, hopen⟩

/-- A failing value step or delivery loop names a fault (R274). -/
theorem decodingFault_ne_none {f : FaultCode} (h : f = .inputExhausted ∨ f = .malformedStream) : f ≠ .none := by
  rcases h with rfl | rfl <;> decide

/-! ### The invariants of one unit -/

/-- A freshly constructed compressor's registers agree (R170). -/
theorem Cmp.init_inv (c : Cmp) {L : Nat} (hL : L ≤ maxL) (cap : Nat) (h : c.bw.out.wf = true) : (c.init L cap).Inv where
  L_le := hL
  writer_ready := rfl
  writer := Bw.init_inv _ _ h
  win_wf := rfl
  tab_wf := rfl
  slz_legal := .inl rfl
  size_open := fun _ => rfl
  size_le := le_rfl
  fresh := fun _ => ⟨rfl, rfl, rfl, rfl, fun _ => rfl⟩
  cur_eq := (Nat.zero_mod _).symm
  entries_le := fun _ => le_rfl
  live_entries := fun hf => nomatch hf
  entries_live := fun hf => nomatch hf

theorem Cmp.compressValue_closed {c c' : Cmp} {v : Value} (he : c.compressValue v = .ok c') : c'.closed = c.closed := by
  obtain ⟨w, -, rfl⟩ := Cmp.compressValue_ok he
  exact Cmp.store_closed _ _

/-- Several values keep an open compressor open and in agreement (R304). -/
theorem Cmp.addAll_inv {c c' : Cmp} {vs : List Value} (h : c.Inv) (ho : c.closed = false) (he : c.addAll vs = .ok c') :
    c'.Inv ∧ c'.closed = false := by
  induction vs generalizing c with
  | nil => cases he; exact ⟨h, ho⟩
  | cons v vs ih =>
    simp only [Cmp.addAll] at he
    cases hv : c.compressValue v with
    | error f => rw [hv] at he; cases he
    | ok c₁ =>
      rw [hv] at he
      exact ih (Cmp.compressValue_inv h ho hv) ((Cmp.compressValue_closed hv).trans ho) he

/-- The compressor of a frame agrees with itself after its stream (R250). -/
theorem Framer.compressStream_inv {f : Framer} {vs : List Value} {c : Cmp} (h : f.cmp.bw.out.wf = true)
    (he : f.compressStream vs = .ok c) : c.Inv := by
  unfold Framer.compressStream at he
  cases hadd : (f.cmp.init framingL (internalCap vs.length)).addAll vs with
  | error e => rw [hadd] at he; cases he
  | ok c₁ =>
    rw [hadd] at he
    obtain ⟨inv₁, open₁⟩ := Cmp.addAll_inv (Cmp.init_inv f.cmp (by decide) _ h) rfl hadd
    exact Cmp.close_inv inv₁ open₁ he

/-- A freshly constructed decompressor's registers agree (R210). -/
theorem Dec.init_inv (d : Dec) {L : Nat} (hL : L ≤ maxL) (len budget : Nat) : (d.init L len budget).Inv where
  L_le := hL
  reader_ready := rfl
  reader := Nat.zero_le _
  win_wf := rfl
  slz_legal := .inl rfl
  stz_le := Nat.zero_le _
  cur_lt := windowSize_pos L
  cnt_le := Nat.zero_le _
  cnt_first := fun _ => rfl
  cnt_later := fun hf => nomatch hf
  emitted_le := Nat.zero_le _
  outq_length := rfl

/-- The cursor moved past a fetched code is still inside the buffer (R44, R71). -/
theorem Dec.advance_inv {d : Dec} {c : Code} {used : Nat} (h : d.Inv) (hf : d.fetch = .ok (c, used)) :
    (d.advance used).Inv := by
  have hpos : d.br.pos ≤ 8 * d.br.len := h.reader
  have hused := Dec.fetch_used_le hf
  exact { h with reader := show d.br.pos + used ≤ 8 * d.br.len by omega }

/-! ### One unit of the machine replaced -/

namespace State.UnitsInv

variable {s : State}

theorem respond (h : s.UnitsInv) (u : UnitId) (st : Status) (x : BitVec 64) : (s.respond u st x).UnitsInv := { h with }

theorem refuse (h : s.UnitsInv) (u : UnitId) : (s.refuse u).UnitsInv := h.respond _ _ _

theorem tick (h : s.UnitsInv) : s.tick.UnitsInv := { h with }

/-- A command that tests an operand or a flag takes one of two ways. -/
theorem ite {p : Prop} [Decidable p] {a b : State} (ha : p → a.UnitsInv) (hb : b.UnitsInv) :
    (if p then a else b).UnitsInv := by
  split
  exacts [ha ‹p›, hb]

/-- A faulted unit is not ready, so nothing is asked of its registers (R280). -/
theorem raise (h : s.UnitsInv) (u : UnitId) {f : FaultCode} (hf : f ≠ .none) : (s.raise u f).UnitsInv := by
  cases u with
  | bw => exact { h with bw := fun hr => absurd ((Bw.ready_iff _).mp hr).2 hf }
  | br => exact { h with br := fun hr => absurd ((Br.ready_iff _).mp hr).2 hf }
  | cmp => exact { h with cmp := fun hr => absurd ((Cmp.ready_iff _).mp hr).2 hf }
  | dec => exact { h with dec := fun hr => absurd ((Dec.ready_iff _).mp hr).2 hf }
  | frm => exact h.respond _ _ _

/-- A fill by the host changes bytes and the reader's lookahead, no register that an invariant speaks of (R60, R80). -/
theorem fillSpace (h : s.UnitsInv) (space : Space) (base : Nat) (bytes : List Byte) :
    (s.fillSpace space base bytes).UnitsInv := by
  have stored : ∀ {w : Bw}, w.Inv → ({ w with out := w.out.writeBytes base bytes } : Bw).Inv :=
    fun hw => { hw with out_wf := Memory.wf_writeBytes hw.out_wf _ _ }
  cases space with
  | out => exact { h with bw := fun hr => stored (h.bw hr) }
  | inp => exact { h with br := h.br }
  | cmpOut => exact { h with cmp := fun hr => { h.cmp hr with writer := stored (h.cmp hr).writer } }
  | decIn => exact { h with dec := fun hr => { h.dec hr with } }
  | src => exact { h with }
  | dst => exact { h with }

/-- Power-on leaves no unit constructed (R301). -/
theorem hardwareReset (s : State) : s.hardwareReset.UnitsInv where
  bw := fun hr => nomatch ((Bw.ready_iff _).mp hr).1
  br := fun hr => nomatch ((Br.ready_iff _).mp hr).1
  cmp := fun hr => nomatch ((Cmp.ready_iff _).mp hr).1
  dec := fun hr => nomatch ((Dec.ready_iff _).mp hr).1
  frm_cmp := fun hr => nomatch ((Cmp.ready_iff _).mp hr).1
  frm_dec := fun hr => nomatch ((Dec.ready_iff _).mp hr).1

/-! ### The commands -/

theorem writeBits (h : s.UnitsInv) (bits : Bits) : (s.writeBits bits).UnitsInv := by
  rcases s.writeBits_cases bits with ⟨-, he⟩ | ⟨hr, w, hemit, he⟩ | ⟨-, -, he⟩ <;> rw [he]
  · exact h.refuse _
  · obtain ⟨-, -, inv⟩ := Bw.emit_ok (h.bw hr) hemit
    exact { h with bw := fun _ => inv }
  · exact h.raise _ (by decide)

/-- A reader is in agreement wherever in its buffer the cursor stands (R44). -/
theorem setBrPos (h : s.UnitsInv) {p : Nat} (hp : p ≤ 8 * s.br.len) :
    ({ s with br := { s.br with pos := p } } : State).UnitsInv :=
  { h with br := fun _ => hp }

theorem readBits (h : s.UnitsInv) (n : Nat) : (s.readBits n).UnitsInv := by
  rcases s.readBits_cases n with ⟨-, he⟩ | ⟨-, hn, he⟩ | ⟨-, -, he⟩ <;> rw [he]
  exacts [h.refuse _, (h.setBrPos hn).respond _ _ _, h.raise _ (by decide)]

/-- A command on the compressor's stream keeps the invariant if its body does and can only overrun. -/
theorem compressorStep (h : s.UnitsInv) {body : Except FaultCode Cmp}
    (hok : ∀ c, s.cmp.Inv → s.cmp.closed = false → body = .ok c → c.Inv)
    (herror : ∀ f, body = .error f → f = .outputOverrun) : (s.compressorStep body).UnitsInv := by
  rcases s.compressorStep_cases body with ⟨-, he⟩ | ⟨ha, c, hc, he⟩ | ⟨-, f, hf, he⟩ <;> rw [he]
  · exact h.refuse _
  · obtain ⟨hready, hopen⟩ := Cmp.ready_of_accepts ha
    exact { h with cmp := fun _ => hok c (h.cmp hready) hopen hc }
  · obtain rfl := herror f hf
    exact h.raise _ (by decide)

/-- A decoding command keeps the invariant if its body does and names its fault. -/
theorem decompressorStep (h : s.UnitsInv) {body : Except FaultCode Dec} {data : Dec → BitVec 64}
    (hok : ∀ d, s.dec.Inv → body = .ok d → d.Inv)
    (herror : ∀ f, body = .error f → f = .inputExhausted ∨ f = .malformedStream) :
    (s.decompressorStep body data).UnitsInv := by
  rcases s.decompressorStep_cases body data with ⟨-, he⟩ | ⟨hr, d, hd, he⟩ | ⟨-, f, hf, he⟩ <;> rw [he]
  · exact h.refuse _
  · exact { h with dec := fun _ => hok d (h.dec hr) hd }
  · exact h.raise _ (decodingFault_ne_none (herror f hf))

/-- A fetched code, run with the cursor past it, is the value step (R211). A code that was not fetched may break the
invariant: only the first code of a stream is `RAW64` (R99). -/
theorem afterCode (h : s.UnitsInv) (hr : s.dec.ready = true) {c : Code} {used : Nat}
    (hf : s.dec.fetch = .ok (c, used)) :
    (State.afterCode { s with dec := s.dec.advance used } ((s.dec.advance used).takeCode s.draws c)).UnitsInv := by
  cases he : (s.dec.advance used).takeCode s.draws c with
  | ok d => exact { h with dec := fun _ => Dec.nextValue_inv (h.dec hr) ((Dec.nextValue_ok hf).trans he) }
  | error f =>
    have moved : ({ s with dec := s.dec.advance used } : State).UnitsInv :=
      { h with dec := fun _ => Dec.advance_inv (h.dec hr) hf }
    exact moved.raise .dec (decodingFault_ne_none (.inr (Dec.takeCode_error he)))

end State.UnitsInv

theorem execBrAlign_unitsInv {s : State} (h : s.UnitsInv) : ∃ t, execBrAlign s = .next t ∧ t.UnitsInv := by
  refine ⟨_, rfl, .ite (fun hr => ?_) (h.refuse _)⟩
  have hpos : s.br.pos ≤ 8 * s.br.len := h.br hr
  have hpad := add_padBits s.br.pos
  exact (h.setBrPos (by omega)).respond _ _ _

theorem execFrmCompress_unitsInv {s : State} (hout : s.frm.cmp.bw.out.wf = true) (h : s.UnitsInv)
    (sourceLen destCapacity : BitVec 32) :
    ∃ t, execFrmCompress sourceLen destCapacity s = .next t ∧ t.UnitsInv := by
  refine ⟨_, rfl, ?_⟩
  split_ifs
  · exact h.refuse _
  · exact h.respond _ _ _
  · cases hc : s.frm.compressStream (s.frm.src.readValues (sourceLen.toNat / 8)) with
    | error f => exact h.respond _ _ _
    | ok c =>
      have inv := Framer.compressStream_inv hout hc
      dsimp only
      split_ifs <;> exact { h with frm_cmp := fun _ => inv }

theorem execFrmDecompress_unitsInv {s : State} (h : s.UnitsInv) (sourceLen destCapacity : BitVec 32) :
    ∃ t, execFrmDecompress sourceLen destCapacity s = .next t ∧ t.UnitsInv := by
  refine ⟨_, rfl, ?_⟩
  split_ifs
  · exact h.respond _ _ _
  · exact h.respond _ _ _
  · have loaded : (s.frm.loadedDec sourceLen.toNat).Inv := Dec.init_inv _ (by decide) _ _
    cases hd : s.frm.decompressStream s.draws sourceLen.toNat with
    | error f =>
      have hne := decodingFault_ne_none (Dec.getValues_fault hd)
      exact { h with frm_dec := fun hr => absurd ((Dec.ready_iff _).mp hr).2 hne }
    | ok d => exact { h with frm_dec := fun _ => Dec.getValues_inv loaded hd }

/-- Every command keeps the units' registers in agreement. -/
theorem exec_unitsInv {s : State} (hc : s.Canonical) (h : s.UnitsInv) {i : Instr} (hi : i.code? = none) :
    ∃ t, exec i s = .next t ∧ t.UnitsInv := by
  have add : ∀ v, (s.compressorStep (s.cmp.compressValue v)).UnitsInv := fun v =>
    h.compressorStep (fun _ hinv hopen => Cmp.compressValue_inv hinv hopen) (fun _ => Cmp.compressValue_error)
  have next : ∀ data, (s.decompressorStep (s.dec.nextValue s.draws) data).UnitsInv := fun _ =>
    h.decompressorStep (fun _ => Dec.nextValue_inv) (fun _ => Dec.nextValue_fault)
  cases i with
  | bwInit cap => exact ⟨_, rfl, { h with bw := fun _ => Bw.init_inv s.bw cap.toNat hc.out }⟩
  | bwWriteBit bit => exact ⟨_, rfl, h.writeBits _⟩
  | bwWriteBits len value => exact ⟨_, rfl, .ite (fun _ => h.writeBits _) (h.refuse _)⟩
  | bwWriteBits64 len value => exact ⟨_, rfl, .ite (fun _ => h.writeBits _) (h.refuse _)⟩
  | bwAlign => exact ⟨_, rfl, h.writeBits _⟩
  | bwFlush => exact ⟨_, rfl, h.writeBits _⟩
  | brInit len => exact ⟨_, rfl, { h with br := fun _ => Nat.zero_le _ }⟩
  | brReadBit => exact ⟨_, rfl, h.readBits _⟩
  | brReadBits len => exact ⟨_, rfl, .ite (fun _ => h.readBits _) (h.refuse _)⟩
  | brReadBits64 len => exact ⟨_, rfl, .ite (fun _ => h.readBits _) (h.refuse _)⟩
  | brAlign => exact execBrAlign_unitsInv h
  | cmpInit l cap =>
    refine ⟨_, rfl, .ite (fun hl => ?_) (h.refuse _)⟩
    exact { h with cmp := fun _ => Cmp.init_inv s.cmp (by simpa [windowFits] using hl) cap.toNat hc.cmpOut }
  | cmpAddU64 value => exact ⟨_, rfl, add value⟩
  | cmpAddF64 value => exact ⟨_, rfl, add value⟩
  | cmpClose =>
    exact ⟨_, rfl, h.compressorStep (fun _ hinv hopen => Cmp.close_inv hinv hopen) (fun _ => Cmp.close_error)⟩
  | cmpGetOutput => exact ⟨_, rfl, .ite (fun _ => h.respond _ _ _) (h.refuse _)⟩
  | cmpGetSize => exact ⟨_, rfl, .ite (fun _ => h.respond _ _ _) (h.refuse _)⟩
  | decInit l len budget =>
    refine ⟨_, rfl, .ite (fun hl => ?_) (h.refuse _)⟩
    exact { h with dec := fun _ => Dec.init_inv s.dec (by simpa [windowFits] using hl) _ _ }
  | decNext => exact ⟨_, rfl, next _⟩
  | decReadValue => exact ⟨_, rfl, next _⟩
  | decGetValues =>
    exact ⟨_, rfl, h.decompressorStep (fun _ => Dec.getValues_inv) (fun _ => Dec.getValues_fault)⟩
  | frmCompress sourceLen destCapacity => exact execFrmCompress_unitsInv hc.frmOut h sourceLen destCapacity
  | frmDecompress sourceLen destCapacity => exact execFrmDecompress_unitsInv h sourceLen destCapacity
  | raw64 | rep | idx | same | new | term => cases hi

/-- Settles O18, by cases on the host's event: a command by `exec_unitsInv`, a code event by the fetch that brought the
code, a fill by what it leaves alone, and a fault or a power cycle because no unit it changes stays ready. -/
theorem stepKeepsUnitInvariants : Obligations.StepKeepsUnitInvariants := by
  intro s t hc h hstep
  have taken : ∀ rest, ({ s with inbox := rest } : State).UnitsInv := fun _ => { h with }
  rcases step_cases hstep with ⟨-, rfl⟩ | ⟨w, rest, i, u, -, hd, hu, rfl⟩ | ⟨w, rest, op, -, -, rfl⟩ |
    ⟨space, base, bytes, rest, -, -, rfl⟩ | ⟨rest, -, rfl⟩ | ⟨rest, -, -, rfl⟩ | ⟨rest, f, -, -, hf, rfl⟩ |
    ⟨rest, c, used, u, -, hr, hf, hu, rfl⟩
  · exact h
  · obtain ⟨u', hu', inv⟩ :=
      exec_unitsInv (s := { s with inbox := rest }) { hc with } (taken rest) (code?_of_decodeCommand hd)
    rw [hu'] at hu
    exact Host.Outcome.next.inj hu ▸ inv.tick
  · exact { h with }
  · exact ((taken rest).fillSpace space base.toNat bytes).tick
  · exact (State.UnitsInv.hardwareReset _).tick
  · exact (taken rest).tick
  · have hfault := Dec.nextValue_fault (n := s.draws) (Dec.nextValue_error hf)
    exact ((taken rest).raise _ (decodingFault_ne_none hfault)).tick
  · rw [exec_toInstr] at hu
    exact Host.Outcome.next.inj hu ▸ ((taken rest).afterCode hr hf).tick

/-! ### What a command leaves alone -/

namespace OnlyUnit

variable {u : UnitId} {s t : State}

theorem refl (u : UnitId) (s : State) : OnlyUnit u s s := by simp [OnlyUnit]

theorem setBw (s : State) (w : Bw) : OnlyUnit .bw s { s with bw := w } := by simp [OnlyUnit]

theorem setBr (s : State) (r : Br) : OnlyUnit .br s { s with br := r } := by simp [OnlyUnit]

theorem setCmp (s : State) (c : Cmp) : OnlyUnit .cmp s { s with cmp := c } := by simp [OnlyUnit]

theorem setDec (s : State) (d : Dec) : OnlyUnit .dec s { s with dec := d } := by simp [OnlyUnit]

theorem setFrm (s : State) (f : Framer) : OnlyUnit .frm s { s with frm := f } := by simp [OnlyUnit]

/-- The unit's own response register may be written too (R50). -/
theorem respond (h : OnlyUnit u s t) (st : Status) (x : BitVec 64) : OnlyUnit u s (t.respond u st x) := by
  cases u <;> simpa [OnlyUnit] using h

theorem refuse (u : UnitId) (s : State) : OnlyUnit u s (s.refuse u) := (refl u s).respond _ _

/-- A fault stays in its unit (R280). -/
theorem raise (u : UnitId) (s : State) (f : FaultCode) : OnlyUnit u s (s.raise u f) := by
  cases u with
  | bw => exact (setBw s _).respond _ _
  | br => exact (setBr s _).respond _ _
  | cmp => exact (setCmp s _).respond _ _
  | dec => exact (setDec s _).respond _ _
  | frm => exact (refl .frm s).respond _ _

/-- A command that tests an operand or a flag takes one of two ways. -/
theorem ite {p : Prop} [Decidable p] {a b : State} (ha : OnlyUnit u s a) (hb : OnlyUnit u s b) :
    OnlyUnit u s (if p then a else b) := by
  split
  exacts [ha, hb]

theorem writeBits (s : State) (bits : Bits) : OnlyUnit .bw s (s.writeBits bits) := by
  rcases s.writeBits_cases bits with ⟨-, he⟩ | ⟨-, w, -, he⟩ | ⟨-, -, he⟩ <;> rw [he]
  exacts [refuse _ _, (setBw s w).respond _ _, raise _ _ _]

theorem readBits (s : State) (n : Nat) : OnlyUnit .br s (s.readBits n) := by
  rcases s.readBits_cases n with ⟨-, he⟩ | ⟨-, -, he⟩ | ⟨-, -, he⟩ <;> rw [he]
  exacts [refuse _ _, (setBr s _).respond _ _, raise _ _ _]

theorem compressorStep (s : State) (body : Except FaultCode Cmp) : OnlyUnit .cmp s (s.compressorStep body) := by
  rcases s.compressorStep_cases body with ⟨-, he⟩ | ⟨-, c, -, he⟩ | ⟨-, f, -, he⟩ <;> rw [he]
  exacts [refuse _ _, (setCmp s c).respond _ _, raise _ _ _]

theorem decompressorStep (s : State) (body : Except FaultCode Dec) (data : Dec → BitVec 64) :
    OnlyUnit .dec s (s.decompressorStep body data) := by
  rcases s.decompressorStep_cases body data with ⟨-, he⟩ | ⟨-, d, -, he⟩ | ⟨-, f, -, he⟩ <;> rw [he]
  exacts [refuse _ _, (setDec s d).respond _ _, raise _ _ _]

theorem afterCode (s : State) (result : Except FaultCode Dec) : OnlyUnit .dec s (s.afterCode result) := by
  cases result with
  | ok d => exact setDec s d
  | error f => exact raise .dec s f

end OnlyUnit

theorem execFrmCompress_onlyUnit (s : State) (sourceLen destCapacity : BitVec 32) :
    ∃ t, execFrmCompress sourceLen destCapacity s = .next t ∧ OnlyUnit .frm s t := by
  refine ⟨_, rfl, .ite (.refuse _ _) (.ite ((OnlyUnit.refl _ _).respond _ _) ?_)⟩
  cases s.frm.compressStream (s.frm.src.readValues (sourceLen.toNat / 8)) with
  | error f => exact .raise .frm s f
  | ok c => exact .ite ((OnlyUnit.setFrm s _).respond _ _) ((OnlyUnit.setFrm s _).respond _ _)

theorem execFrmDecompress_onlyUnit (s : State) (sourceLen destCapacity : BitVec 32) :
    ∃ t, execFrmDecompress sourceLen destCapacity s = .next t ∧ OnlyUnit .frm s t := by
  refine ⟨_, rfl, .ite (.raise _ _ _) (.ite ((OnlyUnit.refl _ _).respond _ _) ?_)⟩
  cases s.frm.decompressStream s.draws sourceLen.toNat with
  | error f => exact (OnlyUnit.setFrm s _).respond _ _
  | ok d => exact (OnlyUnit.setFrm s _).respond _ _

/-- Settles O15, by cases on the instruction: each is one operation of its unit. -/
theorem commandsTouchOnlyTheirUnit : Obligations.CommandsTouchOnlyTheirUnit := by
  intro s i
  have code : ∀ c : Code, ∃ t, exec c.toInstr s = .next t ∧ OnlyUnit .dec s t :=
    fun c => ⟨_, exec_toInstr c s, .afterCode s _⟩
  cases i with
  | bwInit cap => exact ⟨_, rfl, (OnlyUnit.setBw s _).respond _ _⟩
  | bwWriteBit bit => exact ⟨_, rfl, .writeBits s _⟩
  | bwWriteBits len value => exact ⟨_, rfl, .ite (.writeBits s _) (.refuse _ s)⟩
  | bwWriteBits64 len value => exact ⟨_, rfl, .ite (.writeBits s _) (.refuse _ s)⟩
  | bwAlign => exact ⟨_, rfl, .writeBits s _⟩
  | bwFlush => exact ⟨_, rfl, .writeBits s _⟩
  | brInit len => exact ⟨_, rfl, (OnlyUnit.setBr s _).respond _ _⟩
  | brReadBit => exact ⟨_, rfl, .readBits s _⟩
  | brReadBits len => exact ⟨_, rfl, .ite (.readBits s _) (.refuse _ s)⟩
  | brReadBits64 len => exact ⟨_, rfl, .ite (.readBits s _) (.refuse _ s)⟩
  | brAlign => exact ⟨_, rfl, .ite ((OnlyUnit.setBr s _).respond _ _) (.refuse _ s)⟩
  | cmpInit l cap => exact ⟨_, rfl, .ite ((OnlyUnit.setCmp s _).respond _ _) (.refuse _ s)⟩
  | cmpAddU64 value => exact ⟨_, rfl, .compressorStep s _⟩
  | cmpAddF64 value => exact ⟨_, rfl, .compressorStep s _⟩
  | cmpClose => exact ⟨_, rfl, .compressorStep s _⟩
  | cmpGetOutput => exact ⟨_, rfl, .ite ((OnlyUnit.refl _ s).respond _ _) (.refuse _ s)⟩
  | cmpGetSize => exact ⟨_, rfl, .ite ((OnlyUnit.refl _ s).respond _ _) (.refuse _ s)⟩
  | decInit l len budget => exact ⟨_, rfl, .ite ((OnlyUnit.setDec s _).respond _ _) (.refuse _ s)⟩
  | decNext => exact ⟨_, rfl, .decompressorStep s _ _⟩
  | decReadValue => exact ⟨_, rfl, .decompressorStep s _ _⟩
  | decGetValues => exact ⟨_, rfl, .decompressorStep s _ _⟩
  | frmCompress sourceLen destCapacity => exact execFrmCompress_onlyUnit s sourceLen destCapacity
  | frmDecompress sourceLen destCapacity => exact execFrmDecompress_onlyUnit s sourceLen destCapacity
  | raw64 value => exact code (.raw64 value)
  | rep slot => exact code (.rep slot)
  | idx slot lzc sig payload => exact code (.idx slot lzc sig payload)
  | same payload => exact code (.same payload)
  | new lzc payload => exact code (.new lzc payload)
  | term pad => exact code (.term pad)

/-! ### Decoder events and power cycles -/

/-- Settles O10: the fetch brings the code at the cursor, or after the end of the stream a `TERM` of no bits, which
changes nothing. -/
theorem stepRunsCodeAtCursor : Obligations.StepRunsCodeAtCursor := by
  intro s rest hin hr
  refine ⟨fun c more heos hd => step_of_code hin hr (Dec.fetch_ok heos hd), fun heos => ?_⟩
  rw [step_of_code hin hr (Dec.fetch_of_eos heos), exec_toInstr]
  rfl

/-- Settles O11: `State.reset` and `State.hardwareReset` both write `cfg` and `fault` of every unit. -/
theorem hardwareResetUnconfiguresUnits : Obligations.HardwareResetUnconfiguresUnits := by
  refine ⟨fun u hu => ?_, ⟨rfl, rfl, rfl, rfl⟩, fun u => ?_, fun _ => step_of_idle, fun s rest hin =>
    ⟨_, step_of_hardwareReset hin, rfl, rfl, rfl, rfl, rfl, fun u => ?_⟩⟩
  · cases u with
    | frm => exact absurd rfl hu
    | _ => rfl
  · cases u <;> rfl
  · cases u <;> rfl

end Sys2Proof.Machine

/-! Proofs of the statements of spec/20_memory.md: every step keeps the byte spaces, windows and index tables in
canonical form (R60, R21), and a fill by the host reaches its space and nothing else (R60, R72, R78, R80, R312). -/

namespace Sys2Proof.Machine

/-! ### The writer's space -/

theorem Bw.pushBit_out_wf {w w' : Bw} {b : Bool} (h : w.out.wf = true) (he : w.pushBit b = .ok w') :
    w'.out.wf = true := by
  unfold Bw.pushBit at he
  dsimp only at he
  split at he
  · split at he <;> cases he
    exact Memory.wf_write h _ _
  · cases he; exact h

/-- A writer stores whole bytes only, so its space stays canonical whatever its registers hold (R131). -/
theorem Bw.emit_out_wf {w w' : Bw} {bs : Bits} (h : w.out.wf = true) (he : w.emit bs = .ok w') :
    w'.out.wf = true := by
  induction bs generalizing w with
  | nil => cases he; exact h
  | cons b bs ih =>
    simp only [Bw.emit] at he
    cases hp : w.pushBit b with
    | error f => rw [hp] at he; cases he
    | ok w₁ => rw [hp] at he; exact ih (Bw.pushBit_out_wf h hp) he

/-! ### The compressor's arrays -/

/-- The space, the window and the table of a compressor are in canonical form. -/
structure Cmp.Canonical (c : Cmp) : Prop where
  out : c.bw.out.wf = true
  win : c.win.wf = true
  tab : c.tab.wf = true

theorem Cmp.init_canonical {c : Cmp} (h : c.bw.out.wf = true) (L cap : Nat) : (c.init L cap).Canonical := ⟨h, rfl, rfl⟩

theorem Cmp.unspecified_canonical (n k capBits : Nat) (cfg : Bool) (f : FaultCode) {m : Memory} (h : m.wf = true) :
    (Cmp.unspecified n k capBits cfg f m).Canonical :=
  ⟨h, freeWindow_wf _ _ _, freeTable_wf _ _ _⟩

theorem Cmp.faulted_canonical {c : Cmp} (h : c.Canonical) (n : Nat) (f : FaultCode) : (c.faulted n f).Canonical :=
  Cmp.unspecified_canonical _ _ _ _ _ (Memory.wf_scramble h.out _ _ _)

theorem Cmp.store_canonical {c : Cmp} (h : c.Canonical) (v : Value) : (c.store v).Canonical := by
  unfold Cmp.store
  split <;> exact ⟨h.out, Window.wf_write h.win _ _, Table.wf_write h.tab _ _⟩

theorem Cmp.compressValue_canonical {c c' : Cmp} {v : Value} (h : c.Canonical) (he : c.compressValue v = .ok c') :
    c'.Canonical := by
  obtain ⟨w, hemit, rfl⟩ := Cmp.compressValue_ok he
  refine Cmp.store_canonical ?_ v
  exact { h with out := Bw.emit_out_wf h.out hemit }

theorem Cmp.close_canonical {c c' : Cmp} (h : c.Canonical) (he : c.close = .ok c') : c'.Canonical := by
  obtain ⟨c₁, w, hvalue, hemit, rfl⟩ := Cmp.close_ok he
  have canonical₁ := Cmp.compressValue_canonical h hvalue
  exact { canonical₁ with out := Bw.emit_out_wf canonical₁.out hemit }

theorem Cmp.addAll_canonical {c c' : Cmp} {vs : List Value} (h : c.Canonical) (he : c.addAll vs = .ok c') :
    c'.Canonical := by
  induction vs generalizing c with
  | nil => cases he; exact h
  | cons v vs ih =>
    simp only [Cmp.addAll] at he
    cases hv : c.compressValue v with
    | error f => rw [hv] at he; cases he
    | ok c₁ => rw [hv] at he; exact ih (Cmp.compressValue_canonical h hv) he

/-! ### The decompressor's arrays -/

/-- The space and the window of a decompressor are in canonical form. -/
structure Dec.Canonical (d : Dec) : Prop where
  inp : d.br.inp.wf = true
  win : d.win.wf = true

theorem Dec.init_canonical {d : Dec} (h : d.br.inp.wf = true) (L len budget : Nat) :
    (d.init L len budget).Canonical := ⟨h, rfl⟩

theorem Dec.unspecified_canonical (n k : Nat) (cfg : Bool) (f : FaultCode) {m : Memory} (h : m.wf = true) :
    (Dec.unspecified n k cfg f m).Canonical :=
  ⟨h, freeWindow_wf _ _ _⟩

theorem Dec.faulted_canonical {d : Dec} (h : d.Canonical) (n : Nat) (f : FaultCode) : (d.faulted n f).Canonical :=
  Dec.unspecified_canonical _ _ _ _ h.inp

theorem Dec.push_canonical {d : Dec} (h : d.Canonical) (v : Value) : (d.push v).Canonical :=
  { h with win := Window.wf_write h.win _ _ }

theorem Dec.deliver_canonical {d : Dec} (h : d.Canonical) (n : Nat) (v : Value) : (d.deliver n v).Canonical := by
  unfold Dec.deliver
  split
  exacts [{ h with }, Dec.push_canonical h v]

/-- The effect of a code writes the window at most once and leaves the space (R212 to R217). -/
theorem Dec.takeCode_canonical {d d' : Dec} {n : Nat} {c : Code} (h : d.Canonical) (he : d.takeCode n c = .ok d') :
    d'.Canonical := by
  cases c with
  | raw64 v =>
    cases he
    unfold Dec.takeRaw
    dsimp only
    split <;> exact { h with win := Window.wf_write h.win _ _ }
  | rep slot =>
    simp only [Dec.takeCode, Dec.takeRep] at he
    split_ifs at he
    cases he
    exact Dec.push_canonical (d := { d with slz := unset }) { h with } _
  | idx slot lzc sig payload =>
    simp only [Dec.takeCode, Dec.takeIdx] at he
    split_ifs at he
    cases he
    exact Dec.deliver_canonical (d := { d with slz := unset, stz := 64 - sigWidth sig - bucket lzc }) { h with } _ _
  | same payload =>
    simp only [Dec.takeCode, Dec.takeSame] at he
    split_ifs at he
    cases he
    exact Dec.deliver_canonical h _ _
  | new lzc payload =>
    cases he
    exact Dec.deliver_canonical (d := { d with slz := bucket lzc }) { h with } _ _
  | term pad => cases he; exact h

theorem Dec.advance_canonical {d : Dec} (h : d.Canonical) (used : Nat) : (d.advance used).Canonical := { h with }

theorem Dec.nextValue_canonical {d d' : Dec} {n : Nat} (h : d.Canonical) (he : d.nextValue n = .ok d') :
    d'.Canonical := by
  cases hf : d.fetch with
  | error e => rw [Dec.nextValue_error hf] at he; cases he
  | ok p =>
    rw [Dec.nextValue_ok (c := p.1) (used := p.2) hf] at he
    exact Dec.takeCode_canonical (Dec.advance_canonical h _) he

theorem Dec.deliverValues_canonical {d d' : Dec} {n k : Nat} (h : d.Canonical)
    (he : Dec.deliverValues n k d = .ok d') : d'.Canonical := by
  induction k generalizing d with
  | zero => cases he; exact h
  | succ k ih =>
    simp only [Dec.deliverValues] at he
    cases hn : d.nextValue n with
    | error e => rw [hn] at he; cases he
    | ok d₁ =>
      simp only [hn] at he
      have canonical₁ := Dec.nextValue_canonical h hn
      split at he
      · cases he; exact canonical₁
      · exact ih (d := { d₁ with outq := d₁.outq ++ [d₁.sv], emitted := d₁.emitted + 1 }) { canonical₁ with } he

/-! ### The framing layer's arrays -/

/-- The spaces of the framing layer and the arrays of its contained units are in canonical form. -/
structure Framer.Canonical (f : Framer) : Prop where
  cmp : f.cmp.Canonical
  dec : f.dec.Canonical
  src : f.src.wf = true
  dst : f.dst.wf = true

theorem Framer.compressStream_canonical {f : Framer} {vs : List Value} {c : Cmp} (h : f.Canonical)
    (he : f.compressStream vs = .ok c) : c.Canonical := by
  unfold Framer.compressStream at he
  cases hadd : (f.cmp.init framingL (internalCap vs.length)).addAll vs with
  | error e => rw [hadd] at he; cases he
  | ok c₁ =>
    rw [hadd] at he
    exact Cmp.close_canonical (Cmp.addAll_canonical (Cmp.init_canonical h.cmp.out _ _) hadd) he

/-- The payload that `FRM_DECOMPRESS` moves to `frm.dec.IN` is a canonical space again (R255). -/
theorem Framer.loadedDec_canonical {f : Framer} (h : f.Canonical) (sourceLen : Nat) :
    (f.loadedDec sourceLen).Canonical :=
  Dec.init_canonical (Memory.wf_slice h.src _ _) _ _ _

/-! ### One unit of the machine replaced -/

namespace State.Canonical

variable {s : State}

theorem cmp (h : s.Canonical) : s.cmp.Canonical := ⟨h.cmpOut, h.cmpWin, h.cmpTab⟩

theorem dec (h : s.Canonical) : s.dec.Canonical := ⟨h.decIn, h.decWin⟩

theorem frm (h : s.Canonical) : s.frm.Canonical :=
  ⟨⟨h.frmOut, h.frmCmpWin, h.frmCmpTab⟩, ⟨h.frmIn, h.frmDecWin⟩, h.src, h.dst⟩

/-- The canonical form of the state is that of each unit. -/
theorem of_units (bw : s.bw.out.wf = true) (br : s.br.inp.wf = true) (cmp : s.cmp.Canonical) (dec : s.dec.Canonical)
    (frm : s.frm.Canonical) : s.Canonical where
  out := bw
  inp := br
  cmpOut := cmp.out
  cmpWin := cmp.win
  cmpTab := cmp.tab
  decIn := dec.inp
  decWin := dec.win
  src := frm.src
  dst := frm.dst
  frmOut := frm.cmp.out
  frmCmpWin := frm.cmp.win
  frmCmpTab := frm.cmp.tab
  frmIn := frm.dec.inp
  frmDecWin := frm.dec.win

theorem setBw (h : s.Canonical) {w : Bw} (hw : w.out.wf = true) : ({ s with bw := w } : State).Canonical :=
  { h with out := hw }

theorem setBr (h : s.Canonical) {r : Br} (hr : r.inp.wf = true) : ({ s with br := r } : State).Canonical :=
  { h with inp := hr }

theorem setCmp (h : s.Canonical) {c : Cmp} (hc : c.Canonical) : ({ s with cmp := c } : State).Canonical :=
  .of_units h.out h.inp hc h.dec h.frm

theorem setDec (h : s.Canonical) {d : Dec} (hd : d.Canonical) : ({ s with dec := d } : State).Canonical :=
  .of_units h.out h.inp h.cmp hd h.frm

theorem setFrm (h : s.Canonical) {f : Framer} (hf : f.Canonical) : ({ s with frm := f } : State).Canonical :=
  .of_units h.out h.inp h.cmp h.dec hf

theorem respond (h : s.Canonical) (u : UnitId) (st : Status) (x : BitVec 64) : (s.respond u st x).Canonical :=
  { h with }

theorem refuse (h : s.Canonical) (u : UnitId) : (s.refuse u).Canonical := h.respond _ _ _

theorem tick (h : s.Canonical) : s.tick.Canonical := { h with }

/-- A command that tests an operand or a flag takes one of two ways. -/
theorem ite {p : Prop} [Decidable p] {a b : State} (ha : a.Canonical) (hb : b.Canonical) :
    (if p then a else b).Canonical := by
  split
  exacts [ha, hb]

/-- The free bytes and entries of a faulted unit are in canonical form (R280). -/
theorem raise (h : s.Canonical) (u : UnitId) (f : FaultCode) : (s.raise u f).Canonical := by
  cases u with
  | bw => exact (h.setBw (Memory.wf_scramble h.out _ _ _)).respond _ _ _
  | br => exact { h with }
  | cmp => exact (h.setCmp (Cmp.faulted_canonical h.cmp _ _)).respond _ _ _
  | dec => exact (h.setDec (Dec.faulted_canonical h.dec _ _)).respond _ _ _
  | frm => exact h.respond _ _ _

theorem fillSpace (h : s.Canonical) (space : Space) (base : Nat) (bytes : List Byte) :
    (s.fillSpace space base bytes).Canonical := by
  have stored : ∀ {m : Memory}, m.wf = true → (m.writeBytes base bytes).wf = true :=
    fun hm => Memory.wf_writeBytes hm _ _
  cases space with
  | out => exact h.setBw (stored h.out)
  | inp => exact h.setBr (stored h.inp)
  | cmpOut => exact h.setCmp { h.cmp with out := stored h.cmpOut }
  | decIn => exact h.setDec { h.dec with inp := stored h.decIn }
  | src => exact h.setFrm { h.frm with src := stored h.src }
  | dst => exact h.setFrm { h.frm with dst := stored h.dst }

/-- Power-on leaves every array free, in canonical form (R301). -/
theorem hardwareReset (s : State) : s.hardwareReset.Canonical :=
  .of_units (unspecifiedSpace_wf _ _) (unspecifiedSpace_wf _ _)
    (Cmp.unspecified_canonical _ _ _ _ _ (unspecifiedSpace_wf _ _))
    (Dec.unspecified_canonical _ _ _ _ (unspecifiedSpace_wf _ _))
    ⟨Cmp.unspecified_canonical _ _ _ _ _ (unspecifiedSpace_wf _ _),
      Dec.unspecified_canonical _ _ _ _ (unspecifiedSpace_wf _ _), unspecifiedSpace_wf _ _, unspecifiedSpace_wf _ _⟩

/-! ### The commands -/

theorem writeBits (h : s.Canonical) (bits : Bits) : (s.writeBits bits).Canonical := by
  rcases s.writeBits_cases bits with ⟨-, he⟩ | ⟨-, w, hemit, he⟩ | ⟨-, -, he⟩ <;> rw [he]
  exacts [h.refuse _, (h.setBw (Bw.emit_out_wf h.out hemit)).respond _ _ _, h.raise _ _]

theorem readBits (h : s.Canonical) (n : Nat) : (s.readBits n).Canonical := by
  rcases s.readBits_cases n with ⟨-, he⟩ | ⟨-, -, he⟩ | ⟨-, -, he⟩ <;> rw [he]
  exacts [h.refuse _, { h with }, h.raise _ _]

/-- A command on the compressor's stream keeps the canonical form if its body does. -/
theorem compressorStep (h : s.Canonical) {body : Except FaultCode Cmp} (hbody : ∀ c, body = .ok c → c.Canonical) :
    (s.compressorStep body).Canonical := by
  rcases s.compressorStep_cases body with ⟨-, he⟩ | ⟨-, c, hc, he⟩ | ⟨-, f, -, he⟩ <;> rw [he]
  exacts [h.refuse _, (h.setCmp (hbody c hc)).respond _ _ _, h.raise _ _]

/-- A decoding command keeps the canonical form if its body does. -/
theorem decompressorStep (h : s.Canonical) {body : Except FaultCode Dec} {data : Dec → BitVec 64}
    (hbody : ∀ d, body = .ok d → d.Canonical) : (s.decompressorStep body data).Canonical := by
  rcases s.decompressorStep_cases body data with ⟨-, he⟩ | ⟨-, d, hd, he⟩ | ⟨-, f, -, he⟩ <;> rw [he]
  exacts [h.refuse _, (h.setDec (hbody d hd)).respond _ _ _, h.raise _ _]

theorem afterCode (h : s.Canonical) (n : Nat) (c : Code) : (s.afterCode (s.dec.takeCode n c)).Canonical := by
  cases he : s.dec.takeCode n c with
  | error f => exact h.raise .dec f
  | ok d => exact h.setDec (Dec.takeCode_canonical h.dec he)

end State.Canonical

theorem execFrmCompress_canonical {s : State} (h : s.Canonical) (sourceLen destCapacity : BitVec 32) :
    ∃ t, execFrmCompress sourceLen destCapacity s = .next t ∧ t.Canonical := by
  refine ⟨_, rfl, .ite (h.refuse _) (.ite (h.respond _ _ _) ?_)⟩
  cases hc : s.frm.compressStream (s.frm.src.readValues (sourceLen.toNat / 8)) with
  | error f => exact h.raise _ _
  | ok c =>
    have framed : ∀ {m : Memory}, m.wf = true → Framer.Canonical { s.frm with cmp := c, dst := m } :=
      fun hm => ⟨Framer.compressStream_canonical h.frm hc, h.frm.dec, h.src, hm⟩
    exact .ite ((h.setFrm (framed (Memory.wf_scramble h.dst _ _ _))).respond _ _ _)
      ((h.setFrm (framed (Memory.wf_writeBytes h.dst _ _))).respond _ _ _)

theorem execFrmDecompress_canonical {s : State} (h : s.Canonical) (sourceLen destCapacity : BitVec 32) :
    ∃ t, execFrmDecompress sourceLen destCapacity s = .next t ∧ t.Canonical := by
  refine ⟨_, rfl, .ite (h.raise _ _) (.ite (h.respond _ _ _) ?_)⟩
  have loaded := Framer.loadedDec_canonical h.frm sourceLen.toNat
  have decoded : ∀ {d : Dec} {m : Memory}, d.Canonical → m.wf = true →
      Framer.Canonical { s.frm with dec := d, dst := m } := fun hd hm => ⟨h.frm.cmp, hd, h.src, hm⟩
  cases hd : s.frm.decompressStream s.draws sourceLen.toNat with
  | error f =>
    exact (h.setFrm (decoded (Dec.faulted_canonical loaded _ _) (Memory.wf_scramble h.dst _ _ _))).raise .frm f
  | ok d =>
    exact (h.setFrm (decoded (Dec.deliverValues_canonical loaded hd) (Memory.wf_writeBytes h.dst _ _))).respond _ _ _

/-- Every command keeps the canonical form. -/
theorem exec_canonical {s : State} (h : s.Canonical) {i : Instr} (hi : i.code? = none) :
    ∃ t, exec i s = .next t ∧ t.Canonical := by
  cases i with
  | bwInit cap => exact ⟨_, rfl, { h with }⟩
  | bwWriteBit | bwAlign | bwFlush => exact ⟨_, rfl, h.writeBits _⟩
  | bwWriteBits | bwWriteBits64 => exact ⟨_, rfl, .ite (h.writeBits _) (h.refuse _)⟩
  | brInit len => exact ⟨_, rfl, { h with }⟩
  | brReadBit => exact ⟨_, rfl, h.readBits _⟩
  | brReadBits | brReadBits64 => exact ⟨_, rfl, .ite (h.readBits _) (h.refuse _)⟩
  | brAlign => exact ⟨_, rfl, .ite { h with } (h.refuse _)⟩
  | cmpInit l cap => exact ⟨_, rfl, .ite ((h.setCmp (Cmp.init_canonical h.cmpOut _ _)).respond _ _ _) (h.refuse _)⟩
  | cmpAddU64 | cmpAddF64 => exact ⟨_, rfl, h.compressorStep fun _ => Cmp.compressValue_canonical h.cmp⟩
  | cmpClose => exact ⟨_, rfl, h.compressorStep fun _ => Cmp.close_canonical h.cmp⟩
  | cmpGetOutput | cmpGetSize => exact ⟨_, rfl, .ite (h.respond _ _ _) (h.refuse _)⟩
  | decInit l len budget =>
    exact ⟨_, rfl, .ite ((h.setDec (Dec.init_canonical h.decIn _ _ _)).respond _ _ _) (h.refuse _)⟩
  | decNext | decReadValue => exact ⟨_, rfl, h.decompressorStep fun _ => Dec.nextValue_canonical h.dec⟩
  | decGetValues => exact ⟨_, rfl, h.decompressorStep fun _ => Dec.deliverValues_canonical h.dec⟩
  | frmCompress sourceLen destCapacity => exact execFrmCompress_canonical h sourceLen destCapacity
  | frmDecompress sourceLen destCapacity => exact execFrmDecompress_canonical h sourceLen destCapacity
  | raw64 | rep | idx | same | new | term => cases hi

/-- Settles O17, by cases on the host's event: every array that a step changes is written, sliced or made free by an
operation that keeps the canonical form (`Memory.wf_write`, `Memory.wf_slice`, `Memory.wf_scramble`, `freeWindow_wf`). -/
theorem stepKeepsCanonicalForm : Obligations.StepKeepsCanonicalForm := by
  intro s t h hstep
  have taken : ∀ rest, ({ s with inbox := rest } : State).Canonical := fun _ => { h with }
  rcases step_cases hstep with ⟨-, rfl⟩ | ⟨w, rest, i, u, -, hd, hu, rfl⟩ | ⟨w, rest, op, -, -, rfl⟩ |
    ⟨space, base, bytes, rest, -, -, rfl⟩ | ⟨rest, -, rfl⟩ | ⟨rest, -, -, rfl⟩ | ⟨rest, f, -, -, -, rfl⟩ |
    ⟨rest, c, used, u, -, -, -, hu, rfl⟩
  · exact h
  · obtain ⟨u', hu', canonical⟩ := exec_canonical (taken rest) (code?_of_decodeCommand hd)
    rw [hu'] at hu
    exact Host.Outcome.next.inj hu ▸ canonical.tick
  · exact { h with }
  · exact ((taken rest).fillSpace space base.toNat bytes).tick
  · exact (State.Canonical.hardwareReset _).tick
  · exact (taken rest).tick
  · exact ((taken rest).raise _ _).tick
  · have moved := (taken rest).setDec (Dec.advance_canonical h.dec used)
    rw [exec_toInstr] at hu
    exact Host.Outcome.next.inj hu ▸ (moved.afterCode _ c).tick

/-! ### The host's fills -/

/-- Settles O31, by cases on the space: the step is `State.fillSpace`, of which a reader receives the bytes and any
other unit stores them. -/
theorem hostFillReachesItsSpace : Obligations.HostFillReachesItsSpace := by
  intro s rest space base bytes hin
  refine ⟨step_of_fill_fault hin, fun hb => ?_⟩
  have filled := step_of_fill hin hb
  refine ⟨?_, ?_, ?_, ?_, ?_, ?_⟩ <;> rintro rfl
  · exact ⟨_, filled, s.br.receives_fill s.draws _ _⟩
  · exact ⟨_, filled, s.dec.br.receives_fill s.draws _ _⟩
  · exact ⟨_, filled, s.frm.src.stores_writeBytes _ _⟩
  · exact ⟨_, filled, s.frm.dst.stores_writeBytes _ _⟩
  · exact ⟨_, filled, s.bw.out.stores_writeBytes _ _⟩
  · exact ⟨_, filled, s.cmp.bw.out.stores_writeBytes _ _⟩

end Sys2Proof.Machine

/-! Proofs of the statements of spec/30_encoding.md: the command words and the reserved ops (R108 to R110), the formats
of the stream codes (R91 to R97), the malformed codes (R103) and the buckets (R96). -/

namespace Sys2Proof

/-! ### Command words -/

/-- The ops of the command table (R109). -/
def tableOps : List Nat :=
  [0x10, 0x11, 0x12, 0x13, 0x14, 0x15, 0x20, 0x21, 0x22, 0x23, 0x24, 0x30, 0x31, 0x32, 0x33, 0x34, 0x35, 0x40, 0x41,
    0x42, 0x43, 0x50, 0x51]

/-- An op of the table decodes, any other is reserved (R109, R110). -/
theorem decodeCommand_cases (w : CommandWord) :
    ((opField w).toNat ∈ tableOps ∧ ∃ i, decodeCommand w = .ok i) ∨
    ((opField w).toNat ∉ tableOps ∧ decodeCommand w = .error (.reservedOp (opField w))) := by
  unfold decodeCommand
  dsimp only
  split
  case h_24 => exact .inr ⟨by simp_all [tableOps], rfl⟩
  all_goals exact .inl ⟨by simp_all [tableOps], _, rfl⟩

/-- The word built for a command decodes to it (R108, R109). -/
theorem decodeCommand_encodeCommand {i : Instr} {w : CommandWord} (h : encodeCommand i = some w) :
    decodeCommand w = .ok i := by
  cases i with
  | raw64 | rep | idx | same | new | term => cases h
  | _ =>
    obtain rfl := Option.some.inj h
    simp [decodeCommand]

/-! ### Instructions that are codes -/

theorem toInstr_of_code? {i : Instr} {c : Code} (h : i.code? = some c) : c.toInstr = i := by
  cases i with
  | raw64 | rep | idx | same | new | term => obtain rfl := Option.some.inj h; rfl
  | _ => cases h

theorem encode_of_code? {i : Instr} {c : Code} (h : i.code? = some c) (ctx : CodeCtx) :
    encode ctx i = encodeCode ctx c := by
  simp [encode, h]

theorem wf_of_code? {i : Instr} {c : Code} (h : i.code? = some c) (ctx : CodeCtx) : i.wf ctx = c.wf ctx := by
  simp [Instr.wf, h]

/-- Every instruction is a command or a code (R90). -/
theorem command_or_code (i : Instr) : (encodeCommand i).isSome ∨ i.code?.isSome := by
  cases i with
  | raw64 | rep | idx | same | new | term => exact .inr rfl
  | _ => exact .inl rfl

/-! ### Fields side by side -/

theorem natBits_mul_add {v n : Nat} (hv : v < 2 ^ n) (u m : Nat) :
    natBits (u * 2 ^ n + v) (m + n) = natBits u m ++ natBits v n := by
  have hu : (u * 2 ^ n + v) / 2 ^ n = u := by
    rw [Nat.add_comm, Nat.add_mul_div_right _ _ (by positivity), Nat.div_eq_of_lt hv, Nat.zero_add]
  rw [natBits_append, hu, natBits_congr (v := u * 2 ^ n + v) (w := v) (by simp)]

/-- Reading back a field that fits its width. -/
theorem takeNat_field {v n : Nat} (hv : v < 2 ^ n) (more : Bits) : takeNat n (natBits v n ++ more) = some (v, more) := by
  rw [takeNat_natBits, Nat.mod_eq_of_lt hv]

/-- The packed field of an `IDX` code below its flag: the slot, the bucket index in bits 8 to 6, the count in bits 5 to
0 (R94). -/
def idxField (slot lzc sig : Nat) : Nat := slot * 512 + lzc * 64 + sig

/-- The bits of a slot stand above the 9 bits of bucket index and count. -/
theorem two_pow_add_nine (L : Nat) : 2 ^ (L + 9) = windowSize L * 512 := by rw [pow_add]; rfl

theorem idxField_lt {L slot : Nat} (hslot : slot < windowSize L) (lzc : BitVec 3) (sig : BitVec 6) :
    idxField slot lzc.toNat sig.toNat < 2 ^ (L + 9) := by
  have hpow := two_pow_add_nine L
  unfold idxField
  omega

theorem idxField_div (slot : Nat) (lzc : BitVec 3) (sig : BitVec 6) : idxField slot lzc.toNat sig.toNat / 512 = slot := by
  unfold idxField; omega

theorem ofNat_idxField_div (slot : Nat) (lzc : BitVec 3) (sig : BitVec 6) :
    BitVec.ofNat 3 (idxField slot lzc.toNat sig.toNat / 64) = lzc := by
  apply BitVec.eq_of_toNat_eq
  rw [BitVec.toNat_ofNat]
  unfold idxField; omega

theorem ofNat_idxField (slot : Nat) (lzc : BitVec 3) (sig : BitVec 6) :
    BitVec.ofNat 6 (idxField slot lzc.toNat sig.toNat) = sig := by
  apply BitVec.eq_of_toNat_eq
  rw [BitVec.toNat_ofNat]
  unfold idxField; omega

/-- Any number is the packed field of its parts. -/
theorem idxField_parts (packed : Nat) :
    idxField (packed / 512) (BitVec.ofNat 3 (packed / 64)).toNat (BitVec.ofNat 6 packed).toNat = packed := by
  simp only [idxField, BitVec.toNat_ofNat]; omega

theorem natBits_idxField (L slot : Nat) {lzc sig : Nat} (hl : lzc < 8) (hs : sig < 64) :
    natBits (idxField slot lzc sig) (L + 9) = natBits slot L ++ natBits lzc 3 ++ natBits sig 6 := by
  have hfield : idxField slot lzc sig = (slot * 2 ^ 3 + lzc) * 2 ^ 6 + sig := by unfold idxField; omega
  rw [hfield, natBits_mul_add (n := 6) (m := L + 3) hs, natBits_mul_add (n := 3) hl]

/-- The bits of the whole packed field: the flag `01` and the field below it (R94). -/
theorem natBits_idxCode {L slot lzc sig : Nat} (hslot : slot < windowSize L) (hl : lzc < 8) (hs : sig < 64) :
    natBits (512 * (windowSize L + slot) + 64 * lzc + sig) (L + 11) =
      false :: true :: natBits (idxField slot lzc sig) (L + 9) := by
  have hpow := two_pow_add_nine L
  have hlt : idxField slot lzc sig < 2 ^ (L + 9) := by unfold idxField; omega
  have hsum : 512 * (windowSize L + slot) + 64 * lzc + sig = 1 * 2 ^ (L + 9) + idxField slot lzc sig := by
    unfold idxField; omega
  rw [hsum, show L + 11 = 2 + (L + 9) by omega, natBits_mul_add hlt]
  rfl

/-- Settles O7: the number is the flag `1`, the slot, the bucket index and the count, each at the width of its field. -/
theorem idxFieldLayout : Obligations.IdxFieldLayout := by
  intro L slot lzc sig hslot hl hs
  simp only [Machine.fieldBits_eq_natBits]
  rw [natBits_idxCode hslot hl hs, natBits_idxField L slot hl hs]
  rfl

/-! ### The encoder's bits, flag first -/

theorem encodeCode_rep {ctx : CodeCtx} {slot : Slot} (h : slot.toNat < windowSize ctx.L) :
    encodeCode ctx (.rep slot) = false :: false :: natBits slot.toNat ctx.L := by
  have := natBits_mul_add (n := ctx.L) h 0 2
  rwa [Nat.zero_mul, Nat.zero_add, Nat.add_comm 2] at this

theorem encodeCode_idx {ctx : CodeCtx} {slot : Slot} (h : slot.toNat < windowSize ctx.L) (lzc : BitVec 3)
    (sig : BitVec 6) (payload : Value) :
    encodeCode ctx (.idx slot lzc sig payload) =
      false :: true :: (natBits (idxField slot.toNat lzc.toNat sig.toNat) (ctx.L + 9) ++
        natBits payload.toNat (sigWidth sig)) := by
  rw [encodeCode, natBits_idxCode h lzc.isLt sig.isLt]
  rfl

theorem encodeCode_same (ctx : CodeCtx) (payload : Value) :
    encodeCode ctx (.same payload) = true :: false :: natBits payload.toNat (64 - ctx.slz) := rfl

theorem encodeCode_new (ctx : CodeCtx) (lzc : BitVec 3) (payload : Value) :
    encodeCode ctx (.new lzc payload) =
      true :: true :: (natBits lzc.toNat 3 ++ natBits payload.toNat (64 - bucket lzc)) := by
  have := natBits_mul_add (n := 3) lzc.isLt 3 2
  rw [encodeCode, show 24 + lzc.toNat = 3 * 2 ^ 3 + lzc.toNat by omega, this]
  rfl

/-! ### The decoder by place and flag (R99) -/

section
variable {ctx : CodeCtx} (bs : Bits)

theorem decodeCode_new (h : ctx.place = .later) : decodeCode ctx (true :: true :: bs) = decodeNew bs := by
  simp [decodeCode, h]

theorem decodeCode_same (h : ctx.place = .later) : decodeCode ctx (true :: false :: bs) = decodeSame ctx bs := by
  simp [decodeCode, h]

theorem decodeCode_idx (h : ctx.place = .later) : decodeCode ctx (false :: true :: bs) = decodeIdx ctx bs := by
  simp [decodeCode, h]

theorem decodeCode_rep (h : ctx.place = .later) : decodeCode ctx (false :: false :: bs) = decodeRep ctx bs := by
  simp [decodeCode, h]

theorem decodeCode_term (h : ctx.place = .afterSentinel) : decodeCode ctx bs = decodeTerm ctx bs := by
  simp [decodeCode, h]

theorem decodeCode_raw64 (h : ctx.place = .first) (v : Value) :
    decodeCode ctx (natBits v.toNat 64 ++ bs) = .ok (.raw64 v, bs) := by
  simp [decodeCode, h, takeNat_field v.isLt]

theorem decodeCode_raw64_cut (h : ctx.place = .first) {bs : Bits} (hbs : bs.length < 64) :
    decodeCode ctx bs = .error .exhausted := by
  simp [decodeCode, h, takeNat_eq_none.mpr hbs]

theorem decodeCode_flag_cut (h : ctx.place = .later) {bs : Bits} (hbs : bs.length < 2) :
    decodeCode ctx bs = .error .exhausted := by
  match bs with
  | [] | [_] => simp [decodeCode, h]

end

/-! ### The rest of a code after its flag: whole, cut short or malformed (R103, R278) -/

section
variable {ctx : CodeCtx} {bs : Bits}

theorem decodeNew_bucket_cut (h : bs.length < 3) : decodeNew bs = .error .exhausted := by
  simp [decodeNew, takeNat_eq_none.mpr h]

theorem decodeNew_payload_cut {lzc : BitVec 3} (h : bs.length < 64 - bucket lzc) :
    decodeNew (natBits lzc.toNat 3 ++ bs) = .error .exhausted := by
  simp [decodeNew, takeNat_field (n := 3) lzc.isLt, takeNat_eq_none.mpr h]

theorem decodeNew_fields {lzc : BitVec 3} {payload : Value} (h : payload.toNat < 2 ^ (64 - bucket lzc)) (more : Bits) :
    decodeNew (natBits lzc.toNat 3 ++ (natBits payload.toNat (64 - bucket lzc) ++ more)) =
      .ok (.new lzc payload, more) := by
  simp [decodeNew, takeNat_field (n := 3) lzc.isLt, takeNat_field h]

theorem decodeSame_unset (h : ctx.slz = unset) : decodeSame ctx bs = .error .sameUnset := by
  simp [decodeSame, h]

theorem decodeSame_payload_cut (hz : ctx.slz ≠ unset) (h : bs.length < 64 - ctx.slz) :
    decodeSame ctx bs = .error .exhausted := by
  simp [decodeSame, hz, takeNat_eq_none.mpr h]

theorem decodeSame_field (hz : ctx.slz ≠ unset) {payload : Value} (h : payload.toNat < 2 ^ (64 - ctx.slz))
    (more : Bits) : decodeSame ctx (natBits payload.toNat (64 - ctx.slz) ++ more) = .ok (.same payload, more) := by
  simp [decodeSame, hz, takeNat_field h]

theorem decodeRep_slot_cut (h : bs.length < ctx.L) : decodeRep ctx bs = .error .exhausted := by
  simp [decodeRep, takeNat_eq_none.mpr h]

theorem decodeRep_slot {slot : Nat} (h : slot < windowSize ctx.L) :
    decodeRep ctx (natBits slot ctx.L ++ bs) =
      if ctx.cnt ≤ slot then .error .slotEmpty else .ok (.rep (BitVec.ofNat 21 slot), bs) := by
  simp [decodeRep, takeNat_field (n := ctx.L) h]

theorem decodeIdx_field_cut (h : bs.length < ctx.L + 9) : decodeIdx ctx bs = .error .exhausted := by
  simp [decodeIdx, takeNat_eq_none.mpr h]

section
variable {slot : Nat} (hslot : slot < windowSize ctx.L) {lzc : BitVec 3} {sig : BitVec 6}
include hslot

/-- The packed field is tested before the payload is looked at, the width before the slot (R278). -/
theorem decodeIdx_malformed (h : 64 < sigWidth sig + bucket lzc ∨ ctx.cnt ≤ slot) :
    decodeIdx ctx (natBits (idxField slot lzc.toNat sig.toNat) (ctx.L + 9) ++ bs) =
      .error (if 64 < sigWidth sig + bucket lzc then .sigTooWide else .slotEmpty) := by
  simp only [decodeIdx, takeNat_field (idxField_lt hslot lzc sig), idxField_div, ofNat_idxField_div, ofNat_idxField]
  by_cases hw : 64 < sigWidth sig + bucket lzc
  · rw [if_pos hw, if_pos hw]
  · rw [if_neg hw, if_neg hw, if_pos (h.resolve_left hw)]

theorem decodeIdx_payload_cut (hw : sigWidth sig + bucket lzc ≤ 64) (hc : slot < ctx.cnt) (h : bs.length < sigWidth sig) :
    decodeIdx ctx (natBits (idxField slot lzc.toNat sig.toNat) (ctx.L + 9) ++ bs) = .error .exhausted := by
  simp [decodeIdx, takeNat_field (idxField_lt hslot lzc sig), idxField_div, ofNat_idxField_div, ofNat_idxField,
    hw.not_gt, hc.not_ge, takeNat_eq_none.mpr h]

theorem decodeIdx_fields (hw : sigWidth sig + bucket lzc ≤ 64) (hc : slot < ctx.cnt) {payload : Value}
    (h : payload.toNat < 2 ^ sigWidth sig) (more : Bits) :
    decodeIdx ctx (natBits (idxField slot lzc.toNat sig.toNat) (ctx.L + 9) ++
        (natBits payload.toNat (sigWidth sig) ++ more)) =
      .ok (.idx (BitVec.ofNat 21 slot) lzc sig payload, more) := by
  simp [decodeIdx, takeNat_field (idxField_lt hslot lzc sig), idxField_div, ofNat_idxField_div, ofNat_idxField,
    hw.not_gt, hc.not_ge, takeNat_field h]

end

theorem decodeTerm_padding {pad : BitVec 3} (h : pad.toNat = padBits (ctx.pos + 1)) (more : Bits) :
    decodeTerm ctx (natBits 0 (1 + pad.toNat) ++ more) = .ok (.term pad, more) := by
  unfold decodeTerm
  rw [← h, takeNat_field (by positivity)]
  simp

end

/-! ### Codes that fit their place (R91, R103) -/

section
variable {ctx : CodeCtx}

theorem Code.wf_raw64 {v : Value} : (Code.raw64 v).wf ctx = true ↔ ctx.place = .first := by simp [Code.wf]

theorem Code.wf_rep {slot : Slot} :
    (Code.rep slot).wf ctx = true ↔ ctx.place = .later ∧ slot.toNat < windowSize ctx.L ∧ slot.toNat < ctx.cnt := by
  simp [Code.wf, and_assoc]

theorem Code.wf_idx {slot : Slot} {lzc : BitVec 3} {sig : BitVec 6} {payload : Value} :
    (Code.idx slot lzc sig payload).wf ctx = true ↔
      ctx.place = .later ∧ slot.toNat < windowSize ctx.L ∧ slot.toNat < ctx.cnt ∧
        sigWidth sig + bucket lzc ≤ 64 ∧ payload.toNat < 2 ^ sigWidth sig := by
  simp [Code.wf, and_assoc]

theorem Code.wf_same {payload : Value} :
    (Code.same payload).wf ctx = true ↔
      ctx.place = .later ∧ ctx.slz ≠ unset ∧ payload.toNat < 2 ^ (64 - ctx.slz) := by
  simp [Code.wf, and_assoc]

theorem Code.wf_new {lzc : BitVec 3} {payload : Value} :
    (Code.new lzc payload).wf ctx = true ↔ ctx.place = .later ∧ payload.toNat < 2 ^ (64 - bucket lzc) := by
  simp [Code.wf]

theorem Code.wf_term {pad : BitVec 3} :
    (Code.term pad).wf ctx = true ↔ ctx.place = .afterSentinel ∧ pad.toNat = padBits (ctx.pos + 1) := by
  simp [Code.wf]

end

/-! ### The round trip from a code -/

/-- A well-formed code's bits decode to it, whatever follows (R91 to R97). -/
theorem decodeCode_encodeCode {ctx : CodeCtx} {c : Code} (h : c.wf ctx = true) (more : Bits) :
    decodeCode ctx (encodeCode ctx c ++ more) = .ok (c, more) := by
  cases c with
  | raw64 v => exact decodeCode_raw64 more (Code.wf_raw64.mp h) v
  | rep slot =>
    obtain ⟨hplace, hslot, hcnt⟩ := Code.wf_rep.mp h
    rw [encodeCode_rep hslot, List.cons_append, List.cons_append, decodeCode_rep _ hplace, decodeRep_slot hslot,
      if_neg hcnt.not_ge, BitVec.ofNat_toNat, BitVec.setWidth_eq]
  | idx slot lzc sig payload =>
    obtain ⟨hplace, hslot, hcnt, hwidth, hpayload⟩ := Code.wf_idx.mp h
    rw [encodeCode_idx hslot, List.cons_append, List.cons_append, decodeCode_idx _ hplace, List.append_assoc,
      decodeIdx_fields hslot hwidth hcnt hpayload, BitVec.ofNat_toNat, BitVec.setWidth_eq]
  | same payload =>
    obtain ⟨hplace, hslz, hpayload⟩ := Code.wf_same.mp h
    rw [encodeCode_same, List.cons_append, List.cons_append, decodeCode_same _ hplace, decodeSame_field hslz hpayload]
  | new lzc payload =>
    obtain ⟨hplace, hpayload⟩ := Code.wf_new.mp h
    rw [encodeCode_new, List.cons_append, List.cons_append, decodeCode_new _ hplace, List.append_assoc,
      decodeNew_fields hpayload]
  | term pad =>
    obtain ⟨hplace, hpad⟩ := Code.wf_term.mp h
    rw [decodeCode_term _ hplace, encodeCode, decodeTerm_padding hpad]

/-- Settles O1: commands by the fields of their word, codes by `decodeCode_encodeCode`. -/
theorem instructionEncodingRoundTrip : Obligations.InstructionEncodingRoundTrip := by
  intro ctx i more hwf
  refine ⟨fun w => decodeCommand_encodeCommand, fun c hc => ⟨?_, toInstr_of_code? hc⟩, command_or_code i⟩
  rw [encode_of_code? hc]
  exact decodeCode_encodeCode (wf_of_code? hc ctx ▸ hwf) more

/-! ### The round trip from the bits -/

/-- The code is well formed and its bits, followed by `more`, are `bs`. -/
def Reencodes (ctx : CodeCtx) (c : Code) (more bs : Bits) : Prop :=
  c.wf ctx = true ∧ encodeCode ctx c ++ more = bs

theorem toNat_ofNat_value {v n : Nat} (hv : v < 2 ^ n) (hn : n ≤ 64) : (BitVec.ofNat 64 v).toNat = v := by
  rw [BitVec.toNat_ofNat]
  exact Nat.mod_eq_of_lt (hv.trans_le (Nat.pow_le_pow_right two_pos hn))

/-- Within the hardware's window sizes a slot number fits the 21 bits of `Slot` (R13). -/
theorem toNat_ofNat_slot {slot L : Nat} (h : slot < windowSize L) (hL : L ≤ maxL) :
    (BitVec.ofNat 21 slot).toNat = slot := by
  rw [BitVec.toNat_ofNat]
  exact Nat.mod_eq_of_lt (h.trans_le (Nat.pow_le_pow_right two_pos hL))

section
variable {ctx : CodeCtx} {bs more : Bits} {c : Code}

theorem reencodes_of_raw64 (hp : ctx.place = .first) (h : decodeCode ctx bs = .ok (c, more)) :
    Reencodes ctx c more bs := by
  simp only [decodeCode, hp] at h
  cases hv : takeNat 64 bs with
  | none => simp [hv] at h
  | some p =>
    obtain ⟨v, rest⟩ := p
    obtain ⟨rfl, hlt⟩ := takeNat_eq_some hv
    simp only [hv] at h
    cases h
    exact ⟨Code.wf_raw64.mpr hp, by rw [encodeCode, toNat_ofNat_value hlt le_rfl]⟩

theorem reencodes_of_decodeNew (hp : ctx.place = .later) (h : decodeNew bs = .ok (c, more)) :
    Reencodes ctx c more (true :: true :: bs) := by
  unfold decodeNew at h
  cases hz : takeNat 3 bs with
  | none => simp [hz] at h
  | some p =>
    obtain ⟨lzc, bs'⟩ := p
    obtain ⟨rfl, hlzc⟩ := takeNat_eq_some hz
    simp only [hz] at h
    cases hv : takeNat (64 - bucket (BitVec.ofNat 3 lzc)) bs' with
    | none => simp [hv] at h
    | some p =>
      obtain ⟨payload, rest⟩ := p
      obtain ⟨rfl, hlt⟩ := takeNat_eq_some hv
      simp only [hv] at h
      cases h
      have hval := toNat_ofNat_value hlt (Nat.sub_le _ _)
      have hidx : (BitVec.ofNat 3 lzc).toNat = lzc := Nat.mod_eq_of_lt hlzc
      exact ⟨Code.wf_new.mpr ⟨hp, hval.symm ▸ hlt⟩, by simp [encodeCode_new, hval, hidx]⟩

theorem reencodes_of_decodeSame (hp : ctx.place = .later) (h : decodeSame ctx bs = .ok (c, more)) :
    Reencodes ctx c more (true :: false :: bs) := by
  unfold decodeSame at h
  split_ifs at h with hz
  cases hv : takeNat (64 - ctx.slz) bs with
  | none => simp [hv] at h
  | some p =>
    obtain ⟨payload, rest⟩ := p
    obtain ⟨rfl, hlt⟩ := takeNat_eq_some hv
    simp only [hv] at h
    cases h
    have hval := toNat_ofNat_value hlt (Nat.sub_le _ _)
    exact ⟨Code.wf_same.mpr ⟨hp, hz, hval.symm ▸ hlt⟩, by simp [encodeCode_same, hval]⟩

theorem reencodes_of_decodeRep (hL : ctx.L ≤ maxL) (hp : ctx.place = .later) (h : decodeRep ctx bs = .ok (c, more)) :
    Reencodes ctx c more (false :: false :: bs) := by
  unfold decodeRep at h
  cases hv : takeNat ctx.L bs with
  | none => simp [hv] at h
  | some p =>
    obtain ⟨slot, rest⟩ := p
    obtain ⟨rfl, hlt⟩ := takeNat_eq_some hv
    simp only [hv] at h
    split_ifs at h with hc
    cases h
    have hslot := toNat_ofNat_slot (L := ctx.L) hlt hL
    have hfits : (BitVec.ofNat 21 slot).toNat < windowSize ctx.L := hslot.symm ▸ hlt
    exact ⟨Code.wf_rep.mpr ⟨hp, hfits, hslot.symm ▸ Nat.lt_of_not_ge hc⟩, by simp [encodeCode_rep hfits, hslot]⟩

theorem reencodes_of_decodeIdx (hL : ctx.L ≤ maxL) (hp : ctx.place = .later) (h : decodeIdx ctx bs = .ok (c, more)) :
    Reencodes ctx c more (false :: true :: bs) := by
  unfold decodeIdx at h
  cases hf : takeNat (ctx.L + 9) bs with
  | none => simp [hf] at h
  | some p =>
    obtain ⟨packed, bs'⟩ := p
    obtain ⟨rfl, hpacked⟩ := takeNat_eq_some hf
    simp only [hf] at h
    split_ifs at h with hw hc
    cases hv : takeNat (sigWidth (BitVec.ofNat 6 packed)) bs' with
    | none => simp [hv] at h
    | some p =>
      obtain ⟨payload, rest⟩ := p
      obtain ⟨rfl, hlt⟩ := takeNat_eq_some hv
      simp only [hv] at h
      cases h
      have hval := toNat_ofNat_value hlt (sigWidth_le _)
      have hpow := two_pow_add_nine ctx.L
      have hslot : (BitVec.ofNat 21 (packed / 512)).toNat = packed / 512 :=
        toNat_ofNat_slot (L := ctx.L) (by omega) hL
      have hfits : (BitVec.ofNat 21 (packed / 512)).toNat < windowSize ctx.L := by omega
      have hfilled : (BitVec.ofNat 21 (packed / 512)).toNat < ctx.cnt := hslot.symm ▸ Nat.lt_of_not_ge hc
      exact ⟨Code.wf_idx.mpr ⟨hp, hfits, hfilled, Nat.le_of_not_gt hw, hval.symm ▸ hlt⟩,
        by rw [encodeCode_idx hfits, hslot, idxField_parts, hval]; simp⟩

theorem reencodes_of_decodeTerm (hp : ctx.place = .afterSentinel) (h : decodeTerm ctx bs = .ok (c, more)) :
    Reencodes ctx c more bs := by
  unfold decodeTerm at h
  split at h
  next => cases h
  next rest hv =>
    obtain ⟨rfl, -⟩ := takeNat_eq_some hv
    cases h
    have hpad : (BitVec.ofNat 3 (padBits (ctx.pos + 1))).toNat = padBits (ctx.pos + 1) :=
      Nat.mod_eq_of_lt (padBits_lt _)
    exact ⟨Code.wf_term.mpr ⟨hp, hpad⟩, by rw [encodeCode, hpad]⟩
  next => cases h

/-- Settles O2, by the place and the flag: each format takes its fields off the front and refuses those of R103. -/
theorem decodedCodeReencodes : Obligations.DecodedCodeReencodes := by
  intro ctx bs more c hL h
  match hp : ctx.place with
  | .first => exact reencodes_of_raw64 hp h
  | .afterSentinel => exact reencodes_of_decodeTerm hp (decodeCode_term bs hp ▸ h)
  | .later =>
    match bs with
    | [] | [_] => rw [decodeCode_flag_cut hp (by simp)] at h; cases h
    | true :: true :: bs => exact reencodes_of_decodeNew hp (decodeCode_new bs hp ▸ h)
    | true :: false :: bs => exact reencodes_of_decodeSame hp (decodeCode_same bs hp ▸ h)
    | false :: true :: bs => exact reencodes_of_decodeIdx hL hp (decodeCode_idx bs hp ▸ h)
    | false :: false :: bs => exact reencodes_of_decodeRep hL hp (decodeCode_rep bs hp ▸ h)

end

/-! ### Sample words and buckets -/

/-- Settles O4: the words are decoded by evaluation. -/
theorem sampleWordsDecode : Obligations.SampleWordsDecode := by
  unfold Obligations.SampleWordsDecode
  decide

/-- No bucket value lies between the one picked for a count and the count (R96). -/
theorem bucket_le_bucket_bucketIndex {z : Nat} {i : BitVec 3} (h : bucket i ≤ z) : bucket i ≤ bucket (bucketIndex z) := by
  have values : bucket 0 = 0 ∧ bucket 1 = 8 ∧ bucket 2 = 12 ∧ bucket 3 = 16 ∧ bucket 4 = 18 ∧ bucket 5 = 20 ∧
      bucket 6 = 22 ∧ bucket 7 = 24 := by decide
  have listed : ∀ j : BitVec 3, bucket j ∈ [0, 8, 12, 16, 18, 20, 22, 24] := by decide
  specialize listed i
  simp only [List.mem_cons, List.not_mem_nil, or_false] at listed
  unfold bucketIndex
  split_ifs <;> omega

/-- Settles O5: the index picked for a count is that of the largest bucket value not above it. -/
theorem bucketRoundsDown : Obligations.BucketRoundsDown :=
  ⟨by decide, fun z _ => ⟨bucket_bucketIndex_le z, fun _ => bucket_le_bucket_bucketIndex⟩⟩

end Sys2Proof

namespace Sys2Proof.Machine

/-! ### Steps on command words -/

/-- Settles O3: the op decides whether the word decodes, and a word that does not is answered by `State.refuseOp`. -/
theorem reservedOpChangesOnlyResponse : Obligations.ReservedOpChangesOnlyResponse := by
  intro s w rest hin
  rcases decodeCommand_cases w with ⟨hop, hd⟩ | ⟨hop, hd⟩
  · exact ⟨fun _ => hd, fun hnot => absurd hop hnot⟩
  · exact ⟨fun hmem => absurd hmem hop, fun _ => step_of_reserved hin hd⟩

/-- Settles O9. -/
theorem stepRunsCommand : Obligations.StepRunsCommand :=
  fun _ _ _ _ => step_of_command

/-- Settles O48: the effect of `TERM` on the decompressor is none (`Dec.takeTerm`). -/
theorem termChangesNothing : Obligations.TermChangesNothing :=
  fun pad s => exec_toInstr (.term pad) s

/-! ### Codes that stop the decompressor -/

section
variable {s : State} {f : FaultCode}

/-- A decoding command whose body fails raises the fault (R211, R280). -/
theorem decodingStops_of_error {i : Instr} {data : Dec → BitVec 64} (hr : s.dec.ready = true)
    (hi : exec i s = .next (s.decompressorStep (.error f) data)) : DecodingStops i s f :=
  ⟨_, hi.trans (congrArg _ (State.decompressorStep_error hr)), rfl, rfl, rfl⟩

/-- All three decoding commands begin with a value step, `DEC_GET_VALUES` while its budget lasts. -/
theorem stopsDecoding_of_nextValue (hr : s.dec.ready = true) (h : s.dec.nextValue s.draws = .error f) :
    StopsDecoding s f := by
  refine ⟨decodingStops_of_error (data := fun _ => 0) hr ?_,
    decodingStops_of_error (data := fun d => if d.eos then endPattern else d.sv) hr ?_, fun hb =>
    decodingStops_of_error (data := fun d => BitVec.ofNat 64 (d.emitted - s.dec.emitted)) hr ?_⟩
  · rw [← h]; rfl
  · rw [← h]; rfl
  · have hv : s.dec.getValues s.draws = .error f := by rw [Dec.getValues_step _ hb, h]
    rw [← hv]; rfl

/-- Whatever the decoder rejects stops the decompressor (R103). -/
theorem stopsDecoding_of_decodeCode (hr : s.dec.ready = true) (he : s.dec.eos = false) {e : CodeError}
    (h : decodeCode s.dec.codeCtx s.dec.upcoming = .error e) : StopsDecoding s (codeFault e) :=
  stopsDecoding_of_nextValue hr (Dec.nextValue_error (Dec.fetch_error he h))

end

section
variable {d : Dec}

theorem Dec.codeCtx_place_first (he : d.eos = false) (hf : d.first = true) : d.codeCtx.place = .first := by
  simp [Dec.codeCtx, he, hf]

theorem Dec.codeCtx_place_later (he : d.eos = false) (hf : d.first = false) : d.codeCtx.place = .later := by
  simp [Dec.codeCtx, he, hf]

/-- Fewer than `n` bits are left after the ones the decoder faces. -/
theorem Dec.upcoming_cut {bs : Bits} {n : Nat} (h : d.br.Faces bs) (hs : d.br.Short (bs.length + n))
    (hl : bs.length ≤ d.L + 75) : ∃ rest, d.upcoming = bs ++ rest ∧ rest.length < n := by
  obtain ⟨rest, hup, hlen⟩ := Dec.upcoming_of_faces h hl
  have hend := h.1
  unfold Br.Short at hs
  exact ⟨rest, hup, by omega⟩

theorem Dec.upcoming_length_lt {n : Nat} (h : d.br.Short n) (hn : 0 < n) : d.upcoming.length < n := by
  unfold Br.Short at h
  rw [Dec.upcoming_length]
  omega

/-- The effect of a code that fits its place does not fail (R212 to R217). -/
theorem Dec.takeCode_of_wf {c : Code} (h : c.wf d.codeCtx = true) (used n : Nat) :
    ∃ d', (d.advance used).takeCode n c = .ok d' := by
  cases c with
  | raw64 | new | term => exact ⟨_, rfl⟩
  | rep slot =>
    obtain ⟨-, -, hcnt⟩ := Code.wf_rep.mp h
    exact ⟨_, if_neg hcnt.not_ge⟩
  | idx slot lzc sig payload =>
    obtain ⟨-, -, hcnt, hwidth, -⟩ := Code.wf_idx.mp h
    exact ⟨_, (if_neg hwidth.not_gt).trans (if_neg hcnt.not_ge)⟩
  | same payload =>
    obtain ⟨-, hslz, -⟩ := Code.wf_same.mp h
    exact ⟨_, if_neg hslz⟩

/-- The decoder looks far enough ahead for every code but `TERM`, which it never reads (R101, R222). -/
theorem Dec.encodeCode_length_le {c : Code} (he : d.eos = false) (h : c.wf d.codeCtx = true) :
    (encodeCode d.codeCtx c).length ≤ d.L + 75 := by
  have hL : d.codeCtx.L = d.L := rfl
  cases c with
  | raw64 v => rw [encodeCode, natBits_length]; omega
  | rep slot => rw [encodeCode_rep_length, hL]; omega
  | idx slot lzc sig payload => rw [encodeCode_idx_length, hL]; have := sigWidth_le sig; omega
  | same payload => rw [encodeCode_same_length]; omega
  | new lzc payload => rw [encodeCode_new_length]; omega
  | term pad =>
    obtain ⟨hplace, -⟩ := Code.wf_term.mp h
    cases hf : d.first <;> simp [Dec.codeCtx, he, hf] at hplace

/-- A well-formed code that is all there is taken by the value step (R211). -/
theorem Dec.nextValue_of_wf {c : Code} (he : d.eos = false) (h : c.wf d.codeCtx = true)
    (hfaces : d.br.Faces (encodeCode d.codeCtx c)) (n : Nat) : ∃ d', d.nextValue n = .ok d' := by
  obtain ⟨rest, hup, -⟩ := Dec.upcoming_of_faces hfaces (Dec.encodeCode_length_le he h)
  rw [Dec.nextValue_ok (Dec.fetch_ok he (hup ▸ decodeCode_encodeCode h rest))]
  exact Dec.takeCode_of_wf h _ n

end

/-! ### The first cause of a fault, by flag (R103, R278) -/

section
variable {s : State} (hr : s.dec.ready = true) (he : s.dec.eos = false) (hf : s.dec.first = false)
include hr he hf

/-- The bits after a flag stop the decompressor with the error of the decoder. -/
theorem stopsDecoding_later {bs : Bits} {e : CodeError} {f : FaultCode} (hup : s.dec.upcoming = bs)
    (h : s.dec.codeCtx.place = .later → decodeCode s.dec.codeCtx bs = .error e) (hef : codeFault e = f) :
    StopsDecoding s f :=
  hef ▸ stopsDecoding_of_decodeCode hr he (hup ▸ h (Dec.codeCtx_place_later he hf))

theorem stopsDecoding_new (hflag : s.dec.br.Faces (fieldBits 3 2)) :
    (s.dec.br.Short 5 → StopsDecoding s .inputExhausted) ∧
    ∀ lzc : BitVec 3, s.dec.br.Faces (fieldBits 3 2 ++ fieldBits lzc.toNat 3) →
      s.dec.br.Short (5 + (64 - bucket lzc)) → StopsDecoding s .inputExhausted := by
  refine ⟨fun hs => ?_, fun lzc hfaces hs => ?_⟩
  · obtain ⟨rest, hup, hlen⟩ := Dec.upcoming_cut (n := 3) hflag hs (by simp [fieldBits])
    exact stopsDecoding_later hr he hf hup
      (fun hp => (decodeCode_new rest hp).trans (decodeNew_bucket_cut hlen)) rfl
  · obtain ⟨rest, hup, hlen⟩ := Dec.upcoming_cut hfaces hs (by simp [fieldBits])
    rw [fieldBits_eq_natBits lzc.toNat, List.append_assoc] at hup
    exact stopsDecoding_later hr he hf hup
      (fun hp => (decodeCode_new _ hp).trans (decodeNew_payload_cut hlen)) rfl

theorem stopsDecoding_same (hflag : s.dec.br.Faces (fieldBits 2 2)) :
    (s.dec.slz = 65 → StopsDecoding s .malformedStream) ∧
    (s.dec.slz ≠ 65 → s.dec.br.Short (2 + (64 - s.dec.slz)) → StopsDecoding s .inputExhausted) := by
  have hl : (fieldBits 2 2).length ≤ s.dec.L + 75 := by simp [fieldBits]
  refine ⟨fun hz => ?_, fun hz hs => ?_⟩
  · obtain ⟨rest, hup, -⟩ := Dec.upcoming_of_faces hflag hl
    exact stopsDecoding_later hr he hf hup (fun hp => (decodeCode_same rest hp).trans (decodeSame_unset hz)) rfl
  · obtain ⟨rest, hup, hlen⟩ := Dec.upcoming_cut hflag hs hl
    exact stopsDecoding_later hr he hf hup
      (fun hp => (decodeCode_same rest hp).trans (decodeSame_payload_cut hz hlen)) rfl

theorem stopsDecoding_idx_field_cut (hflag : s.dec.br.Faces (fieldBits 1 2)) (hs : s.dec.br.Short (s.dec.L + 11)) :
    StopsDecoding s .inputExhausted := by
  have hs' : s.dec.br.Short (2 + (s.dec.L + 9)) := (show s.dec.L + 11 = 2 + (s.dec.L + 9) by omega) ▸ hs
  obtain ⟨rest, hup, hlen⟩ := Dec.upcoming_cut hflag hs' (by simp [fieldBits])
  exact stopsDecoding_later hr he hf hup (fun hp => (decodeCode_idx rest hp).trans (decodeIdx_field_cut hlen)) rfl

theorem stopsDecoding_idx {slot : Nat} {lzc : BitVec 3} {sig : BitVec 6} (hslot : slot < windowSize s.dec.L)
    (hfaces : s.dec.br.Faces
      (fieldBits 1 2 ++ fieldBits slot s.dec.L ++ fieldBits lzc.toNat 3 ++ fieldBits sig.toNat 6)) :
    (64 < sigWidth sig + bucket lzc ∨ s.dec.cnt ≤ slot → StopsDecoding s .malformedStream) ∧
    (sigWidth sig + bucket lzc ≤ 64 → slot < s.dec.cnt → s.dec.br.Short (s.dec.L + 11 + sigWidth sig) →
      StopsDecoding s .inputExhausted) := by
  have hbits : fieldBits 1 2 ++ fieldBits slot s.dec.L ++ fieldBits lzc.toNat 3 ++ fieldBits sig.toNat 6 =
      false :: true :: natBits (idxField slot lzc.toNat sig.toNat) (s.dec.L + 9) := by
    simp only [fieldBits_eq_natBits]
    rw [natBits_idxField s.dec.L slot lzc.isLt sig.isLt]
    rfl
  rw [hbits] at hfaces
  have hlen : (false :: true :: natBits (idxField slot lzc.toNat sig.toNat) (s.dec.L + 9)).length = s.dec.L + 11 := by
    simp
  refine ⟨fun hbad => ?_, fun hw hc hs => ?_⟩
  · obtain ⟨rest, hup, -⟩ := Dec.upcoming_of_faces hfaces (by omega)
    exact stopsDecoding_later hr he hf hup
      (fun hp => (decodeCode_idx _ hp).trans (decodeIdx_malformed hslot hbad)) (by split <;> rfl)
  · obtain ⟨rest, hup, hcut⟩ := Dec.upcoming_cut hfaces (hlen.symm ▸ hs) (by omega)
    exact stopsDecoding_later hr he hf hup
      (fun hp => (decodeCode_idx _ hp).trans (decodeIdx_payload_cut hslot hw hc hcut)) rfl

theorem stopsDecoding_rep (hflag : s.dec.br.Faces (fieldBits 0 2)) :
    (s.dec.br.Short (2 + s.dec.L) → StopsDecoding s .inputExhausted) ∧
    ∀ slot < 2 ^ s.dec.L, s.dec.br.Faces (fieldBits 0 2 ++ fieldBits slot s.dec.L) → s.dec.cnt ≤ slot →
      StopsDecoding s .malformedStream := by
  refine ⟨fun hs => ?_, fun slot hslot hfaces hc => ?_⟩
  · obtain ⟨rest, hup, hlen⟩ := Dec.upcoming_cut hflag hs (by simp [fieldBits])
    exact stopsDecoding_later hr he hf hup (fun hp => (decodeCode_rep rest hp).trans (decodeRep_slot_cut hlen)) rfl
  · obtain ⟨rest, hup, -⟩ := Dec.upcoming_of_faces hfaces (by simp [fieldBits])
    rw [fieldBits_eq_natBits slot, List.append_assoc] at hup
    exact stopsDecoding_later hr he hf hup
      (fun hp => (decodeCode_rep _ hp).trans ((decodeRep_slot hslot).trans (if_pos hc))) rfl

end

/-- Settles O51, by the place and the flag: the bits at the cursor make the decoder fail with the first cause, which all
three commands raise. -/
theorem badCodeStopsDecoding : Obligations.BadCodeStopsDecoding := by
  intro s hr he
  refine ⟨fun hf hs => ?_, fun hf => ⟨fun hs => ?_, stopsDecoding_new hr he hf, stopsDecoding_same hr he hf,
    fun hflag => ⟨stopsDecoding_idx_field_cut hr he hf hflag, ?_⟩, stopsDecoding_rep hr he hf⟩, fun e hd => ?_,
    fun c hwf hfaces => ?_⟩
  · have cut := Dec.upcoming_length_lt hs (by decide)
    exact stopsDecoding_of_decodeCode hr he (decodeCode_raw64_cut (Dec.codeCtx_place_first he hf) cut)
  · have cut := Dec.upcoming_length_lt hs (by decide)
    exact stopsDecoding_of_decodeCode hr he (decodeCode_flag_cut (Dec.codeCtx_place_later he hf) cut)
  · rintro slot _ lzc sig hslot rfl hfaces
    exact stopsDecoding_idx hr he hf hslot hfaces
  · rw [← codeFault_eq]
    exact stopsDecoding_of_decodeCode hr he hd
  · obtain ⟨d, hd⟩ := Dec.nextValue_of_wf he hwf hfaces s.draws
    exact ⟨_, congrArg Host.Outcome.next ((congrArg (s.decompressorStep · _) hd).trans (State.decompressorStep_ok hr)),
      rfl⟩

end Sys2Proof.Machine

/-! Proofs of the statements of spec/40_bitwriter.md: the writing commands (R130 to R137) and the byte-wise form of
`emit` (R139). -/

namespace Sys2Proof.Machine

/-! ### The byte-wise writer (R139) -/

/-- The writer with its accumulator, its free slots and its bit count replaced: all of `emit` but the stored bytes. -/
def Bw.setSlots (w : Bw) (acc : Byte) (free total : Nat) : Bw := { w with acc := acc, free := free, total := total }

@[simp] theorem Bw.setSlots_acc (w : Bw) (a : Byte) (f t : Nat) : (w.setSlots a f t).acc = a := rfl
@[simp] theorem Bw.setSlots_free (w : Bw) (a : Byte) (f t : Nat) : (w.setSlots a f t).free = f := rfl
@[simp] theorem Bw.setSlots_total (w : Bw) (a : Byte) (f t : Nat) : (w.setSlots a f t).total = t := rfl
@[simp] theorem Bw.setSlots_setSlots (w : Bw) (a a' : Byte) (f f' t t' : Nat) :
    (w.setSlots a f t).setSlots a' f' t' = w.setSlots a' f' t' := rfl

/-- Of two replacements the later one holds. -/
theorem map_setSlots_map_setSlots (x : Except FaultCode Bw) (a a' : Byte) (f f' t t' : Nat) :
    (x.map (·.setSlots a f t)).map (·.setSlots a' f' t') = x.map (·.setSlots a' f' t') := by
  cases x <;> rfl

/-- The low `n` bits of `v` in a byte, above `k` clear slots. -/
def slotField (v n k : Nat) : Byte := BitVec.ofNat 8 (v % 2 ^ n * 2 ^ k)

@[simp] theorem slotField_zero (v k : Nat) : slotField v 0 k = 0 := by simp [slotField, Nat.mod_one]

/-- The highest bit of a field stands above the rest of it. -/
theorem slotField_succ (v n k : Nat) :
    slotField v (n + 1) k = (if v.testBit n then 1#8 <<< (n + k) else 0#8) ||| slotField v n k := by
  refine BitVec.eq_of_getLsbD_eq fun i hi => ?_
  have hbit : (if v.testBit n then 1#8 <<< (n + k) else 0#8).getLsbD i = (decide (i = n + k) && v.testBit n) := by
    rw [Bool.eq_iff_iff]
    split_ifs with hv <;> simp [hv, hi]
    omega
  simp only [slotField, BitVec.getLsbD_or, hbit, BitVec.getLsbD_ofNat, Nat.testBit_mul_two_pow,
    Nat.testBit_mod_two_pow, hi, decide_true, Bool.true_and]
  rcases Nat.lt_trichotomy i (n + k) with hlt | rfl | hgt
  · by_cases hk : k ≤ i
    · simp [hk, show i - k < n by omega, show i - k < n + 1 by omega, hlt.ne]
    · simp [hk, hlt.ne]
  · simp
  · simp [hgt.ne', show ¬ i - k < n by omega, show ¬ i - k < n + 1 by omega]

/-- A bit that leaves a slot free changes the slots only. -/
theorem Bw.pushBit_of_one_lt {w : Bw} (h : 1 < w.free) (b : Bool) :
    w.pushBit b = .ok (w.setSlots (w.acc ||| (if b then 1#8 <<< (w.free - 1) else 0#8)) (w.free - 1) (w.total + 1)) :=
  if_neg (by omega)

/-- A bit that fills the accumulator stores it as a byte. -/
theorem Bw.pushBit_of_free_eq_one {w : Bw} (h : w.free = 1) (b : Bool) :
    w.pushBit b = (w.appendByte (w.acc ||| (if b then 1#8 <<< 0 else 0#8))).map (·.setSlots 0 8 (w.total + 1)) := by
  unfold Bw.pushBit Bw.appendByte
  simp only [h, Nat.sub_self, if_true]
  split_ifs <;> rfl

theorem Bw.emit_cons_of_ok {w w₁ : Bw} {b : Bool} (h : w.pushBit b = .ok w₁) (bs : Bits) :
    w.emit (b :: bs) = w₁.emit bs := by
  simp [Bw.emit, h]

theorem Bw.emit_singleton (w : Bw) (b : Bool) : w.emit [b] = w.pushBit b := by
  simp only [Bw.emit]
  cases w.pushBit b <;> rfl

/-- `emit` of fewer bits than there are free slots (R139, first case). -/
theorem Bw.emit_natBits_of_lt {w : Bw} (v : Nat) {n : Nat} (h : n < w.free) :
    w.emit (natBits v n) = .ok (w.setSlots (w.acc ||| slotField v n (w.free - n)) (w.free - n) (w.total + n)) := by
  induction n generalizing w with
  | zero => simp [natBits, Bw.emit, Bw.setSlots]
  | succ n ih =>
    have hfree : w.free - 1 - n = w.free - (n + 1) := by omega
    have hslot : w.free - 1 = n + (w.free - (n + 1)) := by omega
    rw [natBits, Bw.emit_cons_of_ok (Bw.pushBit_of_one_lt (by omega) _), ih (by simp; omega)]
    simp only [Bw.setSlots_acc, Bw.setSlots_free, Bw.setSlots_total, Bw.setSlots_setSlots, hfree]
    rw [slotField_succ, BitVec.or_assoc, ← hslot, Nat.add_assoc, Nat.add_comm 1]

/-- The bytes that are stored do not depend on the slots. -/
theorem Bw.appendByte_setSlots (w : Bw) (a : Byte) (f t : Nat) (b : Byte) :
    (w.setSlots a f t).appendByte b = (w.appendByte b).map (·.setSlots a f t) := by
  unfold Bw.appendByte Bw.setSlots
  split_ifs <;> rfl

theorem Bw.appendBytes_setSlots (w : Bw) (a : Byte) (f t : Nat) (bs : List Byte) :
    (w.setSlots a f t).appendBytes bs = (w.appendBytes bs).map (·.setSlots a f t) := by
  induction bs generalizing w with
  | nil => rfl
  | cons b bs ih =>
    simp only [Bw.appendBytes, Bw.appendByte_setSlots]
    cases w.appendByte b with
    | error e => rfl
    | ok w₁ => exact ih w₁

theorem Bw.appendBytes_total {w w₁ : Bw} {bs : List Byte} (h : w.appendBytes bs = .ok w₁) : w₁.total = w.total := by
  have hown : w.appendBytes bs = (w.appendBytes bs).map (·.setSlots w.acc w.free w.total) :=
    Bw.appendBytes_setSlots w w.acc w.free w.total bs
  rw [h] at hown
  rw [Except.ok.inj hown]
  rfl

/-- `emit` of as many bits as there are free slots stores the filled accumulator. -/
theorem Bw.emit_natBits_free {w : Bw} (v : Nat) (h : 1 ≤ w.free) :
    w.emit (natBits v w.free) =
      (w.appendByte (w.acc ||| slotField v w.free 0)).map (·.setSlots 0 8 (w.total + w.free)) := by
  obtain ⟨n, hn⟩ : ∃ n, w.free = n + 1 := ⟨w.free - 1, by omega⟩
  rw [hn]
  clear h
  induction n generalizing w with
  | zero =>
    simp only [natBits, Bw.emit_singleton, Bw.pushBit_of_free_eq_one hn, slotField_succ, slotField_zero]
    simp
  | succ n ih =>
    have htotal : w.total + 1 + (n + 1) = w.total + (n + 1 + 1) := by omega
    rw [natBits, Bw.emit_cons_of_ok (Bw.pushBit_of_one_lt (by omega) _), ih (by simp; omega), Bw.appendByte_setSlots,
      map_setSlots_map_setSlots, Bw.setSlots_total, htotal, Bw.setSlots_acc, slotField_succ _ (n + 1), BitVec.or_assoc,
      show w.free - 1 = n + 1 + 0 by omega]

/-- Bits that fill the accumulator store it and go on in an empty one. -/
theorem Bw.emit_natBits_free_add {w : Bw} (hpos : 1 ≤ w.free) {v m : Nat} {bs : List Byte} {a : Byte} {f : Nat}
    (hrest : ∀ (w₁ : Bw) (t : Nat),
      (w₁.setSlots 0 8 t).emit (natBits v m) = (w₁.appendBytes bs).map (·.setSlots a f (t + m))) :
    w.emit (natBits v (w.free + m)) = (w.appendBytes ((w.acc ||| slotField (v / 2 ^ m) w.free 0) :: bs)).map
      (·.setSlots a f (w.total + (w.free + m))) := by
  rw [natBits_append, Bw.emit_append, Bw.emit_natBits_free _ hpos, Bw.appendBytes, ← Nat.add_assoc]
  cases w.appendByte (w.acc ||| slotField (v / 2 ^ m) w.free 0) with
  | error e => rfl
  | ok w₁ => exact hrest w₁ _

/-- `emit` into an empty accumulator stores the whole bytes and keeps the remainder (R139). -/
theorem Bw.emit_wholeBytes (v q : Nat) {r : Nat} (hr : r < 8) (w : Bw) (t : Nat) :
    (w.setSlots 0 8 t).emit (natBits v (8 * q + r)) = (w.appendBytes (wholeBytes v (8 * q + r) q)).map
      (·.setSlots (slotField v r (8 - r)) (8 - r) (t + (8 * q + r))) := by
  induction q generalizing w t with
  | zero =>
    rw [Nat.mul_zero, Nat.zero_add, Bw.emit_natBits_of_lt v hr]
    simp [wholeBytes, Bw.appendBytes, Except.map]
  | succ q ih =>
    have hbyte : 0#8 ||| slotField (v / 2 ^ (8 * q + r)) 8 0 = BitVec.ofNat 8 (v / 2 ^ (8 * q + r)) := by
      apply BitVec.eq_of_toNat_eq
      simp [slotField]
    have hfill := Bw.emit_natBits_free_add (w := w.setSlots 0 8 t) (by simp) ih
    simp only [Bw.setSlots_free, Bw.setSlots_acc, Bw.setSlots_total, Bw.appendBytes_setSlots,
      map_setSlots_map_setSlots] at hfill
    rw [show 8 * (q + 1) + r = 8 + (8 * q + r) by omega, hfill, wholeBytes, Nat.add_sub_cancel_left, ← hbyte]
    rfl

/-- `emit` by bytes where the bits fit beside the accumulator (R139). -/
theorem Bw.emitBytewise_of_lt {w : Bw} (v : Nat) {n : Nat} (h : n < w.free) :
    w.emitBytewise v n =
      .ok (w.setSlots (w.acc ||| slotField v n (w.free - n)) (w.free - n) (w.total + n)) :=
  if_pos h

/-- `emit` by bytes where they fill the accumulator (R139). -/
theorem Bw.emitBytewise_of_ge {w : Bw} (v m : Nat) :
    w.emitBytewise v (w.free + m) =
      (w.appendBytes ((w.acc ||| slotField (v / 2 ^ m) w.free 0) :: wholeBytes v m (m / 8))).map
        (·.setSlots (slotField v (m % 8) (8 - m % 8)) (8 - m % 8) (w.total + (w.free + m))) := by
  unfold Bw.emitBytewise
  simp only [Nat.not_lt.mpr (Nat.le_add_right w.free m), if_false, Nat.add_sub_cancel_left, slotField, pow_zero,
    mul_one]
  generalize (w.acc ||| BitVec.ofNat 8 (v / 2 ^ m % 2 ^ w.free)) :: wholeBytes v m (m / 8) = bs
  cases h : w.appendBytes bs with
  | error e => rfl
  | ok w₁ => rw [← Bw.appendBytes_total h]; rfl

/-- Settles O26: both forms fill the accumulator first; the byte-wise one splits the rest into whole bytes. -/
theorem bytewiseWriterAgrees : Obligations.BytewiseWriterAgrees := by
  intro w v n h _
  rcases Nat.lt_or_ge n w.free with hlt | hge
  · rw [Bw.emitBytewise_of_lt v hlt, Bw.emit_natBits_of_lt v hlt]
  · obtain ⟨m, rfl⟩ := Nat.exists_eq_add_of_le hge
    have hrest := Bw.emit_wholeBytes v (m / 8) (Nat.mod_lt m (by decide))
    rw [Nat.div_add_mod] at hrest
    rw [Bw.emitBytewise_of_ge, Bw.emit_natBits_free_add h.free_pos hrest]

/-! ### The writing commands -/

/-- A command that runs `emit` on a ready writer whose registers agree appends its bits or overruns (R131, R140). -/
theorem writesBits_of_exec {i : Instr} {s : State} {bits : Bits} (hi : exec i s = .next (s.writeBits bits))
    (hr : s.bw.ready = true) (h : s.bw.Inv) : WritesBits i s bits := by
  refine ⟨fun hroom => ?_, fun hroom => ?_⟩
  · obtain ⟨w, he, happ, -⟩ := (Bw.emit_spec h bits).1 hroom
    exact ⟨w, hi.trans (congrArg _ (State.writeBits_ok hr he)), happ⟩
  · have he := (Bw.emit_spec h bits).2 hroom
    exact ⟨_, hi.trans (congrArg _ (State.writeBits_error hr he)), rfl,
      fun a ha => Memory.read_scramble _ _ _ _ _ ha⟩

/-- The bit of `BW_WRITE_BIT` is the lowest of its data (R109, R132). -/
theorem natBits_lowBit (data : BitVec 64) : natBits (data.extractLsb' 0 1).toNat 1 = [data.getLsbD 0] :=
  natBits_congr (w := data.toNat) (by simp)

theorem exec_bwWriteBits {len : BitVec 8} (h : len.toNat ≤ 32) (value : Value) (s : State) :
    exec (.bwWriteBits len value) s = .next (s.writeBits (fieldBits value.toNat len.toNat)) := by
  rw [fieldBits_eq_natBits]
  exact congrArg _ (if_pos (decide_eq_true h))

theorem exec_bwWriteBits64 {len : BitVec 8} (h : len.toNat ≤ 64) (value : Value) (s : State) :
    exec (.bwWriteBits64 len value) s = .next (s.writeBits (fieldBits value.toNat len.toNat)) := by
  rw [fieldBits_eq_natBits]
  exact congrArg _ (if_pos (decide_eq_true h))

theorem exec_bwWriteBit (data : BitVec 64) (s : State) :
    exec (.bwWriteBit (data.extractLsb' 0 1)) s = .next (s.writeBits [data.getLsbD 0]) :=
  congrArg (fun bits => Host.Outcome.next (s.writeBits bits)) (natBits_lowBit data)

/-- The padding of `BW_ALIGN` and `BW_FLUSH`, up to the next multiple of 8 (R136, R137). -/
theorem exec_align_or_flush {i : Instr} (hi : i = .bwAlign ∨ i = .bwFlush) (s : State) :
    exec i s = .next (s.writeBits (List.replicate (8 * ((s.bw.total + 7) / 8) - s.bw.total) false)) := by
  have hpad : padBits s.bw.total = 8 * ((s.bw.total + 7) / 8) - s.bw.total := by
    have := add_padBits s.bw.total; omega
  rw [← hpad, ← natBits_zero_left]
  rcases hi with rfl | rfl <;> rfl

/-- Settles O21. -/
theorem bwInitConstructsWriter : Obligations.BwInitConstructsWriter := by
  intro arg data s
  refine ⟨by simp [decodeCommand, lowHalf], ?_⟩
  have hcap : (data.extractLsb' 0 32).toNat = data.toNat % 2 ^ 32 := by simp
  rw [← hcap]
  rfl

/-- Settles O22. -/
theorem bwWriteBitAppends : Obligations.BwWriteBitAppends := by
  intro arg data s
  refine ⟨by simp [decodeCommand, lowBit], writesBits_of_exec (exec_bwWriteBit data s), ?_⟩
  rw [exec_bwWriteBit, exec_bwWriteBits (by decide), fieldBits_eq_natBits]
  rfl

/-- Settles O23. -/
theorem bwWriteBitsAppends : Obligations.BwWriteBitsAppends := by
  intro len value s
  refine ⟨by simp [decodeCommand], fun hlen => ?_, fun hlen => writesBits_of_exec (exec_bwWriteBits hlen value s)⟩
  exact congrArg _ (if_neg (by simpa [lenFits32] using hlen))

/-- Settles O24. -/
theorem bwWriteBits64Appends : Obligations.BwWriteBits64Appends := by
  intro len value s
  refine ⟨by simp [decodeCommand], fun hlen => ?_, fun hlen => writesBits_of_exec (exec_bwWriteBits64 hlen value s),
    fun hlen => ?_⟩
  · exact congrArg _ (if_neg (by simpa [lenFits64] using hlen))
  · rw [exec_bwWriteBits64 (by omega), exec_bwWriteBits hlen]

/-- A ready writer at a byte boundary answers `BW_FLUSH` with 0 and stays as it is (R137). -/
theorem exec_bwFlush_aligned {s : State} (hr : s.bw.ready = true) (ht : s.bw.total % 8 = 0) :
    exec .bwFlush s = .next { s with resp := { s.resp with bw := ⟨.ok, 0⟩ } } := by
  have hnone : 8 * ((s.bw.total + 7) / 8) - s.bw.total = 0 := by omega
  rw [exec_align_or_flush (.inr rfl), hnone]
  exact congrArg _ (State.writeBits_ok hr rfl)

/-- A writer padded to a byte boundary holds whole bytes only (R136). -/
theorem Bw.Appends.aligned {w w' : Bw} {bits : Bits} (h : w.Appends w' bits)
    (hb : (w.total + bits.length) % 8 = 0) : w'.free = 8 ∧ w'.acc = 0 ∧ w'.total = 8 * w'.nbytes := by
  have hfree : w'.free = 8 := by rw [h.free_eq, hb]
  refine ⟨hfree, BitVec.eq_of_getLsbD_eq fun i hi => ?_, ?_⟩
  · rw [h.slots_clear i (by omega)]; simp
  · rw [h.total_eq, h.nbytes_eq]; omega

/-- Settles O25: a command that does not fault has appended its padding, which leaves the writer at a byte boundary. -/
theorem bwAlignPadsToByte : Obligations.BwAlignPadsToByte := by
  intro arg data s i hi hr h
  have hexec := exec_align_or_flush hi s
  refine ⟨⟨by simp [decodeCommand], by simp [decodeCommand]⟩, rfl, writesBits_of_exec hexec hr h,
    fun t ht hfault => ?_⟩
  obtain rfl := Host.Outcome.next.inj (hexec.symm.trans ht)
  rcases s.writeBits_cases (List.replicate (8 * ((s.bw.total + 7) / 8) - s.bw.total) false) with
    ⟨hnr, -⟩ | ⟨-, w, hemit, he⟩ | ⟨-, -, he⟩
  · exact absurd hr (by simp [hnr])
  · obtain ⟨-, happ, -⟩ := Bw.emit_ok h hemit
    obtain ⟨hfree, hacc, htotal⟩ := happ.aligned (by rw [List.length_replicate]; omega)
    rw [he]
    exact ⟨hfree, hacc, htotal, exec_bwFlush_aligned (happ.ready_eq.trans hr) (by simp [htotal])⟩
  · rw [he] at hfault; cases hfault

end Sys2Proof.Machine

/-! Proofs of the statements of spec/41_bitreader.md: the reading commands (R150 to R155) and the reader over a writer's
bytes (R157). -/

namespace Sys2Proof.Machine

/-! ### The reader over a writer's bytes (R157) -/

/-- A reader that holds nothing back sees in a writer's stored bytes the bits the writer has written (R62, R157). -/
theorem Br.bitAt_eq_streamBit {r : Br} {w : Bw} (hheld : r.held = [])
    (hbytes : ∀ a < w.nbytes, r.inp.read a = w.out.read a) {k : Nat} (hk : k < 8 * w.nbytes) :
    r.bitAt k = w.streamBit k := by
  rw [Br.bitAt, Br.byteAt_of_empty hheld, hbytes _ (by omega), Bw.streamBit, if_pos hk, Memory.bit]

/-- A reader that faces some bits takes their number and moves its cursor past them (R151). -/
theorem Br.Faces.take_eq {r : Br} {bs : Bits} (h : r.Faces bs) :
    r.take bs.length = .ok (bitsNat bs, { r with pos := r.pos + bs.length }) := by
  rw [(r.take_spec bs.length).1 h.1, h.bitsFrom_eq]

/-- Settles O30: the padding brings every written bit into the stored bytes, and appending it has left those bits as
they were. -/
theorem readerRecoversWrites : Obligations.ReaderRecoversWrites := by
  intro w a b bs r hw hwrite hpad hbytes hheld hlen hpos
  obtain ⟨-, hbits, ha⟩ := Bw.emit_ok hw hwrite
  obtain ⟨-, hzeros, -⟩ := Bw.emit_ok ha hpad
  obtain ⟨-, -, hwhole⟩ := hzeros.aligned (by rw [natBits_length, add_padBits]; omega)
  have hend : a.total = r.pos + bs.length := by rw [hpos, hbits.total_eq]
  have hstored : a.total ≤ 8 * b.nbytes := by rw [← hwhole, hzeros.total_eq]; omega
  have hfaces : r.Faces bs := by
    refine ⟨by omega, fun j hj => ?_⟩
    calc r.bitAt (r.pos + j)
      _ = b.streamBit (r.pos + j) := Br.bitAt_eq_streamBit hheld hbytes (by omega)
      _ = a.streamBit (r.pos + j) := hzeros.old_bits _ (by omega)
      _ = bs.getD j false := by rw [hpos]; exact hbits.new_bits j hj
  exact ⟨hfaces, by rw [hend]; exact hfaces.take_eq⟩

/-! ### The reading commands -/

/-- A command that takes at most 64 bits off a ready reader answers them or is exhausted (R151, R158). -/
theorem readsBits_of_exec {i : Instr} {s : State} {n : Nat} (hi : exec i s = .next (s.readBits n)) (hn : n ≤ 64)
    (hr : s.br.ready = true) : ReadsBits i s n :=
  ⟨fun hin => ⟨_, hi.trans (congrArg _ (State.readBits_ok hr hin)), s.br.reads_bitsNat _ n hn⟩,
    fun hout => ⟨_, hi.trans (congrArg _ (State.readBits_error hr hout)), rfl, rfl⟩⟩

theorem exec_brReadBits {len : BitVec 8} (h : len.toNat ≤ 32) (s : State) :
    exec (.brReadBits len) s = .next (s.readBits len.toNat) :=
  congrArg _ (if_pos (decide_eq_true h))

theorem exec_brReadBits64 {len : BitVec 8} (h : len.toNat ≤ 64) (s : State) :
    exec (.brReadBits64 len) s = .next (s.readBits len.toNat) :=
  congrArg _ (if_pos (decide_eq_true h))

theorem exec_brReadBit (s : State) : exec .brReadBit s = .next (s.readBits 1) := rfl

/-- Settles O28: each reading command with a length in range is the shared reading operation, so one lemma serves all
three. -/
theorem brReadsNextBits : Obligations.BrReadsNextBits := by
  intro len arg data s
  refine ⟨⟨by simp [decodeCommand], by simp [decodeCommand], by simp [decodeCommand]⟩,
    fun hlen => ?_, fun hlen => ?_, fun hr => ⟨?_, fun hlen => ?_, fun hlen => ?_⟩, ?_, fun hlen => ?_⟩
  · exact congrArg _ (if_neg (by simpa [lenFits32] using hlen))
  · exact congrArg _ (if_neg (by simpa [lenFits64] using hlen))
  · exact readsBits_of_exec (exec_brReadBit s) (by decide) hr
  · exact readsBits_of_exec (exec_brReadBits hlen s) (by omega) hr
  · exact readsBits_of_exec (exec_brReadBits64 hlen s) hlen hr
  · exact (exec_brReadBits (len := 1) (by decide) s).symm
  · rw [exec_brReadBits64 (by omega), exec_brReadBits hlen]

/-- `BR_ALIGN` on a ready reader moves the cursor by the padding and answers it (R155). -/
theorem exec_brAlign_of_ready {s : State} (hr : s.br.ready = true) :
    exec .brAlign s = .next ({ s with br := { s.br with pos := s.br.pos + padBits s.br.pos } }.respond .br .ok
      (BitVec.ofNat 64 (padBits s.br.pos))) :=
  congrArg _ (if_pos hr)

/-- Settles O29: the buffer ends at a byte boundary, so the next one at or above the cursor is inside it. -/
theorem brAlignDiscardsToByte : Obligations.BrAlignDiscardsToByte := by
  intro arg data s hr hin
  have hnext := add_padBits s.br.pos
  have hdiscarded : padBits s.br.pos = 8 * ((s.br.pos + 7) / 8) - s.br.pos := by omega
  refine ⟨by simp [decodeCommand], ?_, ?_⟩
  · rw [exec_brAlign_of_ready hr, hnext, hdiscarded]
    rfl
  · unfold Br.Inv at hin
    omega

/-- Settles O27. -/
theorem brInitConstructsReader : Obligations.BrInitConstructsReader := by
  intro arg data s
  refine ⟨by simp [decodeCommand, lowHalf], ?_⟩
  have hlen : (data.extractLsb' 0 32).toNat = data.toNat % 2 ^ 32 := by simp
  rw [← hlen]
  rfl

end Sys2Proof.Machine

/-! Proofs of the statements of spec/42_compressor.md: the index table's candidate (R175 to R179), the codes of the
value step (R173, R181 to R185) and the commands of `CMP` (R170 to R172, R191 to R194). -/

namespace Sys2Proof

/-! ### Agreeing low bits -/

/-- A word ends in at least `n` zeros exactly if `2 ^ n` divides its number; 64 zeros are those of 0 (R18, D8). -/
theorem le_ctz64_iff {n : Nat} (hn : n ≤ 64) (x : Value) : n ≤ ctz64 x ↔ 2 ^ n ∣ x.toNat := by
  by_cases hx : x = 0
  · subst hx
    have hzeros : ctz64 (0 : Value) = 64 := by decide
    rw [hzeros]
    exact iff_of_true hn (dvd_zero _)
  · obtain ⟨-, hdvd, hnot⟩ := ctz64_spec hx
    refine ⟨fun hle => (pow_dvd_pow 2 hle).trans hdvd, fun hd => ?_⟩
    by_contra hlt
    exact hnot ((pow_dvd_pow 2 (by omega)).trans hd)

/-- Two words differ in no bit below `n` exactly if they are equal modulo `2 ^ n`. -/
theorem two_pow_dvd_xor_iff (v u : Value) (n : Nat) :
    2 ^ n ∣ (v ^^^ u).toNat ↔ v.toNat % 2 ^ n = u.toNat % 2 ^ n := by
  rw [BitVec.toNat_xor, Nat.dvd_iff_mod_eq_zero, Nat.xor_mod_two_pow, Nat.xor_eq_zero_iff]

/-- More than `THR` low bits agree exactly if the keys do (R11, R177). -/
theorem threshold_lt_ctz64_xor_iff {L : Nat} (hL : L ≤ maxL) (v u : Value) :
    threshold L < ctz64 (v ^^^ u) ↔ keyOf L v = keyOf L u := by
  have hmax : maxL = 21 := rfl
  have hwidth : threshold L + 1 ≤ 64 := by unfold threshold; omega
  rw [← Nat.succ_le_iff, le_ctz64_iff hwidth, two_pow_dvd_xor_iff]
  rfl

/-! ### What is left of a difference between its zeros -/

/-- Shifted down by its trailing zeros, a word fits the bits below its leading zeros' bucket and is odd (R183). -/
theorem shifted_delta_fits {x : Value} (hx : x ≠ 0) :
    x.toNat / 2 ^ ctz64 x < 2 ^ (64 - bucket (bucketIndex (clz64 x)) - ctz64 x) ∧ x.toNat / 2 ^ ctz64 x % 2 = 1 := by
  obtain ⟨-, -, hhigh⟩ := clz64_spec hx
  obtain ⟨-, ⟨q, hq⟩, hnot⟩ := ctz64_spec hx
  have hbucket := bucket_bucketIndex_le (clz64 x)
  have hsum := clz64_add_ctz64_lt hx
  constructor
  · apply Nat.div_lt_of_lt_mul
    rw [← pow_add]
    exact hhigh.trans_le (Nat.pow_le_pow_right (by decide) (by omega))
  · rw [hq, Nat.mul_div_cancel_left _ (Nat.two_pow_pos _)]
    by_contra heven
    refine hnot ?_
    rw [hq, pow_succ]
    exact Nat.mul_dvd_mul_left _ (by omega)

end Sys2Proof

namespace Sys2Proof.Machine

theorem mod_windowSize_lt (p L : Nat) : p % windowSize L < windowSize L := Nat.mod_lt p (windowSize_pos L)

/-! ### The candidate (R175 to R179) -/

theorem Cmp.candidate_of_indexed {c : Cmp} {v : Value} (h : c.Indexed v) :
    c.candidate v = { indexed := true, slot := c.entryOf v % windowSize c.L, delta := c.entryDelta v } :=
  if_pos h

theorem Cmp.candidate_of_not_indexed {c : Cmp} {v : Value} (h : ¬ c.Indexed v) :
    c.candidate v = { indexed := false, slot := c.gidx % windowSize c.L, delta := c.lastDelta v } :=
  if_neg h

/-- The indexed candidate is accepted exactly if the entry's position is in the window and its slot holds the key
(R177, R178). -/
theorem Cmp.indexed_iff {c : Cmp} (hL : c.L ≤ maxL) (hle : ∀ k, c.tab.read k ≤ c.gidx) (v : Value) :
    c.Indexed v ↔ c.Live (c.entryOf v) ∧ keyOf c.L (c.at (c.entryOf v)) = keyOf c.L v := by
  have hentry : c.entryOf v ≤ c.gidx := hle _
  rw [Cmp.Indexed, Cmp.entryDelta, threshold_lt_ctz64_xor_iff hL, Cmp.Live, Cmp.at, eq_comm (a := keyOf c.L v)]
  simp [hentry]

/-- The table names the latest live position of a key, and that position holds the key (R179). -/
theorem Cmp.Inv.entry_of_live {c : Cmp} (h : c.Inv) (hf : c.first = false) {v : Value} {p : Nat} (hp : c.Live p)
    (hkey : keyOf c.L (c.at p) = keyOf c.L v) :
    p ≤ c.entryOf v ∧ c.Live (c.entryOf v) ∧ keyOf c.L (c.at (c.entryOf v)) = keyOf c.L v := by
  have hlatest : p ≤ c.entryOf v := by
    have := h.live_entries hf p hp
    rwa [hkey] at this
  have hlive : c.Live (c.entryOf v) := by
    have := hp.2
    exact ⟨h.entries_le _, by omega⟩
  refine ⟨hlatest, hlive, ?_⟩
  by_cases hzero : c.entryOf v = 0
  · have hpos : c.entryOf v = p := by omega
    rw [hpos, hkey]
  · exact h.entries_live hf _ hlive.2 hzero

/-- Settles O38: the entry of a key is the latest live position with it (R179), and accepting it compares the keys. -/
theorem indexedCandidateIsMostRecentKey : Obligations.IndexedCandidateIsMostRecentKey := by
  intro c v h hf
  have hindexed := Cmp.indexed_iff h.L_le h.entries_le v
  refine ⟨⟨fun hi => ⟨_, hindexed.mp hi⟩, ?_⟩, fun hi => ?_⟩
  · rintro ⟨p, hp, hkey⟩
    exact hindexed.mpr (h.entry_of_live hf hp hkey).2
  · obtain ⟨hlive, hkey⟩ := hindexed.mp hi
    exact ⟨hlive, hkey, fun p hp hpkey => (h.entry_of_live hf hp hpkey).1⟩

/-- Without an indexed candidate the value differs from the one stored last, which is live and would have been found
(R181). -/
theorem Cmp.Inv.lastDelta_ne_zero {c : Cmp} (h : c.Inv) (hf : c.first = false) {v : Value} (hi : ¬ c.Indexed v) :
    c.lastDelta v ≠ 0 := by
  intro hzero
  have hsame : c.at c.gidx = v := BitVec.xor_eq_zero_iff.mp hzero
  have hlive : c.Live c.gidx := ⟨le_rfl, by rw [Nat.sub_self]; exact windowSize_pos _⟩
  exact hi ((Cmp.indexed_iff h.L_le h.entries_le v).mpr (h.entry_of_live hf hlive (by rw [hsame])).2)

/-! ### The code of a value (R173, R180 to R185) -/

theorem Cmp.codeOf_first {c : Cmp} (hf : c.first = true) (v : Value) : c.codeOf v = .raw64 v := if_pos hf

theorem Cmp.codeOf_rep {c : Cmp} (hf : c.first = false) {v : Value} (hi : c.Indexed v) (hd : c.entryDelta v = 0) :
    c.codeOf v = .rep (BitVec.ofNat 21 (c.entryOf v % windowSize c.L)) := by
  simp [Cmp.codeOf, hf, Cmp.candidate_of_indexed hi, hd]

theorem Cmp.codeOf_idx {c : Cmp} (hf : c.first = false) {v : Value} (hi : c.Indexed v) (hd : c.entryDelta v ≠ 0) :
    c.codeOf v = .idx (BitVec.ofNat 21 (c.entryOf v % windowSize c.L)) (bucketIndex (clz64 (c.entryDelta v)))
      (BitVec.ofNat 6 (64 - bucket (bucketIndex (clz64 (c.entryDelta v))) - ctz64 (c.entryDelta v)))
      (c.entryDelta v >>> ctz64 (c.entryDelta v)) := by
  have hd' : ¬ c.entryDelta v = 0#64 := hd
  simp [Cmp.codeOf, hf, Cmp.candidate_of_indexed hi, hd']

theorem Cmp.codeOf_same {c : Cmp} (hf : c.first = false) {v : Value} (hi : ¬ c.Indexed v) (hd : c.lastDelta v ≠ 0)
    (hz : bucket (bucketIndex (clz64 (c.lastDelta v))) = c.slz) : c.codeOf v = .same (c.lastDelta v) := by
  have hd' : ¬ c.lastDelta v = 0#64 := hd
  simp [Cmp.codeOf, hf, Cmp.candidate_of_not_indexed hi, hd', hz]

theorem Cmp.codeOf_new {c : Cmp} (hf : c.first = false) {v : Value} (hi : ¬ c.Indexed v) (hd : c.lastDelta v ≠ 0)
    (hz : bucket (bucketIndex (clz64 (c.lastDelta v))) ≠ c.slz) :
    c.codeOf v = .new (bucketIndex (clz64 (c.lastDelta v))) (c.lastDelta v) := by
  have hd' : ¬ c.lastDelta v = 0#64 := hd
  simp [Cmp.codeOf, hf, Cmp.candidate_of_not_indexed hi, hd', hz]

/-! ### The adding commands (R171, R172) -/

/-- A command on an accepting compressor whose body overruns stores nothing at or beyond the capacity (R140, R280). -/
theorem overruns_of_exec {i : Instr} {s : State} {body : Except FaultCode Cmp}
    (hi : exec i s = .next (s.compressorStep body)) (ha : s.cmp.accepts = true)
    (hb : body = .error .outputOverrun) : Overruns i s := by
  subst hb
  exact ⟨_, hi.trans (congrArg _ (State.compressorStep_error ha)), rfl,
    fun a hcap => Memory.read_scramble _ _ _ _ _ hcap⟩

/-- Both adding commands run the value step. -/
theorem AddsValue.exec_eq {i : Instr} {v : Value} (hi : AddsValue i v) (s : State) :
    exec i s = .next (s.compressorStep (s.cmp.compressValue v)) := by
  rcases hi with rfl | rfl <;> rfl

/-- The compressor after the bits of a code are written, before the value is stored (R188, R189). -/
def Cmp.coded (c : Cmp) (w : Bw) (n : Nat) (code : Code) : Cmp :=
  { c with bw := w, size := c.size + n, slz := slzAfter c.slz code }

/-- An adding command appends the bits of the value's code and stores the value, or overruns (R197). -/
theorem AddsValue.exec_spec {i : Instr} {v : Value} (hi : AddsValue i v) {s : State} (ha : s.cmp.accepts = true)
    (h : s.cmp.Inv) {code : Code} (hc : s.cmp.codeOf v = code) {bits : Bits}
    (hb : encodeCode s.cmp.codeCtx code = bits) :
    (s.cmp.bw.HasRoom bits.length →
      ∃ w, exec i s = .next ({ s with cmp := (s.cmp.coded w bits.length code).store v }.respond .cmp .ok 0) ∧
        s.cmp.bw.Appends w bits) ∧
    (¬ s.cmp.bw.HasRoom bits.length → Overruns i s) := by
  subst hc hb
  obtain ⟨hfits, hfull⟩ := Cmp.compressValue_spec h.writer v
  refine ⟨fun hroom => ?_, fun hroom => overruns_of_exec (hi.exec_eq s) ha (hfull hroom)⟩
  obtain ⟨w, happ, -, he⟩ := hfits hroom
  exact ⟨w, by rw [hi.exec_eq, he, State.compressorStep_ok ha]; rfl, happ⟩

/-- After the first value, the picked code says which bits are written and which bucket is stored (R187, R188). -/
theorem AddsValue.writesCode {i : Instr} {v : Value} (hi : AddsValue i v) {s : State} (ha : s.cmp.accepts = true)
    (h : s.cmp.Inv) (hf : s.cmp.first = false) {code : Code} (hc : s.cmp.codeOf v = code) {bits : Bits}
    (hb : encodeCode s.cmp.codeCtx code = bits) : WritesCode i s v bits (slzAfter s.cmp.slz code) := by
  obtain ⟨hfits, hfull⟩ := hi.exec_spec ha h hc hb
  refine ⟨fun hroom => ?_, hfull⟩
  obtain ⟨w, he, happ⟩ := hfits hroom
  have hlater : (s.cmp.coded w bits.length code).first = false := hf
  exact ⟨w, by rw [he, Cmp.store_of_later hlater]; rfl, happ⟩

/-- Settles O33: before the first value the code is the raw one and the value goes to slot 0. -/
theorem cmpFirstValueIsRaw : Obligations.CmpFirstValueIsRaw := by
  intro arg i v s hi ha h hf
  obtain ⟨hgidx, hcur, hslz, -⟩ := h.fresh hf
  obtain ⟨hfits, hfull⟩ := hi.exec_spec ha h (Cmp.codeOf_first hf v) rfl
  rw [encodeCode, natBits_length] at hfits hfull
  refine ⟨⟨by simp [decodeCommand], by simp [decodeCommand]⟩, ⟨hcur, hgidx, hslz⟩, fun hroom => ?_, hfull⟩
  obtain ⟨w, he, happ⟩ := hfits hroom
  have hfirst : (s.cmp.coded w 64 (.raw64 v)).first = true := hf
  exact ⟨w, by rw [he, Cmp.store_of_first hfirst]; rfl, by rwa [fieldBits_eq_natBits]⟩

/-- Settles O34: an equal reference that is not an indexed one would be the value stored last, which the table names. -/
theorem cmpRepeatIsRep : Obligations.CmpRepeatIsRep := by
  intro i v s hi ha h hf
  refine ⟨fun hindexed hdelta => hi.writesCode ha h hf (Cmp.codeOf_rep hf hindexed hdelta) ?_,
    fun hindexed => h.lastDelta_ne_zero hf hindexed⟩
  rw [encodeCode, toNat_ofNat_slot (mod_windowSize_lt _ _) h.L_le, fieldBits_eq_natBits]
  rfl

/-- The bits of `IDX` for a difference: the packed field and what is left of the difference between its zeros (R183). -/
theorem encodeCode_idx_delta {ctx : CodeCtx} (hL : ctx.L ≤ maxL) (p : Nat) {x : Value} (hx : x ≠ 0)
    (hsig : 64 - bucket (bucketIndex (clz64 x)) - ctz64 x < 64) :
    encodeCode ctx (.idx (BitVec.ofNat 21 (p % windowSize ctx.L)) (bucketIndex (clz64 x))
        (BitVec.ofNat 6 (64 - bucket (bucketIndex (clz64 x)) - ctz64 x)) (x >>> ctz64 x)) =
      fieldBits (512 * (windowSize ctx.L + p % windowSize ctx.L) + 64 * (bucketIndex (clz64 x)).toNat +
          (64 - bucket (bucketIndex (clz64 x)) - ctz64 x)) (ctx.L + 11) ++
        fieldBits (x.toNat / 2 ^ ctz64 x) (64 - bucket (bucketIndex (clz64 x)) - ctz64 x) := by
  rw [encodeCode, toNat_ofNat_slot (mod_windowSize_lt _ _) hL, sigWidth_idx hx, BitVec.toNat_ofNat,
    Nat.mod_eq_of_lt hsig, BitVec.toNat_ushiftRight, Nat.shiftRight_eq_div_pow, fieldBits_eq_natBits, fieldBits_eq_natBits]

/-- Settles O35: the bounds follow from the `L + 7` low bits that the candidate agrees in and from the zero counts. -/
theorem cmpIndexedDeltaIsIdx : Obligations.CmpIndexedDeltaIsIdx := by
  rintro i v s lz tz hi ha h hf hindexed hdelta rfl rfl
  have hmin : s.cmp.L + 7 ≤ ctz64 (s.cmp.entryDelta v) := by
    have := hindexed.2
    unfold threshold at this
    omega
  have hmax := (ctz64_spec hdelta).1
  have hsum := clz64_add_ctz64_lt hdelta
  have hbucket := bucket_bucketIndex_le (clz64 (s.cmp.entryDelta v))
  have hlzc := (bucketIndex (clz64 (s.cmp.entryDelta v))).isLt
  have hslot := mod_windowSize_lt (s.cmp.entryOf v) s.cmp.L
  have hpow := two_pow_add_nine s.cmp.L
  have hpow' : 2 ^ (s.cmp.L + 10) = 2 * 2 ^ (s.cmp.L + 9) := by rw [← pow_succ']
  exact ⟨⟨hmin, hmax⟩, by omega, ⟨by omega, by omega⟩, shifted_delta_fits hdelta, ⟨by omega, by omega⟩,
    hi.writesCode ha h hf (Cmp.codeOf_idx hf hindexed hdelta)
      (encodeCode_idx_delta (ctx := s.cmp.codeCtx) h.L_le _ hdelta (by omega))⟩

/-- Settles O36: the payload width of `SAME` is that of the stored bucket. -/
theorem cmpStoredBucketIsSame : Obligations.CmpStoredBucketIsSame := by
  rintro i v s lz hi ha h hf hindexed hdelta hlz rfl
  refine hi.writesCode ha h hf (Cmp.codeOf_same hf hindexed hdelta hlz.symm) ?_
  rw [fieldBits_eq_natBits, fieldBits_eq_natBits]
  rfl

/-- Settles O37: the payload width of `NEW` is that of its own bucket, which is stored. -/
theorem cmpOtherBucketIsNew : Obligations.CmpOtherBucketIsNew := by
  rintro i v s lz hi ha h hf hindexed hdelta rfl hlz
  refine hi.writesCode ha h hf (Cmp.codeOf_new hf hindexed hdelta hlz) ?_
  rw [fieldBits_eq_natBits, fieldBits_eq_natBits]
  rfl

/-! ### Closing (R191, R192) -/

theorem Cmp.store_win (c : Cmp) (v : Value) :
    (c.store v).win = c.win.write (if c.first then 0 else (c.cur + 1) % windowSize c.L) v := by
  unfold Cmp.store; split <;> rfl

theorem Cmp.store_cur (c : Cmp) (v : Value) :
    (c.store v).cur = if c.first then c.cur else (c.cur + 1) % windowSize c.L := by
  unfold Cmp.store; split <;> rfl

theorem Cmp.store_tab (c : Cmp) (v : Value) :
    (c.store v).tab = c.tab.write (keyOf c.L v) (if c.first then 0 else c.gidx + 1) := by
  unfold Cmp.store; split <;> rfl

/-- Storing a value does not depend on the writer. -/
theorem Cmp.coded_store_setWriter (c : Cmp) (w w' : Bw) (n : Nat) (code : Code) (v : Value) :
    { (c.coded w n code).store v with bw := w' } = (c.coded w' n code).store v := by
  cases hf : c.first <;> simp [Cmp.coded, Cmp.store, hf]

/-- The compressor after a close, with the writer as the close leaves it (R191). -/
def Cmp.closedWith (c : Cmp) (w : Bw) (n : Nat) : Cmp :=
  { (c.coded w n (c.codeOf sentinel)).store sentinel with closed := true }

section
variable (c : Cmp) (w : Bw) (n : Nat)

@[simp] theorem Cmp.closedWith_closed : (c.closedWith w n).closed = true := rfl
@[simp] theorem Cmp.closedWith_first : (c.closedWith w n).first = false := Cmp.store_first _ _
@[simp] theorem Cmp.closedWith_cfg : (c.closedWith w n).cfg = c.cfg := Cmp.store_cfg _ _
@[simp] theorem Cmp.closedWith_fault : (c.closedWith w n).fault = c.fault := Cmp.store_fault _ _
@[simp] theorem Cmp.closedWith_L : (c.closedWith w n).L = c.L := Cmp.store_L _ _
@[simp] theorem Cmp.closedWith_size : (c.closedWith w n).size = c.size + n := Cmp.store_size _ _
@[simp] theorem Cmp.closedWith_bw : (c.closedWith w n).bw = w := Cmp.store_bw _ _
@[simp] theorem Cmp.closedWith_slz : (c.closedWith w n).slz = slzAfter c.slz (c.codeOf sentinel) := Cmp.store_slz _ _

theorem Cmp.closedWith_win : (c.closedWith w n).win =
    c.win.write (if c.first then 0 else (c.cur + 1) % windowSize c.L) sentinel := Cmp.store_win _ _

theorem Cmp.closedWith_cur : (c.closedWith w n).cur = if c.first then c.cur else (c.cur + 1) % windowSize c.L :=
  Cmp.store_cur _ _

theorem Cmp.closedWith_gidx : (c.closedWith w n).gidx = if c.first then c.gidx else c.gidx + 1 := Cmp.store_gidx _ _

theorem Cmp.closedWith_tab : (c.closedWith w n).tab =
    c.tab.write (keyOf c.L sentinel) (if c.first then 0 else c.gidx + 1) := Cmp.store_tab _ _

end

/-- The zero bit and the padding after a stream of `k` bits (R97, R191). -/
def trailerBits (k : Nat) : Bits := List.replicate (1 + padBits (k + 1)) false

/-- The trailer ends at the byte boundary at or above the zero bit. -/
theorem add_length_trailerBits (k : Nat) : k + (trailerBits k).length = 8 * ((k + 1 + 7) / 8) := by
  have := add_padBits (k + 1)
  rw [trailerBits, List.length_replicate]
  omega

/-- Closing is one run of `emit` over the sentinel's code and the trailer (R191). -/
theorem Cmp.close_eq {c : Cmp} (h : c.bw.Inv) {bits : Bits} (hb : encodeCode c.codeCtx (c.codeOf sentinel) = bits) :
    c.close = (c.bw.emit (bits ++ trailerBits (c.bw.total + bits.length))).map (c.closedWith · bits.length) := by
  rw [Bw.emit_append]
  cases he : c.bw.emit bits with
  | error f => simp [Cmp.close, Cmp.compressValue, hb, he, Except.map]
  | ok w₁ =>
    have hvalue : c.compressValue sentinel = .ok ((c.coded w₁ bits.length (c.codeOf sentinel)).store sentinel) := by
      simp [Cmp.compressValue, hb, he, Cmp.coded]
    have htrailer : ((c.coded w₁ bits.length (c.codeOf sentinel)).store sentinel).trailer =
        trailerBits (c.bw.total + bits.length) := by
      obtain ⟨-, happ, -⟩ := Bw.emit_ok h he
      rw [Cmp.trailer_eq, Cmp.store_bw, ← happ.total_eq]
      rfl
    have hwriter : ((c.coded w₁ bits.length (c.codeOf sentinel)).store sentinel).bw = w₁ := Cmp.store_bw _ _
    simp only [Cmp.close, hvalue, htrailer, hwriter]
    cases w₁.emit (trailerBits (c.bw.total + bits.length)) with
    | error f => rfl
    | ok w => simp only [Except.map, Cmp.closedWith, ← Cmp.coded_store_setWriter c w₁ w]

/-- All that closing can do (R191): with room for the sentinel's code and the trailer it appends both; without, it
overruns. -/
theorem Cmp.close_spec {c : Cmp} (h : c.bw.Inv) {bits : Bits}
    (hb : encodeCode c.codeCtx (c.codeOf sentinel) = bits) :
    ((c.bw.total + bits.length + 1 + 7) / 8 ≤ c.bw.cap →
      ∃ w, c.close = .ok (c.closedWith w bits.length) ∧
        c.bw.Appends w (bits ++ trailerBits (c.bw.total + bits.length))) ∧
    (c.bw.cap < (c.bw.total + bits.length + 1 + 7) / 8 → c.close = .error .outputOverrun) := by
  have hroom : c.bw.HasRoom (bits ++ trailerBits (c.bw.total + bits.length)).length ↔
      (c.bw.total + bits.length + 1 + 7) / 8 ≤ c.bw.cap := by
    rw [Bw.HasRoom, List.length_append, ← Nat.add_assoc, add_length_trailerBits,
      Nat.mul_div_cancel_left _ (by decide)]
  obtain ⟨hfits, hfull⟩ := Bw.emit_spec h (bits ++ trailerBits (c.bw.total + bits.length))
  rw [Cmp.close_eq h hb]
  refine ⟨fun hcap => ?_, fun hcap => ?_⟩
  · obtain ⟨w, he, happ, -⟩ := hfits (hroom.mpr hcap)
    exact ⟨w, by rw [he]; rfl, happ⟩
  · rw [hfull (hroom.not.mpr (by omega))]
    rfl

theorem exec_cmpClose (s : State) : exec .cmpClose s = .next (s.compressorStep s.cmp.close) := rfl

/-- Settles O39: the padding brings the writer to a byte boundary, and the sentinel is stored like any value. -/
theorem cmpCloseEndsStream : Obligations.CmpCloseEndsStream := by
  intro arg data s bits ha h hb
  obtain ⟨hcfg, hfault, hopen, -⟩ := s.cmp.accepts_iff.mp ha
  have hsize : s.cmp.size = s.cmp.bw.total := h.size_open hopen
  obtain ⟨hfits, hfull⟩ := Cmp.close_spec h.writer hb.symm
  refine ⟨by simp [decodeCommand], fun hcap => overruns_of_exec (exec_cmpClose s) ha (hfull hcap), fun hcap => ?_⟩
  obtain ⟨w, he, happ⟩ := hfits hcap
  have hend := add_length_trailerBits (s.cmp.bw.total + bits.length)
  have htotal : w.total = 8 * ((s.cmp.size + bits.length + 1 + 7) / 8) := by
    rw [happ.total_eq, List.length_append, ← Nat.add_assoc, hend, hsize]
  obtain ⟨hfree, hacc, hbytes⟩ := happ.aligned (by rw [← happ.total_eq, htotal]; omega)
  have hlength : w.total - (s.cmp.size + bits.length) = 1 + padBits (s.cmp.bw.total + bits.length + 1) := by
    rw [htotal, hsize, ← hend, trailerBits, List.length_replicate]; omega
  have hgidx : (s.cmp.closedWith w bits.length).gidx = if s.cmp.first then 0 else s.cmp.gidx + 1 := by
    rw [Cmp.closedWith_gidx]
    split
    next hf => exact (h.fresh hf).1
    next => rfl
  have hcur : (s.cmp.closedWith w bits.length).cur =
      if s.cmp.first then 0 else (s.cmp.cur + 1) % windowSize s.cmp.L := by
    rw [Cmp.closedWith_cur]
    split
    next hf => exact (h.fresh hf).2.1
    next => rfl
  refine ⟨s.cmp.closedWith w bits.length, ?_, by simp, by simp, by simp [hcfg], by simp [hfault], by simp, by simp,
    by simp [hfree], by simp [hacc], by simp [htotal], ?_, ?_, Cmp.closedWith_win _ _ _, hgidx, ?_, hcur, by simp⟩
  · rw [exec_cmpClose, he, State.compressorStep_ok ha]; rfl
  · simp only [Cmp.closedWith_bw, Cmp.closedWith_size]; omega
  · simpa only [Cmp.closedWith_bw, Cmp.closedWith_size, hlength, trailerBits] using happ
  · rw [hgidx, Cmp.closedWith_tab]

/-- A byte is known from its eight stream bits (R62, R63). -/
theorem Memory.read_eq_of_bits {m : Memory} {a : Nat} {b : Byte}
    (h : ∀ j < 8, m.bit (8 * a + j) = (natBits b.toNat 8).getD j false) : m.read a = b := by
  refine BitVec.eq_of_getLsbD_eq fun i hi => ?_
  have hbit := h (7 - i) (by omega)
  rw [natBits_getD _ _ _ (by omega), Memory.bit, show (8 * a + (7 - i)) / 8 = a by omega,
    show 7 - (8 * a + (7 - i)) % 8 = i by omega, show 8 - 1 - (7 - i) = i by omega] at hbit
  exact hbit

/-- The stream bits of some bytes, lowest address first (R62). -/
def byteBits (bs : List Byte) : Bits := bs.flatMap fun b => natBits b.toNat 8

theorem byteBits_cons (b : Byte) (bs : List Byte) : byteBits (b :: bs) = natBits b.toNat 8 ++ byteBits bs := rfl

theorem byteBits_length (bs : List Byte) : (byteBits bs).length = 8 * bs.length := by
  induction bs with
  | nil => rfl
  | cons b bs ih =>
    rw [byteBits_cons, List.length_append, natBits_length, ih, List.length_cons]
    omega

theorem byteBits_getD (bs : List Byte) {a j : Nat} (ha : a < bs.length) (hj : j < 8) :
    (byteBits bs).getD (8 * a + j) false = (natBits (bs.getD a 0).toNat 8).getD j false := by
  induction bs generalizing a with
  | nil => cases ha
  | cons b bs ih =>
    rw [byteBits_cons]
    cases a with
    | zero => rw [Nat.mul_zero, Nat.zero_add, List.getD_append _ _ _ _ (by simpa using hj), List.getD_cons_zero]
    | succ a =>
      rw [List.getD_append_right _ _ _ _ (by rw [natBits_length]; omega), List.getD_cons_succ,
        ← ih (Nat.lt_of_succ_lt_succ ha), natBits_length]
      congr 1; omega

/-- Whole bytes appended to a writer at a byte boundary stand in its space (R131). -/
theorem Bw.Appends.readBytes_eq {w w' : Bw} {bs : List Byte} {base : Nat} (h : w.Appends w' (byteBits bs))
    (hbase : w.total = 8 * base) : w'.out.readBytes base bs.length = bs := by
  have hend := h.nbytes_eq
  rw [byteBits_length, hbase] at hend
  refine List.ext_getElem (Memory.length_readBytes _ _ _) fun a ha ha' => ?_
  simp only [Memory.readBytes, List.getElem_map, List.getElem_range]
  refine Memory.read_eq_of_bits fun j hj => ?_
  calc w'.out.bit (8 * (base + a) + j)
    _ = w'.streamBit (w.total + (8 * a + j)) := by
      rw [Bw.streamBit, if_pos (by omega), hbase, Nat.mul_add, Nat.add_assoc]
    _ = (byteBits bs).getD (8 * a + j) false := h.new_bits _ (by rw [byteBits_length]; omega)
    _ = (natBits bs[a].toNat 8).getD j false := by
      rw [byteBits_getD bs ha' hj, List.getD_eq_getElem _ _ ha']

/-- Settles O40: the raw sentinel and the trailer make nine whole bytes at the start of the space. -/
theorem emptyStreamIsRawSentinel : Obligations.EmptyStreamIsRawSentinel := by
  intro s ha h hf hcap
  obtain ⟨-, -, hopen, -⟩ := s.cmp.accepts_iff.mp ha
  obtain ⟨-, -, -, hempty, -⟩ := h.fresh hf
  have hsize : s.cmp.size = 0 := (h.size_open hopen).trans hempty
  have hbits : encodeCode s.cmp.codeCtx (s.cmp.codeOf sentinel) = natBits sentinel.toNat 64 := by
    rw [Cmp.codeOf_first hf]; rfl
  obtain ⟨w, he, happ⟩ := (Cmp.close_spec h.writer hbits).1 (by rw [natBits_length, hempty]; omega)
  rw [natBits_length, hempty] at happ
  have hstream : natBits sentinel.toNat 64 ++ trailerBits (0 + 64) = byteBits [0x7F, 0xF8, 0, 0, 0, 0, 0, 0, 0] := by
    decide
  rw [hstream] at happ
  refine ⟨{ s with cmp := s.cmp.closedWith w 64 }.respond .cmp .ok 0, ?_, rfl, ?_, ?_, ?_, ?_⟩
  · rw [exec_cmpClose, he, State.compressorStep_ok ha]; rfl
  all_goals simp only [State.respond_cmp, Cmp.closedWith_size, Cmp.closedWith_bw]
  · rw [hsize]
  · rw [happ.total_eq, byteBits_length, hempty]; rfl
  · rw [happ.nbytes_eq, byteBits_length, hempty]; rfl
  · exact happ.readBytes_eq (base := 0) hempty

/-! ### Construction and read-out (R170, R193, R194) -/

/-- Settles O32. -/
theorem cmpInitConstructsCompressor : Obligations.CmpInitConstructsCompressor := by
  intro l data s
  refine ⟨by simp [decodeCommand, lowHalf], fun hl => ?_, fun hl => ?_⟩
  · exact congrArg _ (if_neg fun hfits => Nat.not_le.mpr hl (of_decide_eq_true hfits))
  · have hcap : (data.extractLsb' 0 32).toNat = data.toNat % 2 ^ 32 := by simp
    rw [← hcap]
    exact congrArg _ (if_pos (decide_eq_true hl))

/-- Settles O41. -/
theorem cmpReadoutChangesNothing : Obligations.CmpReadoutChangesNothing := by
  intro arg data s hr
  exact ⟨by simp [decodeCommand], by simp [decodeCommand], congrArg _ (if_pos hr), congrArg _ (if_pos hr)⟩

end Sys2Proof.Machine

/-! Proofs of the statements of spec/43_decompressor.md: the effects of the codes (R212 to R217), the decoding commands
(R210, R211, R220 to R222) and the round trip through compressor and decompressor (R225). -/

namespace Sys2Proof.Machine

/-! ### The effects of the codes (R212 to R217) -/

section
variable {d : Dec} {slot : Slot} {lzc : BitVec 3} {sig : BitVec 6} {payload : Value} {n : Nat}

theorem Dec.takeRep_of_filled (h : slot.toNat < d.cnt) :
    d.takeRep slot = .ok ({ d with slz := unset }.push (d.win.read slot.toNat)) := if_neg h.not_ge

theorem Dec.takeRep_of_empty (h : d.cnt ≤ slot.toNat) : d.takeRep slot = .error .malformedStream := if_pos h

theorem Dec.takeIdx_of_fits (hw : sigWidth sig + bucket lzc ≤ 64) (hc : slot.toNat < d.cnt) :
    d.takeIdx n slot lzc sig payload =
      .ok ({ d with slz := unset, stz := 64 - sigWidth sig - bucket lzc }.deliver n
        (d.win.read slot.toNat ^^^ (payload <<< (64 - sigWidth sig - bucket lzc)))) :=
  (if_neg hw.not_gt).trans (if_neg hc.not_ge)

theorem Dec.takeIdx_malformed (h : 64 < sigWidth sig + bucket lzc ∨ d.cnt ≤ slot.toNat) :
    d.takeIdx n slot lzc sig payload = .error .malformedStream := by
  unfold Dec.takeIdx
  split_ifs with hw hc
  · rfl
  · rfl
  · exact absurd h (not_or.mpr ⟨hw, hc⟩)

theorem Dec.takeSame_of_stored (h : d.slz ≠ unset) : d.takeSame n payload = .ok (d.deliver n (d.sv ^^^ payload)) :=
  if_neg h

theorem Dec.takeSame_of_unset (h : d.slz = unset) : d.takeSame n payload = .error .malformedStream := if_pos h

/-- What `deliver` does is what the statements say of a delivered value (R219, R222). -/
theorem Dec.delivered_deliver (d : Dec) (n : Nat) (v : Value) : Delivered d (d.deliver n v) v :=
  ⟨fun hv => ⟨_, if_pos hv⟩, fun hv => if_neg hv⟩

end

section
variable {s : State} {c : Code}

/-- A code whose effect succeeds changes the decompressor only. -/
theorem exec_toInstr_ok {d : Dec} (h : s.dec.takeCode s.draws c = .ok d) :
    exec c.toInstr s = .next { s with dec := d } := by
  rw [exec_toInstr, h]; rfl

/-- A code whose effect fails raises its fault (R280). -/
theorem decodingStops_of_takeCode {f : FaultCode} (h : s.dec.takeCode s.draws c = .error f) :
    DecodingStops c.toInstr s f :=
  ⟨s.dec.faulted s.draws f, by rw [exec_toInstr, h]; rfl, rfl, rfl, rfl⟩

end

/-- Settles O43. -/
theorem raw64FillsSlotZero : Obligations.Raw64FillsSlotZero := by
  intro v s
  refine ⟨fun hv => ?_, fun hv => ⟨Config.freeBits s.draws 0, ?_⟩⟩
  · exact exec_toInstr_ok (c := .raw64 v) (congrArg Except.ok (if_neg hv))
  · exact exec_toInstr_ok (c := .raw64 v) (congrArg Except.ok (if_pos hv))

/-- Settles O44: the effect of `REP` is a push without the test for the sentinel. -/
theorem repPushesSlot : Obligations.RepPushesSlot := fun slot _ =>
  ⟨fun h => exec_toInstr_ok (c := .rep slot) (Dec.takeRep_of_filled h),
    fun h => decodingStops_of_takeCode (c := .rep slot) (Dec.takeRep_of_empty h)⟩

/-- Settles O45: the statement's `S` is the width that the count field stands for. -/
theorem idxDeliversShiftedDelta : Obligations.IdxDeliversShiftedDelta := by
  rintro slot lzc sig payload s _ rfl
  refine ⟨fun hw hc => ⟨_, ?_, Dec.delivered_deliver _ s.draws _⟩, fun h => ?_⟩
  · exact exec_toInstr_ok (c := .idx slot lzc sig payload) (Dec.takeIdx_of_fits hw hc)
  · exact decodingStops_of_takeCode (c := .idx slot lzc sig payload) (Dec.takeIdx_malformed h)

/-- Settles O46. -/
theorem sameDeliversDelta : Obligations.SameDeliversDelta := fun payload s =>
  ⟨fun h => ⟨_, exec_toInstr_ok (c := .same payload) (Dec.takeSame_of_stored h), Dec.delivered_deliver _ s.draws _⟩,
    fun h => decodingStops_of_takeCode (c := .same payload) (Dec.takeSame_of_unset h)⟩

/-- Settles O47: the effect of `NEW` has no test that fails. -/
theorem newDeliversDelta : Obligations.NewDeliversDelta := fun lzc payload s =>
  ⟨_, exec_toInstr_ok (c := .new lzc payload) rfl, Dec.delivered_deliver _ s.draws _⟩

end Sys2Proof.Machine

namespace Sys2Proof

/-! ### Codes that the decoder lets through (R103) -/

/-- The tests that a code's effect makes once more: a filled slot, a width that fits, a stored bucket (R103 a to c). -/
def Code.PassesTests (ctx : CodeCtx) : Code → Prop
  | .rep slot => slot.toNat < ctx.cnt
  | .idx slot lzc sig _ => sigWidth sig + bucket lzc ≤ 64 ∧ slot.toNat < ctx.cnt
  | .same _ => ctx.slz ≠ unset
  | .raw64 _ => True
  | .new _ _ => True
  | .term _ => True

/-- Cut to the 21 bits of `Slot`, a slot number does not grow. -/
theorem toNat_ofNat_slot_le (slot : Nat) : (BitVec.ofNat 21 slot).toNat ≤ slot := by
  rw [BitVec.toNat_ofNat]
  exact Nat.mod_le _ _

section
variable {ctx : CodeCtx} {bs more : Bits} {c : Code}

theorem decodeNew_passesTests (h : decodeNew bs = .ok (c, more)) : c.PassesTests ctx := by
  unfold decodeNew at h
  split at h
  next => cases h
  next =>
    split at h
    next => cases h
    next => cases h; trivial

theorem decodeSame_passesTests (h : decodeSame ctx bs = .ok (c, more)) : c.PassesTests ctx := by
  unfold decodeSame at h
  split_ifs at h with hz
  split at h
  next => cases h
  next => cases h; exact hz

theorem decodeIdx_passesTests (h : decodeIdx ctx bs = .ok (c, more)) : c.PassesTests ctx := by
  unfold decodeIdx at h
  split at h
  next => cases h
  next =>
    dsimp only at h
    split_ifs at h with hw hc
    split at h
    next => cases h
    next =>
      cases h
      exact ⟨Nat.le_of_not_gt hw, (toNat_ofNat_slot_le _).trans_lt (Nat.lt_of_not_ge hc)⟩

theorem decodeRep_passesTests (h : decodeRep ctx bs = .ok (c, more)) : c.PassesTests ctx := by
  unfold decodeRep at h
  split at h
  next => cases h
  next =>
    split_ifs at h with hc
    cases h
    exact (toNat_ofNat_slot_le _).trans_lt (Nat.lt_of_not_ge hc)

/-- Whatever the decoder answers passes the tests of its effect, for every window size. -/
theorem decodeCode_passesTests (h : decodeCode ctx bs = .ok (c, more)) : c.PassesTests ctx := by
  match hp : ctx.place with
  | .first =>
    simp only [decodeCode, hp] at h
    split at h
    next => cases h
    next => cases h; trivial
  | .afterSentinel =>
    rw [decodeCode_term bs hp] at h
    unfold decodeTerm at h
    split at h
    next => cases h
    next => cases h; trivial
    next => cases h
  | .later =>
    match bs with
    | [] | [_] => rw [decodeCode_flag_cut hp (by simp)] at h; cases h
    | true :: true :: bs => exact decodeNew_passesTests (decodeCode_new bs hp ▸ h)
    | true :: false :: bs => exact decodeSame_passesTests (decodeCode_same bs hp ▸ h)
    | false :: true :: bs => exact decodeIdx_passesTests (decodeCode_idx bs hp ▸ h)
    | false :: false :: bs => exact decodeRep_passesTests (decodeCode_rep bs hp ▸ h)

end

end Sys2Proof

namespace Sys2Proof.Machine

/-- The effect of a code that passes its tests does not fail. -/
theorem Dec.takeCode_of_passesTests {d : Dec} {c : Code} (h : c.PassesTests d.codeCtx) (used n : Nat) :
    ∃ d', (d.advance used).takeCode n c = .ok d' := by
  cases c with
  | raw64 | new | term => exact ⟨_, rfl⟩
  | rep slot => exact ⟨_, Dec.takeRep_of_filled (d := d.advance used) h⟩
  | idx slot lzc sig payload =>
    obtain ⟨hw, hc⟩ := h
    exact ⟨_, Dec.takeIdx_of_fits (d := d.advance used) hw hc⟩
  | same payload => exact ⟨_, Dec.takeSame_of_stored (d := d.advance used) h⟩

/-- A value step before a code takes that code, and succeeds (R211). -/
theorem Dec.nextValue_of_decodeCode {d : Dec} {c : Code} {more : Bits} (he : d.eos = false)
    (h : decodeCode d.codeCtx d.upcoming = .ok (c, more)) (n : Nat) :
    ∃ d', (d.advance (d.upcoming.length - more.length)).takeCode n c = .ok d' ∧ d.nextValue n = .ok d' := by
  obtain ⟨d', ht⟩ := Dec.takeCode_of_passesTests (decodeCode_passesTests h) (d.upcoming.length - more.length) n
  exact ⟨d', ht, (Dec.nextValue_ok (Dec.fetch_ok he h)).trans ht⟩

/-! ### The decoding commands (R211, R220, R221) -/

theorem exec_decNext (s : State) : exec .decNext s =
    .next (s.decompressorStep (s.dec.nextValue s.draws) fun _ => 0) := rfl

theorem exec_decReadValue (s : State) : exec .decReadValue s =
    .next (s.decompressorStep (s.dec.nextValue s.draws) fun d => if d.eos then endPattern else d.sv) := rfl

theorem exec_decGetValues (s : State) : exec .decGetValues s =
    .next (s.decompressorStep (s.dec.getValues s.draws) fun d => BitVec.ofNat 64 (d.emitted - s.dec.emitted)) := rfl

section
variable {s : State} {d : Dec} {f : FaultCode}

section
variable {i : Instr} {body : Except FaultCode Dec} {data : Dec → BitVec 64}
  (hi : exec i s = .next (s.decompressorStep body data)) (hr : s.dec.ready = true)
include hi hr

/-- A decoding command whose body succeeds answers its data. -/
theorem exec_decoding_ok (h : body = .ok d) : exec i s = .next ({ s with dec := d }.respond .dec .ok (data d)) := by
  rw [hi, h, State.decompressorStep_ok hr]

/-- A decoding command whose body fails raises the fault. -/
theorem exec_decoding_error (h : body = .error f) : exec i s = .next (s.raise .dec f) := by
  rw [hi, h, State.decompressorStep_error hr]

end

/-- The status that reports a fault is not OK (R274). -/
theorem FaultCode.status_ne_ok (h : f ≠ .none) : f.status ≠ .ok := by
  cases f with
  | none => exact absurd rfl h
  | outputOverrun | inputExhausted | malformedStream => decide

/-- All that `DEC_NEXT` on a ready decompressor can come to, told apart by the status of its answer (R211). -/
theorem exec_decNext_cases {a : State} (hr : s.dec.ready = true) (h : exec .decNext s = .next a) :
    (∃ d, s.dec.nextValue s.draws = .ok d ∧ a = { s with dec := d }.respond .dec .ok 0) ∨
    (∃ f, s.dec.nextValue s.draws = .error f ∧ a = s.raise .dec f ∧ a.resp.dec.status ≠ .ok) := by
  cases hn : s.dec.nextValue s.draws with
  | ok d => exact .inl ⟨d, rfl, Host.Outcome.next.inj (h.symm.trans (exec_decoding_ok (exec_decNext _) hr hn))⟩
  | error f =>
    obtain rfl := Host.Outcome.next.inj (h.symm.trans (exec_decoding_error (exec_decNext _) hr hn))
    exact .inr ⟨f, rfl, rfl, FaultCode.status_ne_ok (decodingFault_ne_none (Dec.nextValue_fault hn))⟩

end

/-- Settles O49: the code the decoder reads passes the tests of its effect, so the value step is that effect. -/
theorem decNextTakesCodeAtCursor : Obligations.DecNextTakesCodeAtCursor := by
  intro arg data s c more hr he hd
  obtain ⟨d, ht, hn⟩ := Dec.nextValue_of_decodeCode he hd s.draws
  exact ⟨⟨by simp [decodeCommand], by simp [decodeCommand]⟩, d,
    exec_toInstr_ok (s := { s with dec := s.dec.advance (s.dec.upcoming.length - more.length) }) ht,
    exec_decoding_ok (exec_decNext _) hr hn, exec_decoding_ok (exec_decReadValue _) hr hn⟩

/-- Settles O50: both commands run the same value step, and only the data of the answer differs. -/
theorem decReadValueIsNextThenRead : Obligations.DecReadValueIsNextThenRead := by
  intro arg data s a hr ha
  refine ⟨by simp [decodeCommand], ?_⟩
  rcases exec_decNext_cases hr ha with ⟨d, hn, rfl⟩ | ⟨f, hn, rfl, hfault⟩
  · exact ⟨fun _ => exec_decoding_ok (exec_decReadValue _) hr hn, fun hne => absurd rfl hne⟩
  · exact ⟨fun heq => absurd heq hfault, fun _ => exec_decoding_error (exec_decReadValue _) hr hn⟩

/-! ### The delivery loop (R221) -/

/-- The decompressor with its last value appended to the deliveries and counted (R221). -/
def Dec.queued (d : Dec) : Dec := { d with outq := d.outq ++ [d.sv], emitted := d.emitted + 1 }

section
variable {d d' : Dec} {n : Nat}

/-- The end of the stream ends the loop. -/
theorem Dec.getValues_of_end (hb : d.emitted < d.budget) (hn : d.nextValue n = .ok d') (he : d'.eos = true) :
    d.getValues n = .ok d' := by
  simp [Dec.getValues_step n hb, hn, he]

/-- A value is delivered and the loop goes on. -/
theorem Dec.getValues_of_value (hb : d.emitted < d.budget) (hn : d.nextValue n = .ok d') (he : d'.eos = false) :
    d.getValues n = d'.queued.getValues n := by
  simp [Dec.getValues_step n hb, hn, he, Dec.queued]

theorem Dec.getValues_of_fault {f : FaultCode} (hb : d.emitted < d.budget) (hn : d.nextValue n = .error f) :
    d.getValues n = .error f := by
  simp [Dec.getValues_step n hb, hn]

/-- The loop takes no delivery back. -/
theorem Dec.emitted_le_of_getValues (h : d.getValues n = .ok d') : d.emitted ≤ d'.emitted := by
  unfold Dec.getValues at h
  generalize d.budget - d.emitted = k at h
  induction k generalizing d with
  | zero => cases h; exact le_rfl
  | succ k ih =>
    simp only [Dec.deliverValues] at h
    cases hn : d.nextValue n with
    | error f => rw [hn] at h; cases h
    | ok d₁ =>
      obtain ⟨-, -, hemitted, -⟩ := Dec.nextValue_keeps hn
      simp only [hn] at h
      split at h
      · cases h; exact hemitted.ge
      · exact hemitted.ge.trans ((Nat.le_succ _).trans (ih h))

/-- A decompressor that got as far as a value is still ready. -/
theorem Dec.queued_ready (hr : d.ready = true) (hn : d.nextValue n = .ok d') : d'.queued.ready = true := by
  obtain ⟨-, -, -, -, hcfg, hfault, -⟩ := Dec.nextValue_keeps hn
  rw [← hr, Dec.ready, Dec.ready, ← hcfg, ← hfault]
  rfl

/-- Of the decompressor a fault keeps `cfg` and the input space alone, which no value step changes (R280). -/
theorem State.raise_queued {s : State} (hn : s.dec.nextValue n = .ok d') (f : FaultCode) :
    State.raise { s with dec := d'.queued } .dec f = s.raise .dec f := by
  obtain ⟨-, -, -, -, hcfg, -, used, -, hbr⟩ := Dec.nextValue_keeps hn
  have hfaulted : d'.queued.faulted s.draws f = s.dec.faulted s.draws f := by
    simp only [Dec.faulted, Dec.queued, hcfg, hbr]
  simp only [State.raise, State.respond, hfaulted]

end

/-- Settles O52: the value step changes nothing after the end, and `DEC_GET_VALUES` stops at it. -/
theorem afterEndNothingIsRead : Obligations.AfterEndNothingIsRead := by
  intro s hr he
  have hn := Dec.nextValue_of_eos s.draws he
  have hg : s.dec.getValues s.draws = .ok s.dec := by
    rcases Nat.lt_or_ge s.dec.emitted s.dec.budget with hb | hb
    · exact Dec.getValues_of_end hb hn he
    · exact Dec.getValues_of_spent _ hb
  refine ⟨exec_decoding_ok (exec_decNext _) hr hn, ?_, ?_⟩
  · rw [exec_decoding_ok (exec_decReadValue _) hr hn, if_pos he]; rfl
  · rw [exec_decoding_ok (exec_decGetValues _) hr hg, Nat.sub_self]; rfl

/-- Where the loop goes on, so does the command: its answer counts the value delivered before, its fault is the same. -/
theorem exec_decGetValues_of_value {s b : State} {d : Dec} (hr : s.dec.ready = true)
    (hb : s.dec.emitted < s.dec.budget) (hn : s.dec.nextValue s.draws = .ok d) (he : d.eos = false)
    (hgo : exec .decGetValues { s with dec := d.queued } = .next b) :
    (b.resp.dec.status = .ok → exec .decGetValues s =
      .next { b with resp := { b.resp with dec := ⟨.ok, b.resp.dec.data + 1⟩ } }) ∧
    (b.resp.dec.status ≠ .ok → exec .decGetValues s = .next b) := by
  obtain ⟨-, -, hemitted, -⟩ := Dec.nextValue_keeps hn
  have hready : ({ s with dec := d.queued } : State).dec.ready = true := Dec.queued_ready hr hn
  cases hg : d.queued.getValues s.draws with
  | ok e =>
    obtain rfl := Host.Outcome.next.inj (hgo.symm.trans (exec_decoding_ok (exec_decGetValues _) hready hg))
    have hcount : d.emitted + 1 ≤ e.emitted := Dec.emitted_le_of_getValues hg
    have hanswer : BitVec.ofNat 64 (e.emitted - s.dec.emitted) =
        BitVec.ofNat 64 (e.emitted - (d.emitted + 1)) + 1 := by
      rw [show e.emitted - s.dec.emitted = e.emitted - (d.emitted + 1) + 1 by omega, BitVec.ofNat_add]
      rfl
    refine ⟨fun _ => ?_, fun hne => absurd rfl hne⟩
    rw [exec_decoding_ok (exec_decGetValues _) hr ((Dec.getValues_of_value hb hn he).trans hg), hanswer]
    rfl
  | error f =>
    obtain rfl := Host.Outcome.next.inj (hgo.symm.trans (exec_decoding_error (exec_decGetValues _) hready hg))
    have hfault := FaultCode.status_ne_ok (decodingFault_ne_none (Dec.getValues_fault hg))
    refine ⟨fun heq => absurd heq hfault, fun _ => ?_⟩
    rw [exec_decoding_error (exec_decGetValues _) hr ((Dec.getValues_of_value hb hn he).trans hg),
      State.raise_queued hn]

/-- Settles O53, by what the value step comes to: the loop stops with its fault, at the end, or goes on as the command
does from the decompressor with the value delivered. -/
theorem decGetValuesDeliversOneByOne : Obligations.DecGetValuesDeliversOneByOne := by
  intro s hr
  refine ⟨fun hb => ?_, fun a hb ha hne => ?_, fun a hb ha hok => ?_⟩
  · rw [exec_decoding_ok (exec_decGetValues _) hr (Dec.getValues_of_spent _ hb), Nat.sub_self]; rfl
  · rcases exec_decNext_cases hr ha with ⟨d, -, rfl⟩ | ⟨f, hn, rfl, -⟩
    · exact absurd rfl hne
    · exact exec_decoding_error (exec_decGetValues _) hr (Dec.getValues_of_fault hb hn)
  · rcases exec_decNext_cases hr ha with ⟨d, hn, rfl⟩ | ⟨f, -, -, hfault⟩
    swap
    · exact absurd hok hfault
    obtain ⟨-, -, hemitted, houtq, -⟩ := Dec.nextValue_keeps hn
    refine ⟨fun he => ?_, fun he b hgo => exec_decGetValues_of_value hr hb hn he ?_⟩
    · rw [exec_decoding_ok (exec_decGetValues _) hr (Dec.getValues_of_end hb hn he), hemitted, Nat.sub_self]; rfl
    · rw [← hgo, Dec.queued, houtq, hemitted]; rfl

/-- Settles O54: one turn of the loop uses the budget up. -/
theorem decGetValuesDeliversLastValue : Obligations.DecGetValuesDeliversLastValue := by
  intro arg data s c more hr he hbudget hd
  obtain ⟨d, ht, hn⟩ := Dec.nextValue_of_decodeCode he hd s.draws
  obtain ⟨-, hb, hemitted, houtq, -⟩ := Dec.nextValue_keeps hn
  refine ⟨by simp [decodeCommand], d,
    exec_toInstr_ok (s := { s with dec := s.dec.advance (s.dec.upcoming.length - more.length) }) ht, ?_⟩
  by_cases hend : d.eos = true
  · rw [exec_decoding_ok (exec_decGetValues _) hr (Dec.getValues_of_end (by omega) hn hend), hemitted, Nat.sub_self,
      if_pos hend, if_pos hend]
    rfl
  · have hlast : d.queued.getValues s.draws = .ok d.queued :=
      Dec.getValues_of_spent _ (show d.budget ≤ d.emitted + 1 by omega)
    have hone : d.queued.emitted - s.dec.emitted = 1 := show d.emitted + 1 - s.dec.emitted = 1 by omega
    have hloop := (Dec.getValues_of_value (by omega) hn (by simpa using hend)).trans hlast
    rw [exec_decoding_ok (exec_decGetValues _) hr hloop, hone, if_neg hend, if_neg hend, ← houtq, ← hemitted]
    rfl

/-! ### Construction (R210) -/

theorem exec_decInit {l : BitVec 8} (h : l.toNat ≤ 21) (len budget : BitVec 32) (s : State) :
    exec (.decInit l len budget) s =
      .next ({ s with dec := s.dec.init l.toNat len.toNat budget.toNat }.respond .dec .ok 0) :=
  congrArg _ (if_pos (decide_eq_true h))

/-- Settles O42. -/
theorem decInitConstructsDecompressor : Obligations.DecInitConstructsDecompressor := by
  intro l data s
  refine ⟨by simp [decodeCommand, lowHalf, highHalf], fun hl => ?_, fun hl => ?_⟩
  · exact congrArg _ (if_neg fun hfits => Nat.not_le.mpr hl (of_decide_eq_true hfits))
  · have hlen : (data.extractLsb' 0 32).toNat = data.toNat % 2 ^ 32 := by simp
    have hbudget : (data.extractLsb' 32 32).toNat = data.toNat / 2 ^ 32 := by
      have := data.isLt
      rw [BitVec.extractLsb'_toNat, Nat.shiftRight_eq_div_pow]
      omega
    rw [← hlen, ← hbudget, exec_decInit hl]
    rfl

end Sys2Proof.Machine

namespace Sys2Proof

/-! ### The difference a code carries -/

/-- A difference fits the bits below its leading zeros' bucket (R184, R185). -/
theorem toNat_lt_two_pow_sub_bucket {x : Value} (hx : x ≠ 0) :
    x.toNat < 2 ^ (64 - bucket (bucketIndex (clz64 x))) := by
  obtain ⟨-, -, hhigh⟩ := clz64_spec hx
  have hbucket := bucket_bucketIndex_le (clz64 x)
  exact hhigh.trans_le (Nat.pow_le_pow_right two_pos (by omega))

/-- Shifting the trailing zeros out and in again gives the word back (R183, R216). -/
theorem ushiftRight_ctz64_shiftLeft {x : Value} (hx : x ≠ 0) : (x >>> ctz64 x) <<< ctz64 x = x := by
  obtain ⟨-, hdvd, -⟩ := ctz64_spec hx
  apply BitVec.eq_of_toNat_eq
  rw [BitVec.toNat_shiftLeft, BitVec.toNat_ushiftRight, Nat.shiftRight_eq_div_pow, Nat.shiftLeft_eq,
    Nat.div_mul_cancel hdvd, Nat.mod_eq_of_lt x.isLt]

end Sys2Proof

namespace Sys2Proof.Machine

/-! ### The code the compressor picks, read back -/

/-- After the first value, the picked code names a filled slot holding the value or the difference to it, or the
difference to the value stored last (R180 to R185). -/
theorem Cmp.Inv.codeOf_later {c : Cmp} (h : c.Inv) (hf : c.first = false) (v : Value) :
    (∃ slot : Slot, c.codeOf v = .rep slot ∧ slot.toNat < min (c.gidx + 1) (windowSize c.L) ∧
      c.win.read slot.toNat = v) ∨
    (∃ (slot : Slot) (x : Value), c.codeOf v = .idx slot (bucketIndex (clz64 x))
        (BitVec.ofNat 6 (64 - bucket (bucketIndex (clz64 x)) - ctz64 x)) (x >>> ctz64 x) ∧
      slot.toNat < min (c.gidx + 1) (windowSize c.L) ∧ x ≠ 0 ∧ c.win.read slot.toNat ^^^ x = v) ∨
    (∃ x : Value, c.codeOf v = .same x ∧ bucket (bucketIndex (clz64 x)) = c.slz ∧ x ≠ 0 ∧ c.at c.gidx ^^^ x = v) ∨
    (∃ x : Value, c.codeOf v = .new (bucketIndex (clz64 x)) x ∧ x ≠ 0 ∧ c.at c.gidx ^^^ x = v) := by
  by_cases hi : c.Indexed v
  · have hslot : (BitVec.ofNat 21 (c.entryOf v % windowSize c.L)).toNat = c.entryOf v % windowSize c.L :=
      toNat_ofNat_slot (mod_windowSize_lt _ _) h.L_le
    have hfilled : c.entryOf v % windowSize c.L < min (c.gidx + 1) (windowSize c.L) := by
      have hentry : c.entryOf v ≤ c.gidx := h.entries_le _
      have hle := Nat.mod_le (c.entryOf v) (windowSize c.L)
      exact lt_min (by omega) (mod_windowSize_lt _ _)
    by_cases hd : c.entryDelta v = 0
    · refine .inl ⟨_, Cmp.codeOf_rep hf hi hd, hslot.symm ▸ hfilled, ?_⟩
      rw [hslot]
      exact (BitVec.xor_eq_zero_iff.mp hd).symm
    · refine .inr (.inl ⟨_, _, Cmp.codeOf_idx hf hi hd, hslot.symm ▸ hfilled, hd, ?_⟩)
      rw [hslot, Cmp.entryDelta, BitVec.xor_comm v, ← BitVec.xor_assoc, BitVec.xor_self, BitVec.zero_xor]
  · have hd := h.lastDelta_ne_zero hf hi
    have hback : c.at c.gidx ^^^ c.lastDelta v = v := by
      rw [Cmp.lastDelta, Cmp.at, ← BitVec.xor_assoc, BitVec.xor_self, BitVec.zero_xor]
    by_cases hz : bucket (bucketIndex (clz64 (c.lastDelta v))) = c.slz
    · exact .inr (.inr (.inl ⟨_, Cmp.codeOf_same hf hi hd hz, hz, hd, hback⟩))
    · exact .inr (.inr (.inr ⟨_, Cmp.codeOf_new hf hi hd hz, hd, hback⟩))

/-- The code of a value fits its place (R91, R103). -/
theorem Cmp.Inv.codeOf_wf {c : Cmp} (h : c.Inv) (v : Value) : (c.codeOf v).wf c.codeCtx = true := by
  cases hf : c.first with
  | true =>
    rw [Cmp.codeOf_first hf]
    exact Code.wf_raw64.mpr (by simp [Cmp.codeCtx, hf])
  | false =>
    have hplace : c.codeCtx.place = .later := by simp [Cmp.codeCtx, hf]
    rcases h.codeOf_later hf v with ⟨slot, he, hslot, -⟩ | ⟨slot, x, he, hslot, hx, -⟩ | ⟨x, he, hz, hx, -⟩ |
      ⟨x, he, hx, -⟩ <;> rw [he]
    · exact Code.wf_rep.mpr ⟨hplace, hslot.trans_le (min_le_right _ _), hslot⟩
    · have hsum := clz64_add_ctz64_lt hx
      have hbucket := bucket_bucketIndex_le (clz64 x)
      refine Code.wf_idx.mpr ⟨hplace, hslot.trans_le (min_le_right _ _), hslot, ?_, ?_⟩ <;> rw [sigWidth_idx hx]
      · omega
      · rw [BitVec.toNat_ushiftRight, Nat.shiftRight_eq_div_pow]
        exact (shifted_delta_fits hx).1
    · have hfits := toNat_lt_two_pow_sub_bucket hx
      rw [hz] at hfits
      exact Code.wf_same.mpr ⟨hplace, fun hu => bucket_ne_unset _ (hz.trans hu), hfits⟩
    · exact Code.wf_new.mpr ⟨hplace, toNat_lt_two_pow_sub_bucket hx⟩

/-! ### One value, compressor and decompressor in step (R225) -/

section
variable {c : Cmp} {d : Dec}

/-- After the first value both sides know the same about the next code (R99). -/
theorem InStep.codeCtx_eq (hs : InStep c d) (hf : c.first = false) : d.codeCtx = c.codeCtx := by
  simp [Dec.codeCtx, Cmp.codeCtx, hs.L_eq, hs.slz_eq, hs.cnt_eq hf, hs.pos_eq, hs.eos, hs.first_eq, hf]

/-- The code of the next value fits its place for the decompressor too, and has the same bits there. -/
theorem InStep.codeOf_decodes (hs : InStep c d) (h : c.Inv) (v : Value) :
    (c.codeOf v).wf d.codeCtx = true ∧
      encodeCode d.codeCtx (c.codeOf v) = encodeCode c.codeCtx (c.codeOf v) := by
  cases hf : c.first with
  | true =>
    rw [Cmp.codeOf_first hf]
    exact ⟨Code.wf_raw64.mpr (by simp [Dec.codeCtx, hs.eos, hs.first_eq, hf]), rfl⟩
  | false =>
    rw [hs.codeCtx_eq hf]
    exact ⟨h.codeOf_wf v, rfl⟩

/-- A decompressor facing the code of the next value fetches that code and moves past it. -/
theorem InStep.fetch_codeOf (hs : InStep c d) (h : c.Inv) {v : Value}
    (hfaces : d.br.Faces (encodeCode c.codeCtx (c.codeOf v))) :
    d.fetch = .ok (c.codeOf v, (encodeCode c.codeCtx (c.codeOf v)).length) := by
  obtain ⟨hwf, hbits⟩ := hs.codeOf_decodes h v
  rw [← hbits] at hfaces ⊢
  obtain ⟨rest, hup, -⟩ := Dec.upcoming_of_faces hfaces (Dec.encodeCode_length_le hs.eos hwf)
  rw [Dec.fetch_ok hs.eos (hup ▸ decodeCode_encodeCode hwf rest), hup, List.length_append, Nat.add_sub_cancel_right]

/-- The decompressor past a code, with the bucket the code stores (R189). -/
def Dec.passed (d : Dec) (used : Nat) (code : Code) (stz : Nat) : Dec :=
  { d.advance used with slz := slzAfter d.slz code, stz := stz }

/-- After the first value, the picked code's effect is to deliver the value it was picked for, or to push it from a
filled slot without the sentinel test (R214 to R217). -/
theorem InStep.takeCode_codeOf (hs : InStep c d) (h : c.Inv) (hf : c.first = false) (v : Value) (used n : Nat) :
    ∃ stz, (d.advance used).takeCode n (c.codeOf v) = .ok ((d.passed used (c.codeOf v) stz).deliver n v) ∨
      ((∃ i < d.cnt, d.win.read i = v) ∧
        (d.advance used).takeCode n (c.codeOf v) = .ok ((d.passed used (c.codeOf v) stz).push v)) := by
  have hcnt := hs.cnt_eq hf
  have hslots := hs.slots_eq hf
  have hlast := hs.sv_eq hf
  rcases h.codeOf_later hf v with ⟨slot, he, hslot, hv⟩ | ⟨slot, x, he, hslot, hx, hv⟩ | ⟨x, he, hz, hx, hv⟩ |
    ⟨x, he, hx, hv⟩ <;> rw [he]
  · rw [← hcnt] at hslot
    rw [← hslots _ hslot] at hv
    refine ⟨d.stz, .inr ⟨⟨_, hslot, hv⟩, ?_⟩⟩
    rw [← hv]
    exact Dec.takeRep_of_filled (d := d.advance used) hslot
  · rw [← hcnt] at hslot
    rw [← hslots _ hslot] at hv
    have hsum := clz64_add_ctz64_lt hx
    have hbucket := bucket_bucketIndex_le (clz64 x)
    have hshift : 64 - (64 - bucket (bucketIndex (clz64 x)) - ctz64 x) - bucket (bucketIndex (clz64 x)) = ctz64 x := by
      omega
    have htake := Dec.takeIdx_of_fits (d := d.advance used) (n := n) (payload := x >>> ctz64 x)
      (lzc := bucketIndex (clz64 x)) (by rw [sigWidth_idx hx]; omega) hslot
    rw [sigWidth_idx hx, hshift, ushiftRight_ctz64_shiftLeft hx, Dec.advance_win, hv] at htake
    exact ⟨ctz64 x, .inl htake⟩
  · have hset : d.slz ≠ unset := by rw [hs.slz_eq, ← hz]; exact bucket_ne_unset _
    refine ⟨d.stz, .inl ?_⟩
    rw [← hv, ← hlast]
    exact Dec.takeSame_of_stored (d := d.advance used) hset
  · refine ⟨d.stz, .inl ?_⟩
    rw [← hv, ← hlast]
    rfl

/-- Taking the raw first value and storing it leaves both sides in step (R173, R212). -/
theorem InStep.first_value (hs : InStep c d) (h : c.Inv) (hd : d.Inv) (hf : c.first = true) {v : Value}
    (hv : v ≠ sentinel) {w : Bw} {used : Nat} (hw : w.total = c.bw.total + used) (n k : Nat) :
    InStep ((c.coded w k (.raw64 v)).store v) ((d.advance used).takeRaw n v) := by
  obtain ⟨hgidx, hcur, -, -⟩ := h.fresh hf
  have hW := windowSize_pos c.L
  rw [Cmp.store_of_first (c := c.coded w k (.raw64 v)) hf]
  simp only [Dec.takeRaw, if_neg hv, Cmp.coded, slzAfter]
  constructor
  case L_eq => exact hs.L_eq
  case pos_eq => simp only [Dec.advance_br, hw, hs.pos_eq]
  case eos => exact hs.eos
  case first_eq => rfl
  case slz_eq => exact hs.slz_eq
  case cur_eq => exact fun _ => (hs.cur_first hf).trans hcur.symm
  case cur_first => exact fun _ => hs.cur_first hf
  case cnt_eq =>
    intro _
    simp only [hgidx]
    omega
  case slots_eq =>
    intro _ i hi
    obtain rfl : i = 0 := by simpa using hi
    simp only [Dec.advance_win, Window.read_write hd.win_wf, Window.read_write h.win_wf, if_true]
  case sv_eq =>
    intro _
    simp [Cmp.at, hgidx, Window.read_write h.win_wf]

/-- Pushing and storing a later value leaves both sides in step (R187, R219). -/
theorem InStep.later_value (hs : InStep c d) (h : c.Inv) (hd : d.Inv) (hf : c.first = false) (v : Value) {w : Bw}
    {used : Nat} (hw : w.total = c.bw.total + used) (code : Code) (k stz : Nat) :
    InStep ((c.coded w k code).store v) ((d.passed used code stz).push v) := by
  have hcur : (c.cur + 1) % windowSize c.L = (c.gidx + 1) % windowSize c.L := by rw [h.cur_eq]; simp
  have hcnt := hs.cnt_eq hf
  have hcurd := hs.cur_eq hf
  rw [Cmp.store_of_later (c := c.coded w k code) hf]
  simp only [Dec.push, Dec.passed, Cmp.coded, Dec.advance_L, Dec.advance_cur, Dec.advance_win, Dec.advance_cnt,
    hs.L_eq, hcurd]
  constructor
  case L_eq => rfl
  case pos_eq => simp only [Dec.advance_br, hw, hs.pos_eq]
  case eos => exact hs.eos
  case first_eq => exact hs.first_eq
  case slz_eq => simp only [hs.slz_eq]
  case cur_eq => exact fun _ => rfl
  case cur_first => exact fun hh => absurd (hf.symm.trans hh) (by decide)
  case cnt_eq => intro _; simp only [hcnt]; omega
  case slots_eq =>
    intro _ i hi
    simp only [Window.read_write hd.win_wf, Window.read_write h.win_wf]
    split
    next => rfl
    next hne =>
      refine hs.slots_eq hf i ?_
      rw [hcnt] at hi ⊢
      by_cases hfull : c.gidx + 1 < windowSize c.L
      · rw [hcur, Nat.mod_eq_of_lt hfull] at hne
        simp only at hi
        omega
      · simp only at hi
        omega
  case sv_eq =>
    intro _
    simp only [Cmp.at, ← hcur, Window.read_write h.win_wf, if_true]

/-- Both sides take a value other than the sentinel and are in step again. -/
theorem InStep.takeCode_value (hs : InStep c d) (h : c.Inv) (hd : d.Inv) {v : Value} (hv : v ≠ sentinel) {w : Bw}
    {used n : Nat} (hw : w.total = c.bw.total + used) {d' : Dec}
    (ht : (d.advance used).takeCode n (c.codeOf v) = .ok d') (k : Nat) :
    InStep ((c.coded w k (c.codeOf v)).store v) d' ∧ d'.sv = v := by
  cases hf : c.first with
  | true =>
    rw [Cmp.codeOf_first hf] at ht ⊢
    obtain rfl := Except.ok.inj ht
    refine ⟨hs.first_value h hd hf hv hw n k, ?_⟩
    simp only [Dec.takeRaw, if_neg hv]
  | false =>
    obtain ⟨stz, heffect⟩ := hs.takeCode_codeOf h hf v used n
    obtain rfl : (d.passed used (c.codeOf v) stz).push v = d' := by
      rcases heffect with heffect | ⟨-, heffect⟩
      · rw [Dec.deliver, if_neg hv] at heffect
        exact Except.ok.inj (heffect.symm.trans ht)
      · exact Except.ok.inj (heffect.symm.trans ht)
    exact ⟨hs.later_value h hd hf v hw _ k stz, rfl⟩

/-- The sentinel ends the stream, where no filled slot holds it: a repeat of it would be pushed (R217, R222). -/
theorem InStep.takeCode_sentinel (hs : InStep c d) (h : c.Inv) (hslots : ∀ i < d.cnt, d.win.read i ≠ sentinel)
    {used n : Nat} {d' : Dec} (ht : (d.advance used).takeCode n (c.codeOf sentinel) = .ok d') : d'.eos = true := by
  cases hf : c.first with
  | true =>
    rw [Cmp.codeOf_first hf] at ht
    obtain rfl := Except.ok.inj ht
    rfl
  | false =>
    obtain ⟨stz, heffect | ⟨⟨i, hi, hv⟩, -⟩⟩ := hs.takeCode_codeOf h hf sentinel used n
    · rw [← Except.ok.inj (heffect.symm.trans ht), Dec.deliver, if_pos rfl, Dec.finish_eos]
    · exact absurd hv (hslots i hi)

end

/-- Settles O55: the decoder reads back the very code the compressor has written, and the effect of that code is the
value it was picked for. -/
theorem decoderFollowsCompressor : Obligations.DecoderFollowsCompressor := by
  intro c c' d v n h hd hs hc hfaces
  obtain ⟨w, hemit, rfl⟩ := Cmp.compressValue_ok hc
  obtain ⟨-, happ, -⟩ := Bw.emit_ok h.writer hemit
  obtain ⟨hwf, -⟩ := hs.codeOf_decodes h v
  obtain ⟨d', ht⟩ := Dec.takeCode_of_wf hwf (encodeCode c.codeCtx (c.codeOf v)).length n
  obtain ⟨-, hbudget, hemitted, houtq, -, -, hbr⟩ := Dec.takeCode_sameStream ht
  refine ⟨d', (Dec.nextValue_ok (hs.fetch_codeOf h hfaces)).trans ht, ?_, hemitted, houtq, hbudget,
    fun hv => hs.takeCode_value h hd hv happ.total_eq ht _, ?_⟩
  · rw [hbr, Cmp.store_bw]
    simp only [Dec.advance_br, happ.total_eq, hs.pos_eq]
  · rintro rfl hslots
    exact hs.takeCode_sentinel h hslots ht

end Sys2Proof.Machine

namespace Sys2Proof.Machine

/-! ### What the reader sees of the writer's stream (R157, R225) -/

/-- `w'` holds every bit that `w` has written (R131). -/
structure Bw.Extends (w w' : Bw) : Prop where
  total_le : w.total ≤ w'.total
  bits_eq : ∀ k < w.total, w'.streamBit k = w.streamBit k

theorem Bw.Extends.refl (w : Bw) : w.Extends w := ⟨le_rfl, fun _ _ => rfl⟩

theorem Bw.Extends.trans {w₁ w₂ w₃ : Bw} (h₁ : w₁.Extends w₂) (h₂ : w₂.Extends w₃) : w₁.Extends w₃ :=
  ⟨h₁.total_le.trans h₂.total_le, fun k hk => (h₂.bits_eq k (hk.trans_le h₁.total_le)).trans (h₁.bits_eq k hk)⟩

theorem Bw.Appends.extends {w w' : Bw} {bs : Bits} (h : w.Appends w' bs) : w.Extends w' :=
  ⟨h.total_eq ▸ Nat.le_add_right _ _, h.old_bits⟩

/-- The reader's buffer holds all the bits that the writer has written, wherever the cursor stands. -/
structure Br.Sees (r : Br) (w : Bw) : Prop where
  within : w.total ≤ 8 * r.len
  bits_eq : ∀ k < w.total, r.bitAt k = w.streamBit k

theorem Br.Sees.of_extends {r : Br} {w w' : Bw} (h : r.Sees w') (hx : w.Extends w') : r.Sees w :=
  ⟨hx.total_le.trans h.within, fun k hk => (h.bits_eq k (hk.trans_le hx.total_le)).trans (hx.bits_eq k hk)⟩

/-- A reader whose cursor stands where the bits were appended faces them. -/
theorem Br.Sees.faces {r : Br} {w w' : Bw} {bs : Bits} (h : r.Sees w') (ha : w.Appends w' bs) (hp : r.pos = w.total) :
    r.Faces bs := by
  have hin := h.within
  have hend := ha.total_eq
  refine ⟨by omega, fun j hj => ?_⟩
  rw [h.bits_eq _ (by omega), hp, ha.new_bits j hj]

/-- A new reader over the bytes that a writer at a byte boundary has stored sees all that was written below it. -/
theorem Br.sees_of_stored {r : Br} {w w' : Bw} (hheld : r.held = []) (hx : w.Extends w')
    (hstored : (w.total + 7) / 8 ≤ w'.nbytes) (hlen : (w.total + 7) / 8 ≤ r.len)
    (hbytes : ∀ a < (w.total + 7) / 8, r.inp.read a = w'.out.read a) : r.Sees w := by
  refine ⟨by omega, fun k hk => ?_⟩
  calc r.bitAt k
    _ = w'.out.bit k := by rw [Br.bitAt, Br.byteAt_of_empty hheld, hbytes _ (by omega), Memory.bit]
    _ = w'.streamBit k := by rw [Bw.streamBit, if_pos (by omega)]
    _ = w.streamBit k := hx.bits_eq k hk

/-! ### The compressor's side of the round trip -/

section
variable {c c' : Cmp}

/-- A value step that answers has appended the code of the value (R197). -/
theorem Cmp.Inv.compressValue_appends (h : c.Inv) {v : Value} (he : c.compressValue v = .ok c') :
    c.bw.Appends c'.bw (encodeCode c.codeCtx (c.codeOf v)) := by
  obtain ⟨w, hemit, rfl⟩ := Cmp.compressValue_ok he
  obtain ⟨-, happ, -⟩ := Bw.emit_ok h.writer hemit
  rw [Cmp.store_bw]
  exact happ

/-- Several values leave what was written before (R131, R304). -/
theorem Cmp.Inv.addAll_extends (h : c.Inv) (ho : c.closed = false) {vs : List Value} (he : c.addAll vs = .ok c') :
    c.bw.Extends c'.bw := by
  induction vs generalizing c with
  | nil => cases he; exact .refl _
  | cons v vs ih =>
    simp only [Cmp.addAll] at he
    cases hv : c.compressValue v with
    | error f => rw [hv] at he; cases he
    | ok c₁ =>
      rw [hv] at he
      exact (h.compressValue_appends hv).extends.trans
        (ih (Cmp.compressValue_inv h ho hv) ((Cmp.compressValue_closed hv).trans ho) he)

/-- A closed stream ends at a byte boundary above the sentinel's code, of which its size is the last bit (R191). -/
theorem Cmp.Inv.close_stream (h : c.Inv) (ho : c.closed = false) (he : c.close = .ok c') :
    ∃ c₁, c.compressValue sentinel = .ok c₁ ∧ c₁.bw.Extends c'.bw ∧ c'.size = c₁.bw.total ∧
      (c₁.bw.total + 7) / 8 ≤ c'.bw.nbytes := by
  obtain ⟨c₁, w, hvalue, hemit, rfl⟩ := Cmp.close_ok he
  have h₁ := Cmp.compressValue_inv h ho hvalue
  obtain ⟨-, happ, -⟩ := Bw.emit_ok h₁.writer hemit
  have hbytes := happ.nbytes_eq
  rw [Cmp.trailer_eq, List.length_replicate] at hbytes
  have hpad := add_padBits (c₁.bw.total + 1)
  refine ⟨c₁, hvalue, happ.extends, h₁.size_open ((Cmp.compressValue_closed hvalue).trans ho), ?_⟩
  show _ ≤ w.nbytes
  omega

end

/-! ### The commands of a whole stream -/

/-- A compressor that no add and no close can change any more: faulted, or otherwise not accepting (R174). -/
theorem State.after_adds_of_refusing {s : State} {adds : List Instr} {vs : List Value} (ha : s.cmp.accepts = false)
    (hadds : List.Forall₂ AddsValue adds vs) : (s.after (adds ++ [.cmpClose])).cmp = s.cmp := by
  induction hadds generalizing s with
  | nil =>
    simp only [List.nil_append, State.after, exec_cmpClose, State.compressorStep_refused ha, State.refuse_cmp]
  | cons hi _ ih =>
    simp only [List.cons_append, State.after, hi.exec_eq, State.compressorStep_refused ha]
    exact ih ha

/-- The position after the next value (R173, R187). -/
def Cmp.nextPosition (c : Cmp) : Nat := if c.first then c.gidx else c.gidx + 1

theorem Cmp.accepts_of_nextPosition {c : Cmp} (hr : c.ready = true) (ho : c.closed = false)
    (hp : c.nextPosition ≤ lastPosition) : c.accepts = true := by
  obtain ⟨hcfg, hfault⟩ := c.ready_iff.mp hr
  refine c.accepts_iff.mpr ⟨hcfg, hfault, ho, ?_⟩
  unfold Cmp.nextPosition at hp
  cases hf : c.first with
  | true => exact .inl rfl
  | false => rw [hf] at hp; exact .inr hp

/-- A value step keeps the flags and advances the position by one. -/
theorem Cmp.compressValue_keeps {c c' : Cmp} {v : Value} (he : c.compressValue v = .ok c') :
    c'.ready = c.ready ∧ c'.closed = c.closed ∧ c'.nextPosition = c.nextPosition + 1 := by
  obtain ⟨w, -, rfl⟩ := Cmp.compressValue_ok he
  refine ⟨by simp only [Cmp.ready, Cmp.store_cfg, Cmp.store_fault], Cmp.store_closed _ _, ?_⟩
  simp only [Cmp.nextPosition, Cmp.store_first, Cmp.store_gidx]
  rfl

/-- A fault stops the compressor. -/
theorem State.raise_cmp_refuses {s : State} {f : FaultCode} (hf : f ≠ .none) :
    (s.raise .cmp f).cmp.accepts = false := by
  refine Bool.eq_false_iff.mpr fun ha => hf ?_
  obtain ⟨-, hfault, -⟩ := Cmp.accepts_iff _ |>.mp ha
  exact hfault

/-- Commands that add some values and close, and end without fault, have run the adds and the close (R191, R304). -/
theorem State.after_adds_close {s : State} {adds : List Instr} {vs : List Value}
    (hadds : List.Forall₂ AddsValue adds vs) (hr : s.cmp.ready = true) (ho : s.cmp.closed = false)
    (hp : s.cmp.nextPosition + vs.length ≤ lastPosition)
    (hfault : (s.after (adds ++ [.cmpClose])).cmp.fault = .none) :
    ∃ c, s.cmp.addAll vs = .ok c ∧ c.close = .ok (s.after (adds ++ [.cmpClose])).cmp := by
  have ha := Cmp.accepts_of_nextPosition hr ho (Nat.le_of_add_right_le hp)
  induction hadds generalizing s with
  | nil =>
    refine ⟨s.cmp, rfl, ?_⟩
    simp only [List.nil_append, State.after, exec_cmpClose] at hfault ⊢
    cases hc : s.cmp.close with
    | ok c => rw [State.compressorStep_ok ha]; rfl
    | error f =>
      obtain rfl := Cmp.close_error hc
      rw [hc, State.compressorStep_error ha] at hfault
      cases hfault
  | @cons i v adds vs hi hadds ih =>
    simp only [List.cons_append, State.after, hi.exec_eq] at hfault ⊢
    cases hv : s.cmp.compressValue v with
    | ok c₁ =>
      obtain ⟨hr₁, ho₁, hp₁⟩ := Cmp.compressValue_keeps hv
      rw [hv, State.compressorStep_ok ha] at hfault
      rw [State.compressorStep_ok ha]
      simp only [Cmp.addAll, hv]
      rw [List.length_cons] at hp
      have hroom : c₁.nextPosition + vs.length ≤ lastPosition := by omega
      exact ih (s := { s with cmp := c₁ }.respond .cmp .ok 0) (hr₁.trans hr) (ho₁.trans ho) hroom hfault
        (Cmp.accepts_of_nextPosition (hr₁.trans hr) (ho₁.trans ho) (Nat.le_of_add_right_le hroom))
    | error f =>
      obtain rfl := Cmp.compressValue_error hv
      rw [hv, State.compressorStep_error ha,
        State.after_adds_of_refusing (State.raise_cmp_refuses (by decide)) hadds] at hfault
      cases hfault

/-- The commands of a whole stream that end without fault: construction, the adds and the close (R170, R191, R304). -/
theorem State.after_stream {s : State} {l : BitVec 8} {cap : BitVec 32} {adds : List Instr} {vs : List Value}
    (hl : l.toNat ≤ 21) (hadds : List.Forall₂ AddsValue adds vs) (hn : vs.length ≤ lastPosition)
    (hfault : (s.after (.cmpInit l cap :: adds ++ [.cmpClose])).cmp.fault = .none) :
    ∃ c, (s.cmp.init l.toNat cap.toNat).addAll vs = .ok c ∧
      c.close = .ok (s.after (.cmpInit l cap :: adds ++ [.cmpClose])).cmp := by
  have hinit : exec (.cmpInit l cap) s =
      .next ({ s with cmp := s.cmp.init l.toNat cap.toNat }.respond .cmp .ok 0) :=
    congrArg _ (if_pos (decide_eq_true hl))
  simp only [List.cons_append, State.after, hinit] at hfault ⊢
  refine State.after_adds_close (s := { s with cmp := s.cmp.init l.toNat cap.toNat }.respond .cmp .ok 0) hadds rfl rfl
    ?_ hfault
  show 0 + vs.length ≤ lastPosition
  omega

/-! ### The round trip (R225) -/

/-- Compressor and decompressor in step, both in agreement with themselves, no sentinel among the values stored. -/
structure Mirrored (c : Cmp) (d : Dec) : Prop where
  cmp : c.Inv
  isOpen : c.closed = false
  dec : d.Inv
  inStep : InStep c d
  unsent : ∀ i, c.win.read i ≠ sentinel

/-- Freshly constructed with the same window size they are in step. -/
theorem Mirrored.init (c : Cmp) (d : Dec) {L : Nat} (hL : L ≤ maxL) (cap len budget : Nat) (h : c.bw.out.wf = true) :
    Mirrored (c.init L cap) (d.init L len budget) where
  cmp := Cmp.init_inv c hL cap h
  isOpen := rfl
  dec := Dec.init_inv d hL len budget
  inStep :=
    { L_eq := rfl, pos_eq := rfl, eos := rfl, first_eq := rfl, slz_eq := rfl, cur_eq := fun hf => (nomatch hf)
      cur_first := fun _ => rfl, cnt_eq := fun hf => (nomatch hf), slots_eq := fun hf => (nomatch hf)
      sv_eq := fun hf => (nomatch hf) }
  unsent := fun _ => show (0 : Value) ≠ sentinel by decide

section
variable {c c' : Cmp} {d : Dec} {v : Value} {n : Nat}

/-- A value other than the sentinel leaves the window without the sentinel. -/
theorem Mirrored.unsent_compressValue (m : Mirrored c d) (hv : v ≠ sentinel) (he : c.compressValue v = .ok c') :
    ∀ i, c'.win.read i ≠ sentinel := by
  obtain ⟨w, -, rfl⟩ := Cmp.compressValue_ok he
  intro i
  rw [Cmp.store_win, Window.read_write m.cmp.win_wf]
  generalize (if c.first then 0 else (c.cur + 1) % windowSize c.L) = slot
  split
  exacts [hv, m.unsent i]

/-- No filled slot of the decompressor holds the sentinel. -/
theorem Mirrored.slots_unsent (m : Mirrored c d) : ∀ i < d.cnt, d.win.read i ≠ sentinel := by
  intro i hi
  cases hf : c.first with
  | true => rw [m.dec.cnt_first (m.inStep.first_eq.trans hf)] at hi; cases hi
  | false => rw [m.inStep.slots_eq hf i hi]; exact m.unsent i

/-- Delivering the value decoded last changes nothing that the compressor's side knows of. -/
theorem InStep.queued (h : InStep c d) : InStep c d.queued := { h with }

theorem Dec.Inv.queued (h : d.Inv) (hb : d.emitted < d.budget) : d.queued.Inv :=
  { h with
    emitted_le := hb
    outq_length := by
      show (d.outq ++ [d.sv]).length = d.emitted + 1
      rw [List.length_append, h.outq_length]; rfl }

/-- One turn of the loop delivers the value that the compressor has added (R221, R225). -/
theorem Mirrored.getValues_value (m : Mirrored c d) (hv : v ≠ sentinel) (he : c.compressValue v = .ok c')
    (hsees : d.br.Sees c'.bw) (hb : d.emitted < d.budget) (n : Nat) :
    ∃ d', Mirrored c' d' ∧ d.getValues n = d'.getValues n ∧ d'.outq = d.outq ++ [v] ∧ d'.emitted = d.emitted + 1 ∧
      d'.budget = d.budget ∧ ∃ p, d'.br = { d.br with pos := p } := by
  have hfaces := hsees.faces (m.cmp.compressValue_appends he) m.inStep.pos_eq
  obtain ⟨d', hn, -, hemitted, houtq, hbudget, hstep, -⟩ :=
    decoderFollowsCompressor c c' d v n m.cmp m.dec m.inStep he hfaces
  obtain ⟨hstep, hsv⟩ := hstep hv
  obtain ⟨-, -, -, -, -, -, used, -, hbr⟩ := Dec.nextValue_keeps hn
  refine ⟨d'.queued, ⟨Cmp.compressValue_inv m.cmp m.isOpen he, (Cmp.compressValue_closed he).trans m.isOpen,
    (Dec.nextValue_inv m.dec hn).queued (by omega), hstep.queued, m.unsent_compressValue hv he⟩,
    Dec.getValues_of_value hb hn hstep.eos, ?_, ?_, hbudget, _, hbr⟩
  · rw [Dec.queued, houtq, hsv]
  · rw [Dec.queued, hemitted]

/-- The loop delivers the values that were added, in order, and stands where the compressor stands. -/
theorem Mirrored.getValues_addAll {vs : List Value} (m : Mirrored c d) (hvs : sentinel ∉ vs)
    (he : c.addAll vs = .ok c') (hsees : d.br.Sees c'.bw) (hb : d.emitted + vs.length ≤ d.budget) (n : Nat) :
    ∃ d', Mirrored c' d' ∧ d.getValues n = d'.getValues n ∧ d'.outq = d.outq ++ vs ∧
      d'.emitted = d.emitted + vs.length ∧ d'.budget = d.budget ∧ ∃ p, d'.br = { d.br with pos := p } := by
  induction vs generalizing c d with
  | nil => cases he; exact ⟨d, m, rfl, by simp, rfl, rfl, d.br.pos, rfl⟩
  | cons v vs ih =>
    obtain ⟨hv, hvs⟩ := List.ne_and_not_mem_of_not_mem_cons hvs
    rw [List.length_cons] at hb ⊢
    simp only [Cmp.addAll] at he
    cases hc : c.compressValue v with
    | error f => rw [hc] at he; cases he
    | ok c₁ =>
      rw [hc] at he
      have inv₁ := Cmp.compressValue_inv m.cmp m.isOpen hc
      have hsees₁ := hsees.of_extends (inv₁.addAll_extends ((Cmp.compressValue_closed hc).trans m.isOpen) he)
      obtain ⟨d₁, m₁, hloop₁, houtq₁, hemitted₁, hbudget₁, p₁, hbr₁⟩ :=
        m.getValues_value hv.symm hc hsees₁ (by omega) n
      obtain ⟨d', m', hloop, houtq, hemitted, hbudget, p, hbr⟩ :=
        ih m₁ hvs he (by rw [hbr₁]; exact ⟨hsees.within, hsees.bits_eq⟩) (by omega)
      refine ⟨d', m', hloop₁.trans hloop, by rw [houtq, houtq₁]; simp, by omega, hbudget.trans hbudget₁, p, ?_⟩
      rw [hbr, hbr₁]

/-- The loop ends at the budget or, with budget left, at the end of the sentinel's code (R221, R222). -/
theorem Mirrored.getValues_sentinel (m : Mirrored c d) (he : c.compressValue sentinel = .ok c')
    (hsees : d.br.Sees c'.bw) (n : Nat) :
    ∃ d', d.getValues n = .ok d' ∧ d'.outq = d.outq ∧ d'.emitted = d.emitted ∧
      (d.emitted < d.budget → d'.eos = true ∧ d'.br.pos = c'.bw.total) := by
  rcases Nat.lt_or_ge d.emitted d.budget with hb | hb
  · have hfaces := hsees.faces (m.cmp.compressValue_appends he) m.inStep.pos_eq
    obtain ⟨d', hn, hpos, hemitted, houtq, -, -, hend⟩ :=
      decoderFollowsCompressor c c' d sentinel n m.cmp m.dec m.inStep he hfaces
    have hend := hend rfl m.slots_unsent
    exact ⟨d', Dec.getValues_of_end hb hn hend, houtq, hemitted, fun _ => ⟨hend, hpos⟩⟩
  · exact ⟨d, Dec.getValues_of_spent n hb, rfl, rfl, fun hlt => absurd hlt hb.not_gt⟩

end

/-- Settles O56, by induction on the values: each keeps compressor and decompressor in step, and the sentinel's code
comes last. -/
theorem decompressionInvertsCompression : Obligations.DecompressionInvertsCompression := by
  rintro s t r l cap len budget adds vs hcanonical hl hvs hadds rfl hfault hlen hbytes hbudget
  have hcount : vs.length ≤ lastPosition := hbudget.trans (Nat.le_sub_one_of_lt budget.isLt)
  obtain ⟨c, hadd, hclose⟩ := State.after_stream hl hadds hcount hfault
  generalize (s.after (.cmpInit l cap :: adds ++ [.cmpClose])).cmp = c' at *
  have m := Mirrored.init s.cmp r.dec hl cap.toNat len.toNat budget.toNat hcanonical.cmpOut
  obtain ⟨inv, isOpen⟩ := Cmp.addAll_inv m.cmp m.isOpen hadd
  obtain ⟨c₁, hsentinel, hx, hsize, hstored⟩ := inv.close_stream isOpen hclose
  rw [hsize] at hlen hbytes
  have hsees : (r.dec.init l.toNat len.toNat budget.toNat).br.Sees c₁.bw :=
    Br.sees_of_stored rfl hx hstored hlen hbytes
  obtain ⟨d, m₁, hloop, houtq, hemitted, hbudget₁, p, hbr⟩ := m.getValues_addAll hvs hadd
    (hsees.of_extends (inv.compressValue_appends hsentinel).extends) ((Nat.zero_add _).trans_le hbudget) r.draws
  obtain ⟨d', hend, houtq', hemitted', heos⟩ := m₁.getValues_sentinel hsentinel
    (by rw [hbr]; exact ⟨hsees.within, hsees.bits_eq⟩) r.draws
  rw [Dec.init_emitted, Nat.zero_add] at hemitted
  refine ⟨_, _, exec_decInit hl len budget r,
    exec_decoding_ok (exec_decGetValues _) rfl (hloop.trans hend), ?_, ?_, fun hlt => ?_⟩
  · show (⟨.ok, BitVec.ofNat 64 (d'.emitted - 0)⟩ : Resp) = _
    rw [hemitted', hemitted, Nat.sub_zero]
  · exact houtq'.trans houtq
  · obtain ⟨he, hpos⟩ := heos (by rw [hemitted, hbudget₁]; exact hlt)
    exact ⟨he, hpos.trans hsize.symm⟩

end Sys2Proof.Machine

/-! Proofs of the statements of spec/44_framing.md: the worst case of the internal buffer (R251, R259), the frame that
`FRM_COMPRESS` writes (R253), the values that `FRM_DECOMPRESS` delivers (R256), and the round trip (R258). -/

namespace Sys2Proof.Machine

/-! ### The worst case of a frame's stream (R16, R251, R259) -/

/-- The bits written, with 5 more after the first value: the raw code is that much shorter than 69 bits, so every code
adds at most 69 here (R16). -/
def Cmp.charge (c : Cmp) : Nat := c.bw.total + if c.first then 0 else 5

/-- The first code has 64 bits, a later one at most 69 (R16, R173, R186). -/
theorem Cmp.codeOf_length_le {c : Cmp} (hL : c.L ≤ maxL) (v : Value) :
    (encodeCode c.codeCtx (c.codeOf v)).length ≤ if c.first then 64 else 69 := by
  cases hf : c.first with
  | true => rw [Cmp.codeOf_first hf]; exact (natBits_length _ _).le
  | false => exact noLaterCodeExceeds69Bits c v hL hf

/-- A value step whose code the writer takes (R197). -/
theorem Cmp.compressValue_of_emit {c : Cmp} {v : Value} {bits : Bits} {w : Bw}
    (hb : encodeCode c.codeCtx (c.codeOf v) = bits) (hemit : c.bw.emit bits = .ok w) :
    c.compressValue v = .ok ((c.coded w bits.length (c.codeOf v)).store v) := by
  subst hb
  simp only [Cmp.compressValue, hemit, Cmp.coded]

/-- An open stream of at most `n` codes in a buffer of `cap` bytes: its counters agree, and no code is longer than
the worst case (R16, R188). -/
structure Cmp.Within (c : Cmp) (cap n : Nat) : Prop where
  counts : c.Counts
  cap_eq : c.bw.cap = cap
  size_eq : c.size = c.bw.total
  charge_le : c.charge ≤ 69 * n

theorem Cmp.init_within (c : Cmp) {L : Nat} (hL : L ≤ maxL) (cap : Nat) : (c.init L cap).Within cap 0 where
  counts := Cmp.init_counts c hL cap
  cap_eq := rfl
  size_eq := rfl
  charge_le := le_rfl

section
variable {c : Cmp} {cap n : Nat}

/-- A buffer with room for the worst case of one more code and the closing bit takes the code (R16, R197). -/
theorem Cmp.Within.compressValue (h : c.Within cap n) (hcap : 69 * n + 65 ≤ 8 * cap) (v : Value) :
    ∃ c', c.compressValue v = .ok c' ∧ c'.Within cap (n + 1) ∧ c'.first = false := by
  have hlength := Cmp.codeOf_length_le h.counts.L_le v
  generalize hb : encodeCode c.codeCtx (c.codeOf v) = bits at hlength
  have hgrows : c.bw.total + bits.length + 5 ≤ 69 * (n + 1) := by
    have hcharge := h.charge_le
    unfold Cmp.charge at hcharge
    split_ifs at hlength hcharge <;> omega
  obtain ⟨w, hemit, -, htotal, -⟩ := Bw.emit_counts h.counts.writer bits (by rw [Bw.HasRoom, h.cap_eq]; omega)
  have hvalue := Cmp.compressValue_of_emit hb hemit
  obtain ⟨hcounts, hcap', -⟩ := Cmp.compressValue_counts h.counts hvalue
  refine ⟨_, hvalue, ⟨hcounts, hcap'.trans h.cap_eq, ?_, ?_⟩, Cmp.store_first _ _⟩
  · rw [Cmp.store_size, Cmp.store_bw]
    exact (congrArg (· + bits.length) h.size_eq).trans htotal.symm
  · rw [Cmp.charge, Cmp.store_first, Cmp.store_bw]
    exact (congrArg (· + 5) htotal).trans_le hgrows

/-- Several values fit where their worst case does (R16, R304). -/
theorem Cmp.Within.addAll (h : c.Within cap n) (vs : List Value) (hcap : 69 * (n + vs.length) ≤ 8 * cap + 4) :
    ∃ c', c.addAll vs = .ok c' ∧ c'.Within cap (n + vs.length) := by
  induction vs generalizing c n with
  | nil => exact ⟨c, rfl, h⟩
  | cons v vs ih =>
    rw [List.length_cons] at hcap ⊢
    obtain ⟨c₁, hvalue, h₁, -⟩ := h.compressValue (by omega) v
    obtain ⟨c', hadd, h'⟩ := ih h₁ (by omega)
    exact ⟨c', by simp only [Cmp.addAll, hvalue, hadd], by rwa [show n + (vs.length + 1) = n + 1 + vs.length by omega]⟩

/-- The sentinel's code and the trailer fit, and the sentinel's code ends within the worst case (R16, R191). -/
theorem Cmp.Within.close (h : c.Within cap n) (hcap : 69 * n + 65 ≤ 8 * cap) :
    ∃ c', c.close = .ok c' ∧ c'.size ≤ 64 + 69 * n := by
  obtain ⟨c₁, hvalue, h₁, hfirst⟩ := h.compressValue hcap sentinel
  have htotal : c₁.bw.total ≤ 64 + 69 * n := by
    have hcharge : c₁.bw.total + (if c₁.first then 0 else 5) ≤ 69 * (n + 1) := h₁.charge_le
    rw [hfirst, if_neg (by decide)] at hcharge
    omega
  have hpad := add_padBits (c₁.bw.total + 1)
  obtain ⟨w, hemit, -⟩ := Bw.emit_counts h₁.counts.writer c₁.trailer (by
    rw [Bw.HasRoom, Cmp.trailer_eq, List.length_replicate, h₁.cap_eq]
    omega)
  exact ⟨{ c₁ with bw := w, closed := true }, by simp only [Cmp.close, hvalue, hemit], h₁.size_eq.trans_le htotal⟩

end

/-- The internal buffer holds every stream (R251). -/
theorem Framer.compressStream_spec (f : Framer) (vs : List Value) :
    ∃ c₁ c, (f.cmp.init framingL (internalCap vs.length)).addAll vs = .ok c₁ ∧ c₁.close = .ok c ∧
      f.compressStream vs = .ok c ∧ c.size ≤ 64 + 69 * vs.length := by
  have hcap : 69 * vs.length + 65 ≤ 8 * internalCap vs.length := by rw [internalCap, ceilDiv_eight]; omega
  have h₀ := Cmp.init_within f.cmp (L := framingL) (by decide) (internalCap vs.length)
  obtain ⟨c₁, hadd, h₁⟩ := h₀.addAll vs (by omega)
  rw [Nat.zero_add] at h₁
  obtain ⟨c, hclose, hsize⟩ := h₁.close hcap
  exact ⟨c₁, c, hadd, hclose, by simp only [Framer.compressStream, hadd, hclose], hsize⟩

/-- Settles O57: the raw code is 5 bits below the bound of a later one, which leaves the bit of the trailer and the
flush their place. -/
theorem framingNeverOverruns : Obligations.FramingNeverOverruns := by
  intro f vs
  obtain ⟨-, c, -, -, hstream, hsize⟩ := f.compressStream_spec vs
  exact ⟨c, hstream, by rw [payloadBytes, ceilDiv_eight]; omega⟩

end Sys2Proof.Machine

namespace Sys2Proof

/-! ### Little-endian values and byte spaces (R18, R65) -/

/-- Byte `j` of a little-endian number (R18). -/
theorem leBytes_getD (v : Nat) {n j : Nat} (hj : j < n) : ((leBytes v n).getD j 0).toNat = v / 256 ^ j % 256 := by
  induction n generalizing v j with
  | zero => omega
  | succ n ih =>
    cases j with
    | zero => simp [leBytes]
    | succ j =>
      rw [leBytes, List.getD_cons_succ, ih (v / 256) (by omega), Nat.div_div_eq_div_mul, pow_succ']

end Sys2Proof

namespace Sys2Proof.Machine

theorem valueBytes_cons (v : Value) (vs : List Value) : valueBytes (v :: vs) = leBytes v.toNat 8 ++ valueBytes vs := rfl

theorem valueBytes_append (us vs : List Value) : valueBytes (us ++ vs) = valueBytes us ++ valueBytes vs :=
  List.flatMap_append

theorem valueBytes_singleton (v : Value) : valueBytes [v] = leBytes v.toNat 8 := List.append_nil _

@[simp] theorem valueBytes_length (vs : List Value) : (valueBytes vs).length = 8 * vs.length := by
  induction vs with
  | nil => rfl
  | cons v vs ih => rw [valueBytes_cons, List.length_append, leBytes_length, ih, List.length_cons]; omega

/-- Byte `j` of value `i` (R61, R65). -/
theorem valueBytes_getD (vs : List Value) {i j : Nat} (hi : i < vs.length) (hj : j < 8) :
    ((valueBytes vs).getD (8 * i + j) 0).toNat = (vs.getD i 0).toNat / 256 ^ j % 256 := by
  induction vs generalizing i with
  | nil => cases hi
  | cons v vs ih =>
    rw [valueBytes_cons]
    cases i with
    | zero =>
      rw [Nat.mul_zero, Nat.zero_add, List.getD_append _ _ _ _ (by simpa using hj), leBytes_getD _ hj,
        List.getD_cons_zero]
    | succ i =>
      rw [List.getD_append_right _ _ _ _ (by rw [leBytes_length]; omega), leBytes_length, List.getD_cons_succ,
        ← ih (Nat.lt_of_succ_lt_succ hi)]
      congr 3; omega

theorem Memory.readBytes_add (m : Memory) (a k n : Nat) :
    m.readBytes a (k + n) = m.readBytes a k ++ m.readBytes (a + k) n := by
  simp [Memory.readBytes, List.range_add, Nat.add_assoc]

theorem Memory.readBytes_congr {m m' : Memory} {a n : Nat} (h : ∀ i < n, m'.read (a + i) = m.read (a + i)) :
    m'.readBytes a n = m.readBytes a n :=
  List.map_congr_left fun i hi => h i (List.mem_range.mp hi)

theorem Memory.writeBytes_append (m : Memory) (a : Nat) (bs cs : List Byte) :
    m.writeBytes a (bs ++ cs) = (m.writeBytes a bs).writeBytes (a + bs.length) cs := by
  induction bs generalizing m a with
  | nil => rfl
  | cons b bs ih => rw [List.cons_append, Memory.writeBytes, Memory.writeBytes, ih, List.length_cons]; congr 1; omega

@[simp] theorem Memory.readValues_length (m : Memory) (n : Nat) : (m.readValues n).length = n := by
  simp [Memory.readValues]

/-- The bytes of the values read from a space are its bytes (R61, R65). -/
theorem Memory.valueBytes_readValues (m : Memory) (n : Nat) : valueBytes (m.readValues n) = m.readBytes 0 (8 * n) := by
  have value (a : Nat) : leBytes (BitVec.ofNat 64 (leNat (m.readBytes a 8))).toNat 8 = m.readBytes a 8 := by
    have hlt := leNat_lt (m.readBytes a 8)
    have hback := leBytes_leNat (m.readBytes a 8)
    rw [Memory.length_readBytes] at hlt hback
    rwa [BitVec.toNat_ofNat, Nat.mod_eq_of_lt (show _ < 2 ^ 64 from hlt)]
  induction n with
  | zero => rfl
  | succ n ih =>
    have hlast : m.readValues (n + 1) = m.readValues n ++ [BitVec.ofNat 64 (leNat (m.readBytes (8 * n) 8))] := by
      simp [Memory.readValues, List.range_succ]
    rw [hlast, valueBytes_append, valueBytes_singleton, ih, value, Nat.mul_succ, Memory.readBytes_add, Nat.zero_add]

/-- The values of a space are those whose little-endian bytes stand in it (R65). -/
theorem Memory.readValues_eq {m : Memory} {vs : List Value}
    (h : ∀ i < vs.length, ∀ j < 8, (vs.getD i 0).toNat / 256 ^ j % 256 = (m.read (8 * i + j)).toNat) :
    m.readValues vs.length = vs := by
  refine List.ext_getElem (Memory.readValues_length _ _) fun i _ hi => ?_
  have hbytes : m.readBytes (8 * i) 8 = leBytes vs[i].toNat 8 := by
    refine List.ext_getElem (by simp) fun j hj hj' => BitVec.eq_of_toNat_eq ?_
    rw [Memory.length_readBytes] at hj
    rw [← List.getD_eq_getElem _ 0 hj', leBytes_getD _ hj, ← List.getD_eq_getElem _ 0,
      Memory.getD_readBytes _ _ _ _ _ hj, ← h i hi j hj, List.getD_eq_getElem _ _ hi]
  simp only [Memory.readValues, List.getElem_map, List.getElem_range]
  rw [hbytes, leNat_leBytes, Nat.mod_eq_of_lt (show vs[i].toNat < 256 ^ 8 from vs[i].isLt)]
  simp

/-! ### All that `FRM_COMPRESS` can come to (R250, R252, R253) -/

theorem payloadBytes_eq (c : Cmp) : payloadBytes c = (c.size + 7) / 8 := ceilDiv_eight _

theorem frameBytes_length (n : Nat) (c : Cmp) : (frameBytes n c).length = 4 + payloadBytes c := by
  rw [frameBytes, List.length_append, leBytes_length, Memory.length_readBytes]; rfl

theorem frameBytes_getD_count (n : Nat) (c : Cmp) {j : Nat} (hj : j < 4) :
    ((frameBytes n c).getD j 0).toNat = n / 256 ^ j % 256 := by
  rw [frameBytes, List.getD_append _ _ _ _ (by simpa [headerBytes] using hj)]
  exact leBytes_getD n hj

theorem frameBytes_getD_payload (n : Nat) (c : Cmp) {j : Nat} (hj : j < payloadBytes c) :
    (frameBytes n c).getD (4 + j) 0 = c.bw.out.read j := by
  rw [frameBytes, List.getD_append_right _ _ _ _ (by simp [headerBytes]), leBytes_length, headerBytes,
    Nat.add_sub_cancel_left, Memory.getD_readBytes _ _ _ _ _ hj, Nat.zero_add]

section
variable {s : State} {sourceLen destCapacity : BitVec 32} {n : Nat} {c : Cmp}

theorem exec_frmCompress_refused (h : sourceLen.toNat % 8 ≠ 0) :
    exec (.frmCompress sourceLen destCapacity) s = .next (s.refuse .frm) :=
  congrArg _ (if_pos (by simp [wholeValues, h]))

/-- A whole number of values and no room for the header. -/
theorem exec_frmCompress_noHeader (hn : sourceLen.toNat = 8 * n) (hd : destCapacity.toNat < 4) :
    exec (.frmCompress sourceLen destCapacity) s = .next (s.respond .frm .bufferTooSmall 0) :=
  congrArg _ ((if_neg (by simp [wholeValues, hn])).trans (if_pos hd))

/-- A whole number of values and room for the header: the stream is made, and the payload's length decides. -/
theorem exec_frmCompress_stream (hn : sourceLen.toNat = 8 * n) (hd : 4 ≤ destCapacity.toNat)
    (hc : s.frm.compressStream (s.frm.src.readValues n) = .ok c) :
    exec (.frmCompress sourceLen destCapacity) s = .next
      (if destCapacity.toNat < 4 + payloadBytes c then
        { s with frm := { s.frm with cmp := c, dst := s.frm.dst.scramble s.draws 98 destCapacity.toNat } }.respond .frm
          .bufferTooSmall 0
      else
        { s with frm := { s.frm with cmp := c, dst := s.frm.dst.writeBytes 0 (frameBytes n c) } }.respond .frm .ok
          (BitVec.ofNat 64 (4 + payloadBytes c))) := by
  have hcount : sourceLen.toNat / 8 = n := by omega
  refine congrArg _ ((if_neg (by simp [wholeValues, hn])).trans ((if_neg (Nat.not_lt.mpr hd)).trans ?_))
  simp only [hcount, hc]
  rfl

end

/-! ### The compressor's commands make the same stream (R49, R250) -/

theorem Cmp.addAll_ready {c c' : Cmp} {vs : List Value} (h : c.addAll vs = .ok c') : c'.ready = c.ready := by
  induction vs generalizing c with
  | nil => cases h; rfl
  | cons v vs ih =>
    simp only [Cmp.addAll] at h
    cases hv : c.compressValue v with
    | error f => rw [hv] at h; cases h
    | ok c₁ =>
      obtain ⟨hready, -⟩ := Cmp.compressValue_keeps hv
      rw [hv] at h
      exact (ih h).trans hready

/-- A stream that a close has ended is closed, in a compressor as ready as before (R191). -/
theorem Cmp.close_ends {c c' : Cmp} (h : c.close = .ok c') : c'.ready = c.ready ∧ c'.closed = true := by
  obtain ⟨c₁, w, hvalue, -, rfl⟩ := Cmp.close_ok h
  exact ⟨(Cmp.compressValue_keeps hvalue).1, rfl⟩

/-- Adds and a close that all fit leave, run as commands, the compressor that the stream makes (R171, R191, R304). -/
theorem State.after_adds_close_of_ok {s : State} {adds : List Instr} {vs : List Value} {c₁ c : Cmp}
    (hadds : List.Forall₂ AddsValue adds vs) (hr : s.cmp.ready = true) (ho : s.cmp.closed = false)
    (hp : s.cmp.nextPosition + vs.length ≤ lastPosition) (hadd : s.cmp.addAll vs = .ok c₁) (hclose : c₁.close = .ok c) :
    (s.after (adds ++ [.cmpClose])).cmp = c := by
  have ha := Cmp.accepts_of_nextPosition hr ho (Nat.le_of_add_right_le hp)
  induction hadds generalizing s with
  | nil =>
    cases hadd
    simp only [List.nil_append, State.after, exec_cmpClose, hclose, State.compressorStep_ok ha]
    rfl
  | @cons i v adds vs hi hadds ih =>
    simp only [Cmp.addAll] at hadd
    cases hv : s.cmp.compressValue v with
    | error f => rw [hv] at hadd; cases hadd
    | ok c₂ =>
      rw [hv] at hadd
      obtain ⟨hr₂, ho₂, hp₂⟩ := Cmp.compressValue_keeps hv
      rw [List.length_cons] at hp
      have hroom : c₂.nextPosition + vs.length ≤ lastPosition := by omega
      simp only [List.cons_append, State.after, hi.exec_eq, hv, State.compressorStep_ok ha]
      exact ih (s := { s with cmp := c₂ }.respond .cmp .ok 0) (hr₂.trans hr) (ho₂.trans ho) hroom hadd
        (Cmp.accepts_of_nextPosition (hr₂.trans hr) (ho₂.trans ho) (Nat.le_of_add_right_le hroom))

theorem addsValue_map_cmpAddU64 (vs : List Value) : List.Forall₂ AddsValue (vs.map Instr.cmpAddU64) vs :=
  List.forall₂_map_left_iff.mpr (List.forall₂_same.mpr fun _ _ => .inl rfl)

/-- The commands on a compressor constructed as the frame's make the frame's stream. -/
theorem Framer.after_stream {f : Framer} {vs : List Value} {r : State} {c₁ c : Cmp} (hn : vs.length ≤ lastPosition)
    (hadd : (f.cmp.init framingL (internalCap vs.length)).addAll vs = .ok c₁) (hclose : c₁.close = .ok c)
    (hr : r.cmp = f.cmp.init framingL (internalCap vs.length)) :
    (r.after (vs.map Instr.cmpAddU64 ++ [.cmpClose])).cmp = c := by
  rw [← hr] at hadd
  refine State.after_adds_close_of_ok (addsValue_map_cmpAddU64 vs) ?_ ?_ ?_ hadd hclose <;> rw [hr]
  · rfl
  · rfl
  · exact (Nat.zero_add _).trans_le hn

/-- Settles O58: the stream always exists (`Framer.compressStream_spec`), and its length against the capacity decides
what is stored. -/
theorem frmCompressWritesFrame : Obligations.FrmCompressWritesFrame := by
  intro arg sourceLen destCapacity s n
  refine ⟨by simp [decodeCommand], exec_frmCompress_refused, exec_frmCompress_noHeader, fun hn hd => ?_⟩
  obtain ⟨c₁, c, hadd, hclose, hstream, hsize⟩ := s.frm.compressStream_spec (s.frm.src.readValues n)
  have hexec := exec_frmCompress_stream hn hd hstream
  obtain ⟨hready, hclosed⟩ := Cmp.close_ends hclose
  have hfault := (c.ready_iff.mp (hready.trans (Cmp.addAll_ready hadd))).2
  rw [payloadBytes_eq] at hexec
  rw [Memory.readValues_length] at hsize
  refine ⟨c, hstream, by omega, fun vs r hvs hbytes hr => ?_, hclosed, hfault, fun hfits => ?_, fun hfull => ?_⟩
  · subst hvs
    rw [Memory.readValues_eq hbytes] at hadd
    exact Framer.after_stream (by have := sourceLen.isLt; rw [lastPosition]; omega) hadd hclose hr
  · rw [if_neg (by omega)] at hexec
    refine ⟨_, hexec, ?_, fun hcanonical => ?_⟩
    · rw [frameBytes, Memory.writeBytes_append, leBytes_length, payloadBytes_eq]
      rfl
    · have hread := Memory.read_writeBytes hcanonical.dst 0 (bs := frameBytes n c)
      rw [frameBytes_length, payloadBytes_eq] at hread
      refine ⟨fun j hj => ?_, fun j hj => ?_, fun a ha => ?_⟩
      · rw [hread, if_pos (by omega), Nat.sub_zero, frameBytes_getD_count n c hj]
      · rw [hread, if_pos (by omega), Nat.sub_zero, frameBytes_getD_payload n c (by rwa [payloadBytes_eq])]
      · rw [hread, if_neg (by omega)]
  · rw [if_pos hfull] at hexec
    exact ⟨_, hexec, fun a ha => Memory.read_scramble _ _ _ _ a ha⟩

/-! ### The same bytes in another reader give the same values (R71, R255) -/

/-- The decompressor with its bytes in the reader `b`, and with the free value of draw `m` after the end of the stream
(R222). -/
def Dec.reread (d : Dec) (b : Br) (m : Nat) : Dec :=
  { d with sv := if d.eos then Config.freeBits m 0 else d.sv, br := { b with pos := d.br.pos } }

section
variable {d : Dec} {b : Br} {n m : Nat}

theorem Dec.deliver_reread (he : d.eos = false) (v : Value) :
    (d.reread b m).deliver m v = (d.deliver n v).reread b m := by
  unfold Dec.deliver
  split <;> simp [Dec.reread, Dec.finish, Dec.push, he]

/-- The effect of a code does not depend on the reader (R212 to R217). -/
theorem Dec.takeCode_reread (he : d.eos = false) (c : Code) :
    (d.reread b m).takeCode m c = (d.takeCode n c).map (·.reread b m) := by
  cases c with
  | raw64 v =>
    simp only [Dec.takeCode, Dec.takeRaw, Except.map]
    split <;> simp [Dec.reread, Dec.finish, he]
  | rep slot =>
    rcases Nat.lt_or_ge slot.toNat d.cnt with hfill | hempty
    · rw [Dec.takeCode, Dec.takeCode, Dec.takeRep_of_filled hfill, Dec.takeRep_of_filled (d := d.reread b m) hfill]
      simp [Dec.reread, Dec.push, Except.map, he]
    · rw [Dec.takeCode, Dec.takeCode, Dec.takeRep_of_empty hempty, Dec.takeRep_of_empty (d := d.reread b m) hempty]
      rfl
  | idx slot lzc sig payload =>
    by_cases hfit : sigWidth sig + bucket lzc ≤ 64 ∧ slot.toNat < d.cnt
    · obtain ⟨hwidth, hfill⟩ := hfit
      rw [Dec.takeCode, Dec.takeCode, Dec.takeIdx_of_fits hwidth hfill,
        Dec.takeIdx_of_fits (d := d.reread b m) hwidth hfill]
      exact congrArg Except.ok (Dec.deliver_reread (d := { d with slz := unset, stz := _ }) he _)
    · have hbad : 64 < sigWidth sig + bucket lzc ∨ d.cnt ≤ slot.toNat := by omega
      rw [Dec.takeCode, Dec.takeCode, Dec.takeIdx_malformed hbad, Dec.takeIdx_malformed (d := d.reread b m) hbad]
      rfl
  | same payload =>
    have hsv : (d.reread b m).sv = d.sv := if_neg (by simp [he])
    by_cases hz : d.slz = unset
    · rw [Dec.takeCode, Dec.takeCode, Dec.takeSame_of_unset hz, Dec.takeSame_of_unset (d := d.reread b m) hz]
      rfl
    · rw [Dec.takeCode, Dec.takeCode, Dec.takeSame_of_stored hz, Dec.takeSame_of_stored (d := d.reread b m) hz, hsv]
      exact congrArg Except.ok (Dec.deliver_reread he _)
  | new lzc payload =>
    have hsv : (d.reread b m).sv = d.sv := if_neg (by simp [he])
    rw [Dec.takeCode, Dec.takeCode, Dec.takeNew, Dec.takeNew, hsv]
    exact congrArg Except.ok (Dec.deliver_reread (d := { d with slz := bucket lzc }) he _)
  | term pad => rfl

/-- The reader sees, below the end of the decompressor's buffer, the bytes that the decompressor sees. -/
structure Dec.SameBytes (d : Dec) (b : Br) : Prop where
  len_eq : b.len = d.br.len
  bytes_eq : ∀ a < d.br.len, b.byteAt a = d.br.byteAt a

theorem Dec.fetch_reread (h : d.SameBytes b) : (d.reread b m).fetch = d.fetch := by
  have hup : (d.reread b m).upcoming = d.upcoming := Dec.upcoming_congr rfl h.len_eq rfl h.bytes_eq
  unfold Dec.fetch
  rw [hup]
  rfl

theorem Dec.nextValue_reread (he : d.eos = false) (h : d.SameBytes b) :
    (d.reread b m).nextValue m = (d.nextValue n).map (·.reread b m) := by
  cases hf : d.fetch with
  | error f =>
    rw [Dec.nextValue_error hf, Dec.nextValue_error ((Dec.fetch_reread h).trans hf)]
    rfl
  | ok p =>
    obtain ⟨c, used⟩ := p
    rw [Dec.nextValue_ok hf, Dec.nextValue_ok ((Dec.fetch_reread h).trans hf)]
    exact Dec.takeCode_reread (d := d.advance used) he c

/-- A value step moves the cursor and leaves the bytes (R211). -/
theorem Dec.SameBytes.nextValue {d' : Dec} (h : d.SameBytes b) (hn : d.nextValue n = .ok d') :
    d'.queued.SameBytes b := by
  obtain ⟨-, -, -, -, -, -, used, -, hbr⟩ := Dec.nextValue_keeps hn
  have hlen : d'.br.len = d.br.len := by rw [hbr]
  have hbyte (a : Nat) : d'.br.byteAt a = d.br.byteAt a := by rw [hbr, Br.byteAt_pos]
  exact ⟨h.len_eq.trans hlen.symm, fun a ha => (h.bytes_eq a (ha.trans_eq hlen)).trans (hbyte a).symm⟩

/-- The delivery loop over the same bytes, by induction on the budget: the same deliveries or the same fault (R221). -/
theorem Dec.getValues_reread (he : d.eos = false) (h : d.SameBytes b) :
    (d.reread b m).getValues m = (d.getValues n).map (·.reread b m) := by
  induction hk : d.budget - d.emitted generalizing d with
  | zero =>
    have hspent : d.budget ≤ d.emitted := by omega
    rw [Dec.getValues_of_spent n hspent, Dec.getValues_of_spent (d := d.reread b m) m hspent]
    rfl
  | succ k ih =>
    have hb : d.emitted < d.budget := by omega
    have hstep := Dec.nextValue_reread (m := m) (n := n) he h
    cases hn : d.nextValue n with
    | error f =>
      rw [hn] at hstep
      rw [Dec.getValues_of_fault hb hn, Dec.getValues_of_fault (d := d.reread b m) hb hstep]
      rfl
    | ok d' =>
      rw [hn] at hstep
      cases he' : d'.eos with
      | true =>
        rw [Dec.getValues_of_end hb hn he', Dec.getValues_of_end (d := d.reread b m) hb hstep he']
        rfl
      | false =>
        obtain ⟨-, hbudget, hemitted, -⟩ := Dec.nextValue_keeps hn
        have hqueued : (d'.reread b m).queued = d'.queued.reread b m := by simp [Dec.queued, Dec.reread, he']
        rw [Dec.getValues_of_value hb hn he', Dec.getValues_of_value (d := d.reread b m) hb hstep he', hqueued]
        exact ih he' (h.nextValue hn) (by show d'.budget - (d'.emitted + 1) = k; omega)

end

/-! ### All that `FRM_DECOMPRESS` can come to (R255, R256, R257) -/

section
variable {s : State} {sourceLen destCapacity : BitVec 32}

theorem Framer.count_eq (f : Framer) : f.count = (f.src.read 0).toNat + 256 * (f.src.read 1).toNat +
    256 ^ 2 * (f.src.read 2).toNat + 256 ^ 3 * (f.src.read 3).toNat := by
  simp only [Framer.count, headerBytes, Memory.readBytes, List.range, List.range.loop, List.map, leNat, Nat.zero_add]
  omega

theorem exec_frmDecompress_noHeader (h : sourceLen.toNat < 4) :
    exec (.frmDecompress sourceLen destCapacity) s = .next (s.respond .frm .malformedStream 0) :=
  congrArg _ (if_pos h)

theorem exec_frmDecompress_overflow (h : 4 ≤ sourceLen.toNat) (hd : destCapacity.toNat < 8 * s.frm.count) :
    exec (.frmDecompress sourceLen destCapacity) s = .next (s.respond .frm .bufferOverflow 0) :=
  congrArg _ ((if_neg (Nat.not_lt.mpr h)).trans (if_pos hd))

section
variable (h : 4 ≤ sourceLen.toNat) (hd : 8 * s.frm.count ≤ destCapacity.toNat)
include h hd

theorem exec_frmDecompress_ok {d : Dec} (hs : s.frm.decompressStream s.draws sourceLen.toNat = .ok d) :
    exec (.frmDecompress sourceLen destCapacity) s = .next
      ({ s with frm := { s.frm with dec := d, dst := s.frm.dst.writeBytes 0 (valueBytes d.outq) } }.respond .frm .ok
        (BitVec.ofNat 64 (8 * d.outq.length))) := by
  refine congrArg _ ((if_neg (Nat.not_lt.mpr h)).trans ((if_neg (Nat.not_lt.mpr hd)).trans ?_))
  rw [hs]

theorem exec_frmDecompress_fault {f : FaultCode} (hs : s.frm.decompressStream s.draws sourceLen.toNat = .error f) :
    exec (.frmDecompress sourceLen destCapacity) s = .next
      ({ s with
          frm := { s.frm with dec := (s.frm.loadedDec sourceLen.toNat).faulted s.draws f,
                              dst := s.frm.dst.scramble s.draws 98 (8 * s.frm.count) } }.respond .frm f.status 0) := by
  refine congrArg _ ((if_neg (Nat.not_lt.mpr h)).trans ((if_neg (Nat.not_lt.mpr hd)).trans ?_))
  rw [hs]
  rfl

end

end

theorem Dec.getValues_budget {d d' : Dec} {n : Nat} (h : d.getValues n = .ok d') : d'.budget = d.budget := by
  unfold Dec.getValues at h
  generalize d.budget - d.emitted = k at h
  induction k generalizing d with
  | zero => cases h; rfl
  | succ k ih =>
    simp only [Dec.deliverValues] at h
    cases hn : d.nextValue n with
    | error f => rw [hn] at h; cases h
    | ok d₁ =>
      obtain ⟨-, hbudget, -⟩ := Dec.nextValue_keeps hn
      simp only [hn] at h
      split at h
      · cases h; exact hbudget
      · exact (ih h).trans hbudget

/-- The loop delivers at most the count (R221, R255). -/
theorem Framer.decompressStream_length_le {f : Framer} {n len : Nat} {d : Dec} (h : f.decompressStream n len = .ok d) :
    d.outq.length ≤ f.count := by
  have inv := Dec.getValues_inv (Dec.init_inv _ (by decide) _ _) h
  calc d.outq.length
    _ = d.emitted := inv.outq_length
    _ ≤ d.budget := inv.emitted_le
    _ = f.count := Dec.getValues_budget h

/-- The decompressor of a frame sees the bytes of the source behind the header (R255). -/
theorem Framer.loadedDec_byteAt {f : Framer} (hwf : f.src.wf = true) {len a : Nat} (ha : a < len - 4) :
    (f.loadedDec len).br.byteAt a = f.src.read (4 + a) := by
  rw [Br.byteAt_of_empty rfl]
  exact (Memory.read_slice hwf headerBytes len a).trans (if_pos (by rw [headerBytes]; omega))

/-- A reader over a copy of the payload sees what the decompressor of the frame sees (R255). -/
theorem Framer.loadedDec_sameBytes {f : Framer} (hwf : f.src.wf = true) {len : Nat} {b : Br} (hlen : b.len = len - 4)
    (hheld : b.held = []) (hbytes : ∀ a < len - 4, b.inp.read a = f.src.read (4 + a)) :
    (f.loadedDec len).SameBytes b :=
  ⟨hlen, fun a ha => by rw [Br.byteAt_of_empty hheld, hbytes a ha, Framer.loadedDec_byteAt hwf ha]⟩

/-- The values stored by `FRM_DECOMPRESS`, byte by byte (R61, R65). -/
theorem Memory.read_writeBytes_values {m : Memory} (hwf : m.wf = true) (vs : List Value) :
    (∀ i < vs.length, ∀ j < 8,
      ((m.writeBytes 0 (valueBytes vs)).read (8 * i + j)).toNat = (vs.getD i 0).toNat / 256 ^ j % 256) ∧
    ∀ a, 8 * vs.length ≤ a → (m.writeBytes 0 (valueBytes vs)).read a = m.read a := by
  have hread := Memory.read_writeBytes hwf 0 (bs := valueBytes vs)
  rw [valueBytes_length] at hread
  refine ⟨fun i hi j hj => ?_, fun a ha => ?_⟩
  · rw [hread, if_pos (by omega), Nat.sub_zero, valueBytes_getD vs hi hj]
  · rw [hread, if_neg (by omega)]

/-- Settles O59: over the same bytes the decompressor of the frame and that of the command deliver the same values
(`Dec.getValues_reread`). -/
theorem frmDecompressWritesValues : Obligations.FrmDecompressWritesValues := by
  intro arg sourceLen destCapacity s count hcount
  obtain rfl : count = s.frm.count := hcount.trans s.frm.count_eq.symm
  refine ⟨by simp [decodeCommand], rfl, exec_frmDecompress_noHeader, exec_frmDecompress_overflow, fun h hd =>
    ⟨fun d hs => ⟨Framer.decompressStream_length_le hs, exec_frmDecompress_ok h hd hs⟩, fun f hs =>
      ⟨_, _, exec_frmDecompress_fault h hd hs, Memory.read_scramble _ _ _ _⟩, fun r b hcanonical hr hbytes hb => ?_⟩⟩
  generalize r.dec.br.inp = inp at hr hbytes
  have hsame := Framer.loadedDec_sameBytes hcanonical.src
    (b := { len := sourceLen.toNat - 4, pos := 0, held := [], cfg := true, fault := .none, inp := inp }) rfl rfl hbytes
  have hloop := (congrArg (Dec.getValues · r.draws) hr).trans (Dec.getValues_reread (n := s.draws) rfl hsame)
  have hready : r.dec.ready = true := by rw [hr]; rfl
  cases hs : s.frm.decompressStream s.draws sourceLen.toNat with
  | ok d =>
    rw [show Dec.getValues _ s.draws = .ok d from hs] at hloop
    obtain rfl := Host.Outcome.next.inj (hb.symm.trans (exec_decoding_ok (exec_decGetValues r) hready hloop))
    exact ⟨fun _ => ⟨Framer.decompressStream_length_le (d := d) hs, d, _, exec_frmDecompress_ok (d := d) h hd hs,
      Memory.read_writeBytes_values hcanonical.dst d.outq⟩, fun hne => absurd rfl hne⟩
  | error f =>
    rw [show Dec.getValues _ s.draws = .error f from hs] at hloop
    obtain rfl := Host.Outcome.next.inj (hb.symm.trans (exec_decoding_error (exec_decGetValues r) hready hloop))
    exact ⟨fun heq => absurd heq (FaultCode.status_ne_ok (decodingFault_ne_none (Dec.getValues_fault hs))), fun _ =>
      ⟨_, _, exec_frmDecompress_fault h hd hs, Memory.read_scramble _ _ _ _⟩⟩

/-! ### The same values in another buffer make the same stream (R251, R258) -/

/-- The writer with its bytes stored over the space `m` instead of its own. -/
def Bw.onSpace (w : Bw) (m : Memory) : Bw := { w with out := m.writeBytes 0 (w.out.readBytes 0 w.nbytes) }

/-- The compressor with its bytes stored over the space `m` instead of its own. -/
def Cmp.onSpace (c : Cmp) (m : Memory) : Cmp := { c with bw := c.bw.onSpace m }

theorem Cmp.onSpace_of_bw {c : Cmp} {w : Bw} (h : c.bw = w) (m : Memory) :
    c.onSpace m = { c with bw := w.onSpace m } := by
  subst h; rfl

/-- A byte stored behind a run of bytes makes the run longer. -/
theorem Memory.writeBytes_readBytes_write {m₀ : Memory} (h : m₀.wf = true) (m : Memory) (n : Nat) (b : Byte) :
    m.writeBytes 0 ((m₀.write n b).readBytes 0 (n + 1)) = (m.writeBytes 0 (m₀.readBytes 0 n)).write n b := by
  have hbelow : (m₀.write n b).readBytes 0 n = m₀.readBytes 0 n :=
    Memory.readBytes_congr fun i hi => Memory.read_write_ne _ _ (by omega)
  have hlast : (m₀.write n b).readBytes (0 + n) 1 = [b] := by simp [Memory.readBytes, Memory.read_write h]
  rw [Memory.readBytes_add, hbelow, hlast, Memory.writeBytes_append, Memory.length_readBytes, Nat.zero_add]
  rfl

theorem Bw.pushBit_onSpace {w w' : Bw} (h : w.out.wf = true) (m : Memory) {b : Bool} (he : w.pushBit b = .ok w') :
    (w.onSpace m).pushBit b = .ok (w'.onSpace m) := by
  unfold Bw.pushBit at he
  dsimp only at he
  split at he
  next hfull =>
    split at he
    next => cases he
    next hcap =>
      cases he
      refine (if_pos hfull).trans ((if_neg hcap).trans (congrArg Except.ok ?_))
      simp only [Bw.onSpace, Memory.writeBytes_readBytes_write h]
  next hopen =>
    cases he
    exact if_neg hopen

/-- What a writer stores does not depend on what its space held (R131). -/
theorem Bw.emit_onSpace {w w' : Bw} (h : w.out.wf = true) (m : Memory) {bs : Bits} (he : w.emit bs = .ok w') :
    (w.onSpace m).emit bs = .ok (w'.onSpace m) := by
  induction bs generalizing w with
  | nil => cases he; rfl
  | cons b bs ih =>
    simp only [Bw.emit] at he ⊢
    cases hp : w.pushBit b with
    | error f => rw [hp] at he; cases he
    | ok w₁ =>
      rw [hp] at he
      rw [Bw.pushBit_onSpace h m hp]
      exact ih (Bw.pushBit_out_wf h hp) he

section
variable {c c' : Cmp} (h : c.Canonical) (m : Memory)
include h

/-- No code depends on what the space held (R175, R180). -/
theorem Cmp.compressValue_onSpace {v : Value} (he : c.compressValue v = .ok c') :
    (c.onSpace m).compressValue v = .ok (c'.onSpace m) := by
  obtain ⟨w, hemit, rfl⟩ := Cmp.compressValue_ok he
  refine (Cmp.compressValue_of_emit (c := c.onSpace m) rfl (Bw.emit_onSpace h.out m hemit)).trans ?_
  exact congrArg Except.ok ((Cmp.coded_store_setWriter c w (w.onSpace m) _ _ v).symm.trans
    (Cmp.onSpace_of_bw (Cmp.store_bw _ v) m).symm)

theorem Cmp.addAll_onSpace {vs : List Value} (he : c.addAll vs = .ok c') :
    (c.onSpace m).addAll vs = .ok (c'.onSpace m) := by
  induction vs generalizing c with
  | nil => cases he; rfl
  | cons v vs ih =>
    simp only [Cmp.addAll] at he ⊢
    cases hv : c.compressValue v with
    | error f => rw [hv] at he; cases he
    | ok c₁ =>
      rw [hv] at he
      rw [Cmp.compressValue_onSpace h m hv]
      exact ih (Cmp.compressValue_canonical h hv) he

theorem Cmp.close_onSpace (he : c.close = .ok c') : (c.onSpace m).close = .ok (c'.onSpace m) := by
  obtain ⟨c₁, w, hvalue, hemit, rfl⟩ := Cmp.close_ok he
  have hemit' : (c₁.onSpace m).bw.emit (c₁.onSpace m).trailer = .ok (w.onSpace m) :=
    Bw.emit_onSpace (Cmp.compressValue_canonical h hvalue).out m hemit
  simp only [Cmp.close, Cmp.compressValue_onSpace h m hvalue, hemit']
  rfl

end

/-- A stream that is answered was made by adds and a close that fit (R250). -/
theorem Framer.compressStream_ok {f : Framer} {vs : List Value} {c : Cmp} (he : f.compressStream vs = .ok c) :
    ∃ c₁, (f.cmp.init framingL (internalCap vs.length)).addAll vs = .ok c₁ ∧ c₁.close = .ok c := by
  obtain ⟨c₁, c', hadd, hclose, hstream, -⟩ := f.compressStream_spec vs
  obtain rfl : c' = c := Except.ok.inj (hstream.symm.trans he)
  exact ⟨c₁, hadd, hclose⟩

/-- The frames of two framing layers with the same values hold the same stream (R258). -/
theorem Framer.compressStream_onSpace {f : Framer} (h : f.cmp.bw.out.wf = true) (g : Framer) {vs : List Value} {c : Cmp}
    (he : f.compressStream vs = .ok c) : g.compressStream vs = .ok (c.onSpace g.cmp.bw.out) := by
  obtain ⟨c₁, hadd, hclose⟩ := Framer.compressStream_ok he
  have hcanonical := Cmp.init_canonical h framingL (internalCap vs.length)
  have hadd' : (g.cmp.init framingL (internalCap vs.length)).addAll vs = .ok (c₁.onSpace g.cmp.bw.out) :=
    Cmp.addAll_onSpace hcanonical g.cmp.bw.out hadd
  simp only [Framer.compressStream, hadd']
  exact Cmp.close_onSpace (Cmp.addAll_canonical hcanonical hadd) g.cmp.bw.out hclose

/-- The stored bytes cover the payload, whose last bit is that of the sentinel's code (R105, R191). -/
theorem Framer.compressStream_payload_le {f : Framer} (h : f.cmp.bw.out.wf = true) {vs : List Value} {c : Cmp}
    (he : f.compressStream vs = .ok c) : payloadBytes c ≤ c.bw.nbytes := by
  obtain ⟨c₁, hadd, hclose⟩ := Framer.compressStream_ok he
  obtain ⟨inv, isOpen⟩ := Cmp.addAll_inv (Cmp.init_inv f.cmp (L := framingL) (by decide) _ h) rfl hadd
  obtain ⟨c₂, -, -, hsize, hstored⟩ := inv.close_stream isOpen hclose
  rwa [payloadBytes_eq, hsize]

theorem Cmp.frameBytes_onSpace {c : Cmp} (hp : payloadBytes c ≤ c.bw.nbytes) {m : Memory} (hm : m.wf = true) (n : Nat) :
    frameBytes n (c.onSpace m) = frameBytes n c := by
  refine congrArg (leBytes n headerBytes ++ ·) (Memory.readBytes_congr fun i hi => ?_)
  have hi' : i < c.bw.nbytes := Nat.lt_of_lt_of_le hi hp
  show (m.writeBytes 0 (c.bw.out.readBytes 0 c.bw.nbytes)).read (0 + i) = _
  rw [Memory.read_writeBytes hm, Memory.length_readBytes, if_pos (by omega), Nat.sub_zero,
    Memory.getD_readBytes _ _ _ _ _ (by omega), Nat.zero_add]

/-! ### The round trip of a frame (R258) -/

/-- A source that starts with a frame's bytes announces its count (R104). -/
theorem Framer.count_of_frame {g : Framer} {n : Nat} {c : Cmp} (hn : n < 2 ^ 32)
    (hbytes : ∀ a < 4 + payloadBytes c, g.src.read a = (frameBytes n c).getD a 0) : g.count = n := by
  have hheader : g.src.readBytes 0 4 = leBytes n 4 := by
    refine List.ext_getElem (by simp) fun j hj hj' => BitVec.eq_of_toNat_eq ?_
    rw [Memory.length_readBytes] at hj
    rw [← List.getD_eq_getElem _ 0, ← List.getD_eq_getElem _ 0 hj', leBytes_getD n hj,
      Memory.getD_readBytes _ _ _ _ _ hj, Nat.zero_add, hbytes j (by omega), frameBytes_getD_count n c hj]
  rw [Framer.count, headerBytes, hheader, leNat_leBytes]
  exact Nat.mod_eq_of_lt hn

/-- The decompressor of a frame sees all the bits of the frame's stream (R105, R255). -/
theorem Framer.loadedDec_sees {g : Framer} {n : Nat} {c : Cmp} {w : Bw} (hg : g.src.wf = true)
    (hbytes : ∀ a < 4 + payloadBytes c, g.src.read a = (frameBytes n c).getD a 0) (hx : w.Extends c.bw)
    (hsize : c.size = w.total) (hstored : (w.total + 7) / 8 ≤ c.bw.nbytes) :
    (g.loadedDec (4 + payloadBytes c)).br.Sees w := by
  have hpayload : payloadBytes c = (w.total + 7) / 8 := by rw [payloadBytes_eq, hsize]
  refine Br.sees_of_stored rfl hx hstored ?_ fun a ha => ?_
  · show _ ≤ 4 + payloadBytes c - 4
    omega
  · rw [← Br.byteAt_of_empty (r := (g.loadedDec (4 + payloadBytes c)).br) rfl, Framer.loadedDec_byteAt hg (by omega),
      hbytes _ (by omega), frameBytes_getD_payload _ _ (by omega)]

/-- A decompressor that is given a frame delivers the values of the frame (R225, R258). -/
theorem Framer.decompressStream_of_frame {f g : Framer} {vs : List Value} {c : Cmp} (hf : f.cmp.bw.out.wf = true)
    (hg : g.src.wf = true) (hvs : sentinel ∉ vs) (hn : vs.length < 2 ^ 32) (hc : f.compressStream vs = .ok c)
    (hbytes : ∀ a < 4 + payloadBytes c, g.src.read a = (frameBytes vs.length c).getD a 0) (n : Nat) :
    ∃ d, g.decompressStream n (4 + payloadBytes c) = .ok d ∧ d.outq = vs := by
  have hcount := Framer.count_of_frame hn hbytes
  have m : Mirrored (f.cmp.init framingL (internalCap vs.length)) (g.loadedDec (4 + payloadBytes c)) :=
    Mirrored.init f.cmp _ (by decide) _ _ _ hf
  obtain ⟨c₁, hadd, hclose⟩ := Framer.compressStream_ok hc
  obtain ⟨inv, isOpen⟩ := Cmp.addAll_inv m.cmp m.isOpen hadd
  obtain ⟨c₂, hsentinel, hx, hsize, hstored⟩ := inv.close_stream isOpen hclose
  have hsees := (Framer.loadedDec_sees hg hbytes hx hsize hstored).of_extends
    (inv.compressValue_appends hsentinel).extends
  have hbudget₀ : (g.loadedDec (4 + payloadBytes c)).budget = vs.length := hcount
  have hemitted₀ : (g.loadedDec (4 + payloadBytes c)).emitted = 0 := rfl
  obtain ⟨d, -, hloop, houtq, hemitted, hbudget, -⟩ := m.getValues_addAll hvs hadd hsees (by omega) n
  exact ⟨d, hloop.trans (Dec.getValues_of_spent n (by omega)), houtq⟩

/-- A frame that fits is stored and its length answered (R250, R253). -/
theorem exec_frmCompress_fits {s t : State} {sourceLen destCapacity : BitVec 32} {vs : List Value} {c : Cmp}
    (hn : sourceLen.toNat = 8 * vs.length) (hvalues : s.frm.src.readValues vs.length = vs)
    (hc : s.frm.compressStream vs = .ok c) (hfits : 4 + payloadBytes c ≤ destCapacity.toNat)
    (ht : exec (.frmCompress sourceLen destCapacity) s = .next t) :
    t.resp.frm = ⟨.ok, BitVec.ofNat 64 (4 + payloadBytes c)⟩ ∧
      t.frm.dst = s.frm.dst.writeBytes 0 (frameBytes vs.length c) := by
  rw [← hvalues] at hc
  rw [exec_frmCompress_stream hn (by omega) hc, if_neg (by omega)] at ht
  cases ht
  exact ⟨rfl, rfl⟩

/-- Settles O60: the frame's bytes depend on the values alone (`Framer.compressStream_onSpace`), and a decompressor that
is given them delivers the values (`Framer.decompressStream_of_frame`). -/
theorem frameRoundTrip : Obligations.FrameRoundTrip := by
  intro s t vs sourceLen destCapacity F hs hvs hn hvalues hroom ht hF
  obtain ⟨-, c, -, -, hc, hsize⟩ := s.frm.compressStream_spec vs
  have hfits : 4 + payloadBytes c ≤ destCapacity.toNat := by rw [payloadBytes_eq]; omega
  have hcapacity := destCapacity.isLt
  obtain ⟨hresp, hdst⟩ := exec_frmCompress_fits hn hvalues hc hfits ht
  obtain rfl : F = 4 + payloadBytes c := by
    rw [hF, hresp, BitVec.toNat_ofNat]
    exact Nat.mod_eq_of_lt (by omega)
  have hframe : ∀ m : Memory, m.wf = true → ∀ a < 4 + payloadBytes c,
      (m.writeBytes 0 (frameBytes vs.length c)).read a = (frameBytes vs.length c).getD a 0 := fun m hm a ha => by
    rw [Memory.read_writeBytes hm, frameBytes_length, if_pos (by omega), Nat.sub_zero]
  refine ⟨by rw [hresp], hfits, fun s₂ t₂ hs₂ hvalues₂ ht₂ => ?_, fun r frameLen cap hr hlen hcap hbytes => ?_⟩
  · have hc₂ := Framer.compressStream_onSpace hs.frmOut s₂.frm hc
    obtain ⟨hresp₂, hdst₂⟩ := exec_frmCompress_fits hn hvalues₂ hc₂ hfits ht₂
    rw [Cmp.frameBytes_onSpace (Framer.compressStream_payload_le hs.frmOut hc) hs₂.frmOut] at hdst₂
    refine ⟨hresp₂.trans hresp.symm, fun a ha => ?_⟩
    rw [hdst₂, hdst, hframe _ hs₂.dst a ha, hframe _ hs.dst a ha]
  · have hsource : ∀ a < 4 + payloadBytes c, r.frm.src.read a = (frameBytes vs.length c).getD a 0 := fun a ha => by
      rw [hbytes a ha, hdst, hframe _ hs.dst a ha]
    have hcount := Framer.count_of_frame (by omega) hsource
    obtain ⟨d, hd, houtq⟩ := Framer.decompressStream_of_frame hs.frmOut hr.src hvs (by omega) hc hsource r.draws
    rw [← hlen] at hd
    refine ⟨_, exec_frmDecompress_ok (by omega) (by omega) hd, ?_, fun a ha => ?_⟩
    · rw [houtq]; rfl
    · show (r.frm.dst.writeBytes 0 (valueBytes d.outq)).read a = _
      rw [houtq, Memory.read_writeBytes hr.dst, valueBytes_length, if_pos (by omega), ← hvalues,
        Memory.valueBytes_readValues, Nat.sub_zero, Memory.getD_readBytes _ _ _ _ _ ha, Nat.zero_add]

end Sys2Proof.Machine

/-! Proofs of the statements of spec/60_exceptions.md: what a command answers (R276, R290), what a fault leaves behind
(R280, R282), and commands to different units in either order (R285). -/

namespace Sys2Proof.Machine

/-! ### When a command is refused (R276) -/

section
variable {i : Instr} {u : UnitId} {s : State}

theorem refusalCase_of_init (hinit : isInit i = true) (hadd : isAdd i = false) :
    refusalCase i u s = !i.operandsLegal := by
  simp [refusalCase, hinit, hadd]

theorem refusalCase_of_illegal (hlegal : i.operandsLegal = false) : refusalCase i u s = true := by
  simp [refusalCase, hlegal]

theorem refusalCase_of_legal (hinit : isInit i = false) (hlegal : i.operandsLegal = true) (hadd : isAdd i = false) :
    refusalCase i u s = !s.unitReady u := by
  simp [refusalCase, hinit, hlegal, hadd]

/-- A command that adds to the compressor's stream is refused exactly when the compressor does not accept it (R174,
R176). -/
theorem refusalCase_of_add (hinit : isInit i = false) (hlegal : i.operandsLegal = true) (hadd : isAdd i = true) :
    refusalCase i .cmp s = !s.cmp.accepts := by
  simp [refusalCase, hinit, hlegal, hadd, State.unitReady, Cmp.accepts, Bool.or_assoc]

/-- Only a constructed unit without a fault is ready (R46). -/
theorem State.unitReady_of_fault (hu : u ≠ .frm) (hf : s.faultOf u ≠ .none) : s.unitReady u = false := by
  cases u with
  | frm => exact absurd rfl hu
  | bw => simp [State.unitReady, Bw.ready, show s.bw.fault ≠ .none from hf]
  | br => simp [State.unitReady, Br.ready, show s.br.fault ≠ .none from hf]
  | cmp => simp [State.unitReady, Cmp.ready, show s.cmp.fault ≠ .none from hf]
  | dec => simp [State.unitReady, Dec.ready, show s.dec.fault ≠ .none from hf]

theorem refusalCase_of_fault (hu : u ≠ .frm) (hf : s.faultOf u ≠ .none) (hinit : isInit i = false) :
    refusalCase i u s = true := by
  simp [refusalCase, hinit, State.unitReady_of_fault hu hf]

end

/-! ### The answer of a command, read in its unit's register -/

theorem State.respond_answer (s : State) (u : UnitId) (st : Status) (x : BitVec 64) :
    (s.respond u st x).resp.of u = ⟨st, x⟩ := by
  cases u <;> rfl

theorem State.refuse_answer (s : State) (u : UnitId) : (s.refuse u).resp.of u = ⟨.illegalCommand, 0⟩ :=
  s.respond_answer u _ _

theorem State.raise_answer (s : State) (u : UnitId) (f : FaultCode) : (s.raise u f).resp.of u = ⟨f.status, 0⟩ := by
  cases u <;> rfl

theorem State.raise_faultOf (s : State) {u : UnitId} (hu : u ≠ .frm) (f : FaultCode) : (s.raise u f).faultOf u = f := by
  cases u with
  | frm => exact absurd rfl hu
  | _ => rfl

theorem State.raise_cfgOf (s : State) (u : UnitId) (f : FaultCode) : (s.raise u f).cfgOf u = s.cfgOf u := by
  cases u <;> rfl

theorem FaultCode.status_ne_illegal (f : FaultCode) : f.status ≠ .illegalCommand := by
  cases f <;> decide

theorem FaultCode.status_injective : Function.Injective FaultCode.status := by
  intro f g
  cases f <;> cases g <;> decide

/-! ### All that a command can come to -/

/-- The ways in which the command `i` of unit `u` ends: refused in a case of R276, faulted, or answered with a status
that R290 lists. Only `FRM`, which keeps no fault register, answers its failures like results (R254). -/
inductive EndsAs (i : Instr) (u : UnitId) (s : State) : State → Prop
  | refused (hcase : refusalCase i u s = true) (hlist : .illegalCommand ∈ outcomes i) : EndsAs i u s (s.refuse u)
  | faulted {f : FaultCode} (hcase : refusalCase i u s = false) (hlist : f.status ∈ outcomes i) :
      EndsAs i u s (s.raise u f)
  | answered {t : State} {st : Status} {x : BitVec 64} (hcase : refusalCase i u s = false) (hlist : st ∈ outcomes i)
      (hlegal : st ≠ .illegalCommand) (hok : u ≠ .frm → st = .ok) : EndsAs i u s (t.respond u st x)

namespace EndsAs

variable {i : Instr} {u : UnitId} {s t : State}

theorem ok {x : BitVec 64} (hcase : refusalCase i u s = false) (hlist : .ok ∈ outcomes i) :
    EndsAs i u s (t.respond u .ok x) :=
  .answered hcase hlist (by decide) fun _ => rfl

/-- A command that tests an operand first is refused where the operand is out of its range, whatever else holds. -/
theorem ofOperand {legal : Bool} (hlegal : i.operandsLegal = legal) (hlist : .illegalCommand ∈ outcomes i)
    (h : i.operandsLegal = true → EndsAs i u s t) : EndsAs i u s (if legal then t else s.refuse u) := by
  cases legal with
  | true => exact h hlegal
  | false => exact .refused (refusalCase_of_illegal hlegal) hlist

/-- A command that cannot fault is refused or done, as its one test says. -/
theorem ofTest {test : Bool} {x : BitVec 64} (hcase : refusalCase i u s = !test)
    (hlist : outcomes i = [.ok, .illegalCommand]) :
    EndsAs i u s (if test then t.respond u .ok x else s.refuse u) := by
  cases test with
  | true => exact .ok hcase (by simp [hlist])
  | false => exact .refused hcase (by simp [hlist])

theorem writeBits (hcase : refusalCase i .bw s = !s.bw.ready)
    (hlist : outcomes i = [.ok, .outputOverrun, .illegalCommand]) (bits : Bits) :
    EndsAs i .bw s (s.writeBits bits) := by
  rcases s.writeBits_cases bits with ⟨hr, he⟩ | ⟨hr, w, -, he⟩ | ⟨hr, -, he⟩ <;> rw [he] <;> rw [hr] at hcase
  exacts [.refused hcase (by simp [hlist]), .ok hcase (by simp [hlist]),
    .faulted hcase (by simp [hlist, FaultCode.status])]

theorem readBits (hcase : refusalCase i .br s = !s.br.ready)
    (hlist : outcomes i = [.ok, .inputExhausted, .illegalCommand]) (n : Nat) :
    EndsAs i .br s (s.readBits n) := by
  rcases s.readBits_cases n with ⟨hr, he⟩ | ⟨hr, -, he⟩ | ⟨hr, -, he⟩ <;> rw [he] <;> rw [hr] at hcase
  exacts [.refused hcase (by simp [hlist]), .ok hcase (by simp [hlist]),
    .faulted hcase (by simp [hlist, FaultCode.status])]

theorem compressorStep {body : Except FaultCode Cmp} (hcase : refusalCase i .cmp s = !s.cmp.accepts)
    (hlist : outcomes i = [.ok, .outputOverrun, .illegalCommand])
    (hbody : ∀ {f}, body = .error f → f = .outputOverrun) : EndsAs i .cmp s (s.compressorStep body) := by
  rcases s.compressorStep_cases body with ⟨ha, he⟩ | ⟨ha, c, -, he⟩ | ⟨ha, f, hf, he⟩ <;> rw [he] <;> rw [ha] at hcase
  · exact .refused hcase (by simp [hlist])
  · exact .ok hcase (by simp [hlist])
  · obtain rfl := hbody hf
    exact .faulted hcase (by simp [hlist, FaultCode.status])

theorem decompressorStep {body : Except FaultCode Dec} (data : Dec → BitVec 64)
    (hcase : refusalCase i .dec s = !s.dec.ready)
    (hlist : outcomes i = [.ok, .inputExhausted, .malformedStream, .illegalCommand])
    (hbody : ∀ {f}, body = .error f → f = .inputExhausted ∨ f = .malformedStream) :
    EndsAs i .dec s (s.decompressorStep body data) := by
  rcases s.decompressorStep_cases body data with ⟨hr, he⟩ | ⟨hr, d, -, he⟩ | ⟨hr, f, hf, he⟩ <;> rw [he] <;>
    rw [hr] at hcase
  · exact .refused hcase (by simp [hlist])
  · exact .ok hcase (by simp [hlist])
  · rcases hbody hf with rfl | rfl <;> exact .faulted hcase (by simp [hlist, FaultCode.status])

end EndsAs

/-- `FRM_COMPRESS` never faults: its stream is always made (R251). -/
theorem exec_frmCompress_endsAs (s : State) (sourceLen destCapacity : BitVec 32) :
    ∃ t, exec (.frmCompress sourceLen destCapacity) s = .next t ∧
      EndsAs (.frmCompress sourceLen destCapacity) .frm s t := by
  by_cases hwhole : sourceLen.toNat % 8 = 0
  · have hcase : refusalCase (.frmCompress sourceLen destCapacity) .frm s = false :=
      refusalCase_of_legal rfl (decide_eq_true hwhole) rfl
    have hn : sourceLen.toNat = 8 * (sourceLen.toNat / 8) := by omega
    have tooSmall : ∀ t : State,
        EndsAs (.frmCompress sourceLen destCapacity) .frm s (t.respond .frm .bufferTooSmall 0) := fun t =>
      .answered hcase (by simp [outcomes]) (by decide) fun hu => absurd rfl hu
    by_cases hd : destCapacity.toNat < 4
    · exact ⟨_, exec_frmCompress_noHeader hn hd, tooSmall s⟩
    · obtain ⟨-, c, -, -, hc, -⟩ := s.frm.compressStream_spec (s.frm.src.readValues (sourceLen.toNat / 8))
      refine ⟨_, exec_frmCompress_stream hn (Nat.le_of_not_lt hd) hc, ?_⟩
      split
      exacts [tooSmall _, .ok hcase (by simp [outcomes])]
  · exact ⟨_, exec_frmCompress_refused hwhole, .refused (refusalCase_of_illegal (decide_eq_false hwhole))
      (by simp [outcomes])⟩

/-- `FRM_DECOMPRESS` is never refused (R254), and a fault of its decompressor is its own status. -/
theorem exec_frmDecompress_endsAs (s : State) (sourceLen destCapacity : BitVec 32) :
    ∃ t, exec (.frmDecompress sourceLen destCapacity) s = .next t ∧
      EndsAs (.frmDecompress sourceLen destCapacity) .frm s t := by
  have fails : ∀ (t : State) {st : Status}, st = .inputExhausted ∨ st = .malformedStream ∨ st = .bufferOverflow →
      EndsAs (.frmDecompress sourceLen destCapacity) .frm s (t.respond .frm st 0) := fun t st h =>
    .answered rfl (by rcases h with rfl | rfl | rfl <;> simp [outcomes]) (by rcases h with rfl | rfl | rfl <;> decide)
      fun hu => absurd rfl hu
  by_cases hl : sourceLen.toNat < 4
  · exact ⟨_, exec_frmDecompress_noHeader hl, fails s (by simp)⟩
  have hl := Nat.le_of_not_lt hl
  by_cases hd : destCapacity.toNat < 8 * s.frm.count
  · exact ⟨_, exec_frmDecompress_overflow hl hd, fails s (by simp)⟩
  have hd := Nat.le_of_not_lt hd
  cases hs : s.frm.decompressStream s.draws sourceLen.toNat with
  | ok d => exact ⟨_, exec_frmDecompress_ok hl hd hs, .ok rfl (by simp [outcomes])⟩
  | error f =>
    refine ⟨_, exec_frmDecompress_fault hl hd hs, fails _ ?_⟩
    rcases Dec.getValues_fault hs with rfl | rfl <;> simp [FaultCode.status]

/-- Every command ends in one of the ways of `EndsAs`. -/
theorem exec_endsAs (s : State) {i : Instr} {u : UnitId} (h : unitOf i = some u) :
    ∃ t, exec i s = .next t ∧ EndsAs i u s t := by
  cases i <;> cases h
  case frmCompress sourceLen destCapacity => exact exec_frmCompress_endsAs s sourceLen destCapacity
  case frmDecompress sourceLen destCapacity => exact exec_frmDecompress_endsAs s sourceLen destCapacity
  all_goals refine ⟨_, rfl, ?_⟩
  case bwInit cap => exact .ok rfl (by simp [outcomes])
  case bwWriteBit bit => exact .writeBits (refusalCase_of_legal rfl rfl rfl) rfl _
  case bwWriteBits len value =>
    exact .ofOperand rfl (by simp [outcomes]) fun hl => .writeBits (refusalCase_of_legal rfl hl rfl) rfl _
  case bwWriteBits64 len value =>
    exact .ofOperand rfl (by simp [outcomes]) fun hl => .writeBits (refusalCase_of_legal rfl hl rfl) rfl _
  case bwAlign => exact .writeBits (refusalCase_of_legal rfl rfl rfl) rfl _
  case bwFlush => exact .writeBits (refusalCase_of_legal rfl rfl rfl) rfl _
  case brInit len => exact .ok rfl (by simp [outcomes])
  case brReadBit => exact .readBits (refusalCase_of_legal rfl rfl rfl) rfl _
  case brReadBits len =>
    exact .ofOperand rfl (by simp [outcomes]) fun hl => .readBits (refusalCase_of_legal rfl hl rfl) rfl _
  case brReadBits64 len =>
    exact .ofOperand rfl (by simp [outcomes]) fun hl => .readBits (refusalCase_of_legal rfl hl rfl) rfl _
  case brAlign => exact .ofTest (refusalCase_of_legal rfl rfl rfl) rfl
  case cmpInit l cap => exact .ofTest (refusalCase_of_init rfl rfl) rfl
  case cmpAddU64 value => exact .compressorStep (refusalCase_of_add rfl rfl rfl) rfl Cmp.compressValue_error
  case cmpAddF64 value => exact .compressorStep (refusalCase_of_add rfl rfl rfl) rfl Cmp.compressValue_error
  case cmpClose => exact .compressorStep (refusalCase_of_add rfl rfl rfl) rfl Cmp.close_error
  case cmpGetOutput => exact .ofTest (refusalCase_of_legal rfl rfl rfl) rfl
  case cmpGetSize => exact .ofTest (refusalCase_of_legal rfl rfl rfl) rfl
  case decInit l len budget => exact .ofTest (refusalCase_of_init rfl rfl) rfl
  case decNext => exact .decompressorStep _ (refusalCase_of_legal rfl rfl rfl) rfl Dec.nextValue_fault
  case decReadValue => exact .decompressorStep _ (refusalCase_of_legal rfl rfl rfl) rfl Dec.nextValue_fault
  case decGetValues => exact .decompressorStep _ (refusalCase_of_legal rfl rfl rfl) rfl Dec.getValues_fault

theorem EndsAs.of_exec {s t : State} {i : Instr} {u : UnitId} (h : unitOf i = some u) (he : exec i s = .next t) :
    EndsAs i u s t := by
  obtain ⟨t', he', ht⟩ := exec_endsAs s h
  exact Host.Outcome.next.inj (he'.symm.trans he) ▸ ht

/-! ### Refusals, statuses and faults (R276, R280, R282, R290) -/

theorem exec_of_refusalCase {s : State} {i : Instr} {u : UnitId} (h : unitOf i = some u)
    (hcase : refusalCase i u s = true) : exec i s = .next (s.refuse u) := by
  obtain ⟨t, he, ht⟩ := exec_endsAs s h
  cases ht with
  | refused _ _ => exact he
  | faulted hn _ => rw [hcase] at hn; cases hn
  | answered hn _ _ _ => rw [hcase] at hn; cases hn

/-- Settles O12, by the ways a command ends: only the refusal answers `ILLEGAL_COMMAND`. -/
theorem refusalsChangeOnlyResponse : Obligations.RefusalsChangeOnlyResponse := by
  intro s i u h
  refine ⟨exec_of_refusalCase h, fun hcase t he => ?_⟩
  cases EndsAs.of_exec h he with
  | refused hn _ => rw [hcase] at hn; cases hn
  | faulted _ _ => rw [State.raise_answer]; exact FaultCode.status_ne_illegal _
  | answered _ _ hlegal _ => rw [State.respond_answer]; exact hlegal

/-- Settles O13, by the ways a command ends. -/
theorem commandStatusesAreListed : Obligations.CommandStatusesAreListed := by
  intro s i u h
  obtain ⟨t, he, ht⟩ := exec_endsAs s h
  refine ⟨t, he, ?_⟩
  cases ht with
  | refused _ hlist => rw [State.refuse_answer]; exact hlist
  | faulted _ hlist => rw [State.raise_answer]; exact hlist
  | answered _ hlist _ _ => rw [State.respond_answer]; exact hlist

/-- A command of `BW`, `BR`, `CMP` or `DEC` that answers a fault's status has raised that fault (R280). -/
theorem exec_eq_raise_of_status {s t : State} {i : Instr} {u : UnitId} {f : FaultCode} (h : unitOf i = some u)
    (hu : u ≠ .frm) (hf : f ≠ .none) (he : exec i s = .next t) (hst : (t.resp.of u).status = f.status) :
    t = s.raise u f := by
  cases EndsAs.of_exec h he with
  | refused _ _ => rw [State.refuse_answer] at hst; exact absurd hst.symm f.status_ne_illegal
  | faulted _ _ => rw [State.raise_answer] at hst; rw [FaultCode.status_injective hst]
  | answered _ _ _ hok =>
    rw [State.respond_answer, hok hu] at hst
    exact absurd (FaultCode.status_injective (a₂ := .none) hst.symm) hf

/-- Settles O14: the command has raised the fault, and a unit with a fault is not ready. -/
theorem faultedUnitRefusesUntilInit : Obligations.FaultedUnitRefusesUntilInit := by
  intro s t i u f h hu hf he hst
  obtain rfl := exec_eq_raise_of_status h hu hf he hst
  have hfault := s.raise_faultOf hu f
  exact ⟨hfault, s.raise_cfgOf u f, by rw [State.raise_answer], fun j hj hinit =>
    exec_of_refusalCase hj (refusalCase_of_fault hu (hfault.symm ▸ hf) hinit)⟩

/-! ### Two states that differ in one unit (R285) -/

namespace OnlyUnit

variable {u v : UnitId} {s s' : State}

theorem symm (h : OnlyUnit v s s') : OnlyUnit v s' s := by
  simpa [OnlyUnit, eq_comm] using h

theorem trans {s'' : State} (h : OnlyUnit v s s') (h' : OnlyUnit v s' s'') : OnlyUnit v s s'' := by
  simp_all [OnlyUnit]

/-- Two states that differ at most in one unit, and at most in another one, are the same. -/
theorem eq_of_ne (hu : OnlyUnit u s s') (hv : OnlyUnit v s s') (huv : u ≠ v) : s = s' := by
  obtain ⟨hbw, hbr, hcmp, hdec, hfrm, hother, hinbox, hdraws⟩ := hu
  obtain ⟨hbw', hbr', hcmp', hdec', hfrm', -⟩ := hv
  have := (huv.ne_or_ne .bw).elim hbw hbw'
  have := (huv.ne_or_ne .br).elim hbr hbr'
  have := (huv.ne_or_ne .cmp).elim hcmp hcmp'
  have := (huv.ne_or_ne .dec).elim hdec hdec'
  have := (huv.ne_or_ne .frm).elim hfrm hfrm'
  obtain ⟨bw, br, cmp, dec, frm, ⟨⟩, inbox, draws⟩ := s
  obtain ⟨bw', br', cmp', dec', frm', ⟨⟩, inbox', draws'⟩ := s'
  simp_all

theorem bw_eq (h : OnlyUnit v s s') (hv : v ≠ .bw) : s'.bw = s.bw := by
  obtain ⟨hbw, -⟩ := h
  exact (hbw hv).1

theorem br_eq (h : OnlyUnit v s s') (hv : v ≠ .br) : s'.br = s.br := by
  obtain ⟨-, hbr, -⟩ := h
  exact (hbr hv).1

theorem cmp_eq (h : OnlyUnit v s s') (hv : v ≠ .cmp) : s'.cmp = s.cmp := by
  obtain ⟨-, -, hcmp, -⟩ := h
  exact (hcmp hv).1

theorem dec_eq (h : OnlyUnit v s s') (hv : v ≠ .dec) : s'.dec = s.dec := by
  obtain ⟨-, -, -, hdec, -⟩ := h
  exact (hdec hv).1

theorem frm_eq (h : OnlyUnit v s s') (hv : v ≠ .frm) : s'.frm = s.frm := by
  obtain ⟨-, -, -, -, hfrm, -⟩ := h
  exact (hfrm hv).1

theorem draws_eq (h : OnlyUnit v s s') : s'.draws = s.draws := by
  obtain ⟨-, -, -, -, -, -, -, hdraws⟩ := h
  exact hdraws

/-- Answering keeps two states alike outside a unit. -/
theorem respond_congr (h : OnlyUnit v s s') (u : UnitId) (st : Status) (x : BitVec 64) :
    OnlyUnit v (s.respond u st x) (s'.respond u st x) := by
  obtain ⟨hbw, hbr, hcmp, hdec, hfrm, hother, hinbox, hdraws⟩ := h
  cases u with
  | bw => exact ⟨fun hv => ⟨(hbw hv).1, rfl⟩, hbr, hcmp, hdec, hfrm, hother, hinbox, hdraws⟩
  | br => exact ⟨hbw, fun hv => ⟨(hbr hv).1, rfl⟩, hcmp, hdec, hfrm, hother, hinbox, hdraws⟩
  | cmp => exact ⟨hbw, hbr, fun hv => ⟨(hcmp hv).1, rfl⟩, hdec, hfrm, hother, hinbox, hdraws⟩
  | dec => exact ⟨hbw, hbr, hcmp, fun hv => ⟨(hdec hv).1, rfl⟩, hfrm, hother, hinbox, hdraws⟩
  | frm => exact ⟨hbw, hbr, hcmp, hdec, fun hv => ⟨(hfrm hv).1, rfl⟩, hother, hinbox, hdraws⟩

theorem refuse_congr (h : OnlyUnit v s s') (u : UnitId) : OnlyUnit v (s.refuse u) (s'.refuse u) :=
  h.respond_congr u _ _

theorem setBw_congr (h : OnlyUnit v s s') {w w' : Bw} (he : w' = w) :
    OnlyUnit v { s with bw := w } { s' with bw := w' } := by
  obtain ⟨hbw, hrest⟩ := h
  exact ⟨fun hv => ⟨he, (hbw hv).2⟩, hrest⟩

theorem setBr_congr (h : OnlyUnit v s s') {r r' : Br} (he : r' = r) :
    OnlyUnit v { s with br := r } { s' with br := r' } := by
  obtain ⟨hbw, hbr, hrest⟩ := h
  exact ⟨hbw, fun hv => ⟨he, (hbr hv).2⟩, hrest⟩

theorem setCmp_congr (h : OnlyUnit v s s') {c c' : Cmp} (he : c' = c) :
    OnlyUnit v { s with cmp := c } { s' with cmp := c' } := by
  obtain ⟨hbw, hbr, hcmp, hrest⟩ := h
  exact ⟨hbw, hbr, fun hv => ⟨he, (hcmp hv).2⟩, hrest⟩

theorem setDec_congr (h : OnlyUnit v s s') {d d' : Dec} (he : d' = d) :
    OnlyUnit v { s with dec := d } { s' with dec := d' } := by
  obtain ⟨hbw, hbr, hcmp, hdec, hrest⟩ := h
  exact ⟨hbw, hbr, hcmp, fun hv => ⟨he, (hdec hv).2⟩, hrest⟩

theorem setFrm_congr (h : OnlyUnit v s s') {f f' : Framer} (he : f' = f) :
    OnlyUnit v { s with frm := f } { s' with frm := f' } := by
  obtain ⟨hbw, hbr, hcmp, hdec, hfrm, hrest⟩ := h
  exact ⟨hbw, hbr, hcmp, hdec, fun hv => ⟨he, (hfrm hv).2⟩, hrest⟩

/-- A fault of another unit uses that unit's registers and the draw number, which are alike (R280). -/
theorem raise_congr (h : OnlyUnit v s s') (hv : v ≠ u) (f : FaultCode) :
    OnlyUnit v (s.raise u f) (s'.raise u f) := by
  cases u with
  | bw => exact (h.setBw_congr (by rw [h.bw_eq hv, h.draws_eq])).respond_congr _ _ _
  | br => exact (h.setBr_congr (by rw [h.br_eq hv, h.draws_eq])).respond_congr _ _ _
  | cmp => exact (h.setCmp_congr (by rw [h.cmp_eq hv, h.draws_eq])).respond_congr _ _ _
  | dec => exact (h.setDec_congr (by rw [h.dec_eq hv, h.draws_eq])).respond_congr _ _ _
  | frm => exact h.respond_congr _ _ _

theorem ite_congr {p : Prop} [Decidable p] {a a' b b' : State} (ha : OnlyUnit v a a') (hb : OnlyUnit v b b') :
    OnlyUnit v (if p then a else b) (if p then a' else b') := by
  split
  exacts [ha, hb]

theorem writeBits_congr (h : OnlyUnit v s s') (hv : v ≠ .bw) (bits : Bits) :
    OnlyUnit v (s.writeBits bits) (s'.writeBits bits) := by
  unfold State.writeBits
  rw [h.bw_eq hv]
  refine .ite_congr ?_ (h.refuse_congr _)
  cases s.bw.emit bits with
  | ok w => exact (h.setBw_congr rfl).respond_congr _ _ _
  | error f => exact h.raise_congr hv f

theorem readBits_congr (h : OnlyUnit v s s') (hv : v ≠ .br) (n : Nat) :
    OnlyUnit v (s.readBits n) (s'.readBits n) := by
  unfold State.readBits
  rw [h.br_eq hv]
  refine .ite_congr ?_ (h.refuse_congr _)
  cases s.br.take n with
  | ok p => exact (h.setBr_congr rfl).respond_congr _ _ _
  | error f => exact h.raise_congr hv f

theorem compressorStep_congr (h : OnlyUnit v s s') (hv : v ≠ .cmp) (body : Except FaultCode Cmp) :
    OnlyUnit v (s.compressorStep body) (s'.compressorStep body) := by
  unfold State.compressorStep
  rw [h.cmp_eq hv]
  refine .ite_congr ?_ (h.refuse_congr _)
  cases body with
  | ok c => exact (h.setCmp_congr rfl).respond_congr _ _ _
  | error f => exact h.raise_congr hv f

theorem decompressorStep_congr (h : OnlyUnit v s s') (hv : v ≠ .dec) (body : Except FaultCode Dec)
    (data : Dec → BitVec 64) : OnlyUnit v (s.decompressorStep body data) (s'.decompressorStep body data) := by
  unfold State.decompressorStep
  rw [h.dec_eq hv]
  refine .ite_congr ?_ (h.refuse_congr _)
  cases body with
  | ok d => exact (h.setDec_congr rfl).respond_congr _ _ _
  | error f => exact h.raise_congr hv f

theorem execFrmCompress_congr (h : OnlyUnit v s s') (hv : v ≠ .frm) (sourceLen destCapacity : BitVec 32) :
    ∃ t t', execFrmCompress sourceLen destCapacity s = .next t ∧
      execFrmCompress sourceLen destCapacity s' = .next t' ∧ OnlyUnit v t t' := by
  refine ⟨_, _, rfl, rfl, ?_⟩
  rw [h.frm_eq hv]
  refine .ite_congr (h.refuse_congr _) (.ite_congr (h.respond_congr _ _ _) ?_)
  cases s.frm.compressStream (s.frm.src.readValues (sourceLen.toNat / 8)) with
  | error f => exact h.raise_congr hv f
  | ok c =>
    exact .ite_congr ((h.setFrm_congr (by rw [h.draws_eq])).respond_congr _ _ _)
      ((h.setFrm_congr rfl).respond_congr _ _ _)

theorem execFrmDecompress_congr (h : OnlyUnit v s s') (hv : v ≠ .frm) (sourceLen destCapacity : BitVec 32) :
    ∃ t t', execFrmDecompress sourceLen destCapacity s = .next t ∧
      execFrmDecompress sourceLen destCapacity s' = .next t' ∧ OnlyUnit v t t' := by
  refine ⟨_, _, rfl, rfl, ?_⟩
  rw [h.frm_eq hv]
  refine .ite_congr (h.raise_congr hv _) (.ite_congr (h.respond_congr _ _ _) ?_)
  rw [show s.frm.decompressStream s'.draws sourceLen.toNat = s.frm.decompressStream s.draws sourceLen.toNat by
    rw [h.draws_eq]]
  cases s.frm.decompressStream s.draws sourceLen.toNat with
  | error f => exact (h.setFrm_congr (by rw [h.draws_eq])).respond_congr _ _ _
  | ok d => exact (h.setFrm_congr rfl).respond_congr _ _ _

/-- A command of one unit takes two states that differ in another unit to two such states (R285). -/
theorem exec_congr {i : Instr} (h : OnlyUnit v s s') (hi : unitOf i = some u) (hv : v ≠ u) :
    ∃ t t', exec i s = .next t ∧ exec i s' = .next t' ∧ OnlyUnit v t t' := by
  cases i <;> cases hi
  case frmCompress sourceLen destCapacity => exact h.execFrmCompress_congr hv sourceLen destCapacity
  case frmDecompress sourceLen destCapacity => exact h.execFrmDecompress_congr hv sourceLen destCapacity
  all_goals refine ⟨_, _, rfl, rfl, ?_⟩
  case bwInit cap => rw [h.bw_eq hv]; exact (h.setBw_congr rfl).respond_congr _ _ _
  case bwWriteBit bit => exact h.writeBits_congr hv _
  case bwWriteBits len value => exact .ite_congr (h.writeBits_congr hv _) (h.refuse_congr _)
  case bwWriteBits64 len value => exact .ite_congr (h.writeBits_congr hv _) (h.refuse_congr _)
  case bwAlign => rw [h.bw_eq hv]; exact h.writeBits_congr hv _
  case bwFlush => rw [h.bw_eq hv]; exact h.writeBits_congr hv _
  case brInit len => rw [h.br_eq hv]; exact (h.setBr_congr rfl).respond_congr _ _ _
  case brReadBit => exact h.readBits_congr hv _
  case brReadBits len => exact .ite_congr (h.readBits_congr hv _) (h.refuse_congr _)
  case brReadBits64 len => exact .ite_congr (h.readBits_congr hv _) (h.refuse_congr _)
  case brAlign => rw [h.br_eq hv]; exact .ite_congr ((h.setBr_congr rfl).respond_congr _ _ _) (h.refuse_congr _)
  case cmpInit l cap => rw [h.cmp_eq hv]; exact .ite_congr ((h.setCmp_congr rfl).respond_congr _ _ _) (h.refuse_congr _)
  case cmpAddU64 value => rw [h.cmp_eq hv]; exact h.compressorStep_congr hv _
  case cmpAddF64 value => rw [h.cmp_eq hv]; exact h.compressorStep_congr hv _
  case cmpClose => rw [h.cmp_eq hv]; exact h.compressorStep_congr hv _
  case cmpGetOutput => rw [h.cmp_eq hv]; exact .ite_congr (h.respond_congr _ _ _) (h.refuse_congr _)
  case cmpGetSize => rw [h.cmp_eq hv]; exact .ite_congr (h.respond_congr _ _ _) (h.refuse_congr _)
  case decInit l len budget =>
    rw [h.dec_eq hv]; exact .ite_congr ((h.setDec_congr rfl).respond_congr _ _ _) (h.refuse_congr _)
  case decNext => rw [h.dec_eq hv, h.draws_eq]; exact h.decompressorStep_congr hv _ _
  case decReadValue => rw [h.dec_eq hv, h.draws_eq]; exact h.decompressorStep_congr hv _ _
  case decGetValues => rw [h.dec_eq hv, h.draws_eq]; exact h.decompressorStep_congr hv _ _

end OnlyUnit

/-- A command that answers has changed nothing outside its unit (R20, R285). -/
theorem exec_onlyUnit {s t : State} {i : Instr} {u : UnitId} (h : unitOf i = some u) (he : exec i s = .next t) :
    OnlyUnit u s t := by
  obtain ⟨t', he', ht⟩ := commandsTouchOnlyTheirUnit s i
  obtain rfl := Host.Outcome.next.inj (he.symm.trans he')
  simpa [h] using ht

/-- Settles O16: the two orders end in states that differ at most in the unit of the one command, as the first of them
has run from two states that do, and so at most in the unit of the other. -/
theorem commandsOfDifferentUnitsCommute : Obligations.CommandsOfDifferentUnitsCommute := by
  intro s a b i j u v hi hj huv ha hb
  obtain ⟨a', t, ha', ht, hat⟩ := (exec_onlyUnit hj hb).exec_congr hi huv.symm
  obtain ⟨b', t', hb', ht', hbt'⟩ := (exec_onlyUnit hi ha).exec_congr hj huv
  obtain rfl := Host.Outcome.next.inj (ha.symm.trans ha')
  obtain rfl := Host.Outcome.next.inj (hb.symm.trans hb')
  have hu : OnlyUnit u t t' := (exec_onlyUnit hi ht).symm.trans hbt'
  have hv : OnlyUnit v t t' := hat.symm.trans (exec_onlyUnit hj ht')
  exact ⟨t', ht', hu.eq_of_ne hv huv ▸ ht⟩

end Sys2Proof.Machine

/-! Proofs of the statements of spec/70_reset_and_hazards.md: the state after power-on meets the three invariants
(R301, R56). -/

namespace Sys2Proof.Machine

/-! ### The registers of a unit after power-on fit their widths (R14, R301) -/

theorem Bw.reset_fits (capBits : Nat) : Bw.reset.Fits capBits where
  cap := Nat.two_pow_pos _
  free := Nat.two_pow_pos _
  nbytes := Nat.two_pow_pos _
  total := Nat.two_pow_pos _

theorem Br.reset_fits : Br.reset.Fits := ⟨Nat.two_pow_pos _, Nat.two_pow_pos _⟩

theorem Cmp.reset_fits (capBits : Nat) : Cmp.reset.Fits capBits where
  L := Nat.two_pow_pos _
  cur := windowSize_pos _
  gidx := Nat.two_pow_pos _
  entries := fun _ => Nat.two_pow_pos _
  slz := Nat.two_pow_pos _
  size := Nat.two_pow_pos _
  bw := Bw.reset_fits capBits

theorem Dec.reset_fits : Dec.reset.Fits where
  L := Nat.two_pow_pos _
  slz := Nat.two_pow_pos _
  stz := Nat.two_pow_pos _
  cur := windowSize_pos _
  budget := Nat.two_pow_pos _
  cnt := Nat.two_pow_pos _
  emitted := Nat.two_pow_pos _
  br := Br.reset_fits

/-! ### Its arrays are empty, and so in canonical form (R60, R301) -/

theorem Cmp.reset_canonical : Cmp.reset.Canonical := ⟨rfl, rfl, rfl⟩

theorem Dec.reset_canonical : Dec.reset.Canonical := ⟨rfl, rfl⟩

theorem Framer.reset_canonical : Framer.reset.Canonical := ⟨Cmp.reset_canonical, Dec.reset_canonical, rfl, rfl⟩

/-! ### The machine after power-on (R56, R301) -/

theorem State.reset_canonical : State.reset.Canonical :=
  .of_units rfl rfl Cmp.reset_canonical Dec.reset_canonical Framer.reset_canonical

/-- No unit is constructed, so none has registers that must agree (R301). -/
theorem State.reset_unitsInv : State.reset.UnitsInv where
  bw := fun hr => nomatch ((Bw.ready_iff _).mp hr).1
  br := fun hr => nomatch ((Br.ready_iff _).mp hr).1
  cmp := fun hr => nomatch ((Cmp.ready_iff _).mp hr).1
  dec := fun hr => nomatch ((Dec.ready_iff _).mp hr).1
  frm_cmp := fun hr => nomatch ((Cmp.ready_iff _).mp hr).1
  frm_dec := fun hr => nomatch ((Dec.ready_iff _).mp hr).1

theorem State.reset_registersFit : State.reset.RegistersFit where
  bw := Bw.reset_fits 32
  br := Br.reset_fits
  cmp := Cmp.reset_fits 32
  dec := Dec.reset_fits
  frm_cmp := Cmp.reset_fits 33
  frm_dec := Dec.reset_fits

/-- Settles O20, unit by unit: after power-on the arrays are empty, no unit is constructed, and every counter is 0. -/
theorem resetMeetsInvariants : Obligations.ResetMeetsInvariants :=
  ⟨State.reset_canonical, State.reset_unitsInv, State.reset_registersFit⟩

end Sys2Proof.Machine
